-- ==== Sys2Proof/Word.lean ====
section
/-! DEFINITION. The widths of the block's values (00_scope.md R15, R6): every value is an unsigned
integer of a stated width. -/

namespace Sys2Proof

/-- A byte, `u8` of R15. -/
abbrev Byte := BitVec 8

/-- `u32` of R15: the words of the ChaCha state, of the key and of the nonce. -/
abbrev Word32 := BitVec 32

/-- `u64` of R15: limbs, output words, packet and response words. -/
abbrev Word := BitVec 64

/-- A 1024-bit value as sixteen limbs, limb 0 least significant (R15, R23). -/
abbrev Limbs := Vector Word 16

/-- The eight output words of one block (R19, R27). -/
abbrev Block := Vector Word 8

end Sys2Proof
end

