-- ==== Sys2Proof/Syntax.lean ====
section
/-! DEFINITION. The block's commands (30_encoding.md R85), one constructor per row of the opcode
table, with the operands R84 assembles for it. Operand words stay as the packet carries them; their
reading as keys, nonces and records is in Machine/Operands.lean. -/

namespace Sys2Proof

/-- The engine the `E` bit selects: 0 is the LongPeriodEngine, 1 the CryptoEngine (R81). -/
inductive Engine where
  | lpe
  | ce
deriving DecidableEq, Repr

/-- One command (R85). Every value of every operand is legal (R87). -/
inductive Instr where
  /-- STATUS (R182). -/
  | status
  /-- MIX x (R112). -/
  | mix (x : Word)
  /-- CTR_ADV1 (R123). -/
  | ctrAdv1
  /-- CTR_ADVN n (R125). -/
  | ctrAdvn (n : Word)
  /-- CTR_JUMP step (R127). -/
  | ctrJump (stp : Limbs)
  /-- CTR_EQ w (R129). -/
  | ctrEq (w : Limbs)
  /-- CTR_LOAD w (R130). -/
  | ctrLoad (w : Limbs)
  /-- CTR_READ (R131). -/
  | ctrRead
  /-- CHACHA key, nonce, c (R156): key bytes in four words, nonce bytes in one. -/
  | chacha (key : Vector Word 4) (nonce : Word) (c : Word)
  /-- NEXT e (R173). -/
  | next (e : Engine)
  /-- BULK e, n_bytes (R175). -/
  | bulk (e : Engine) (nBytes : Word)
  /-- DISCARD e, n (R177). -/
  | discard (e : Engine) (n : Word)
  /-- JUMP e (R179). -/
  | jump (e : Engine)
  /-- LJUMP e (R180). -/
  | ljump (e : Engine)
  /-- LPE_SEED_ENT (R205). -/
  | lpeSeedEnt
  /-- LPE_SEED_U64 seed (R206). -/
  | lpeSeedU64 (seed : Word)
  /-- LPE_SEED_SEQ w (R207). -/
  | lpeSeedSeq (w : Limbs)
  /-- CE_KEY key, nonce, c (R230). -/
  | ceKey (key : Vector Word 4) (nonce : Word) (c : Word)
  /-- CE_SEED64 sb (R232): 64 seed bytes in eight words. -/
  | ceSeed64 (sb : Vector Word 8)
  /-- CE_SEED32 sb (R233): 32 seed bytes in four words. -/
  | ceSeed32 (sb : Vector Word 4)
  /-- CE_SEED_ENT (R234). -/
  | ceSeedEnt
  /-- CE_ZEROIZE (R226). -/
  | ceZeroize
  /-- CE_SAVE (R240). -/
  | ceSave
  /-- CE_RESTORE L, rec (R244): 72 record bytes in nine words. -/
  | ceRestore (len : Word) (record : Vector Word 9)
  /-- UNBIASED e, lo, hi (R261). -/
  | unbiased (e : Engine) (lo hi : Word)
deriving DecidableEq, Repr

end Sys2Proof
end

