-- ==== Sys2Proof/Machine/Operands.lean ====
section
/-! DEFINITION. Byte order, byte strings and operand forms (20_memory.md R62 to R67, 30_encoding.md
R84), and the arithmetic primitives of 00_scope.md R15 and R16. -/

namespace Sys2Proof.Machine

/-! Arithmetic (R15, R16). Addition, multiplication and subtraction of words wrap as `BitVec`'s do. -/

/-- The exact product of two words (R16). -/
def mul128 (a b : Word) : BitVec 128 := a.setWidth 128 * b.setWidth 128

/-- `p[63:0]` (R16). -/
def lo64 (p : BitVec 128) : Word := p.extractLsb' 0 64

/-- `p[127:64]` (R16). -/
def hi64 (p : BitVec 128) : Word := p.extractLsb' 64 64

/-- Left rotation of a word by 0..63 (R16). -/
def rotl64 (x : Word) (r : Nat) : Word := x.rotateLeft r

/-- Left rotation of a 32-bit word by 1..31 (R16). -/
def rotl32 (x : Word32) (r : Nat) : Word32 := x.rotateLeft r

/-- The integer a list of limbs stands for, limb 0 least significant. -/
def limbsValue (ws : List Word) : Nat :=
  match ws with
  | [] => 0
  | w :: rest => w.toNat + 2 ^ 64 * limbsValue rest

/-- `val(A)`, the integer sixteen limbs stand for (R15). -/
def valLimbs (A : Limbs) : Nat := limbsValue A.toList

/-! Bytes and words (R62 to R65). -/

/-- Byte `j` of a value, bits `8j+7 : 8j`. -/
def byteAt {w : Nat} (v : BitVec w) (j : Nat) : Byte := v.extractLsb' (8 * j) 8

/-- The `n` low-order bytes of a value, least significant first (`bytes_LE` of R17). -/
def leBytes {w : Nat} (v : BitVec w) (n : Nat) : List Byte :=
  (List.range n).map fun j => byteAt v j

/-- The integer a byte list stands for, byte 0 least significant. -/
def leNat (bs : List Byte) : Nat :=
  match bs with
  | [] => 0
  | b :: rest => b.toNat + 256 * leNat rest

/-- `LE64` (R17), zero-extended when fewer than eight bytes are given (R67). -/
def le64 (bs : List Byte) : Word := BitVec.ofNat 64 (leNat bs)

/-- `LE32` (R17). -/
def le32 (bs : List Byte) : Word32 := BitVec.ofNat 32 (leNat bs)

/-- Bytes `off .. off+n-1` of a byte string. -/
def bytesAt (bs : List Byte) (off n : Nat) : List Byte := (bs.drop off).take n

/-- The bytes that words carry, each word low byte first (R65). -/
def bytesOfWords (ws : List Word) : List Byte := ws.flatMap fun w => leBytes w 8

/-- `k` words that carry a byte string, the bytes past its end zero (R65). -/
def packInto (k : Nat) (bs : List Byte) : List Word :=
  match k with
  | 0 => []
  | k + 1 => le64 (bs.take 8) :: packInto k (bs.drop 8)

/-- The `ceil(n/8)` words that carry a byte string of `n` bytes in a response (R65). -/
def packBytes (bs : List Byte) : List Word := packInto ((bs.length + 7) / 8) bs

/-- The 64-bit words of a byte string, word `i` from bytes `8i .. 8i+7`. -/
def words64 (n : Nat) (bs : List Byte) : Vector Word n :=
  Vector.ofFn fun i : Fin n => le64 (bytesAt bs (8 * i.val) 8)

/-- The 32-bit words of a byte string, word `i` from bytes `4i .. 4i+3` (R64). -/
def words32 (n : Nat) (bs : List Byte) : Vector Word32 n :=
  Vector.ofFn fun i : Fin n => le32 (bytesAt bs (4 * i.val) 4)

/-- The bytes of 32-bit words, each low byte first (R155, R241). -/
def bytesOfWords32 (ws : List Word32) : List Byte := ws.flatMap fun w => leBytes w 4

/-- The 64 bytes of a block, `B[8k + j] = W[k][8j+7 : 8j]` (R63). -/
def blockBytes (b : Block) : List Byte := bytesOfWords b.toList

/-- The block of 64 bytes, `W[k] = LE64(B[8k .. 8k+7])` (R63). -/
def blockOfBytes (bs : List Byte) : Block := words64 8 bs

/-! The two byte-string primitives (R66, R67). -/

/-- `OutWrite(off, n, v)` (R66): bytes `off .. off+n-1` of the output byte string become the `n`
low-order bytes of `v`; a string that ends before `off` is filled up with zeros first. -/
def outWrite (out : List Byte) (off n : Nat) (v : Word) : List Byte :=
  (out ++ List.replicate (off - out.length) 0).take off ++ leBytes v n ++ out.drop (off + n)

/-- `RecRead(off, n)` (R67): the little-endian value of `n` bytes at `off` of the input byte string. -/
def recRead (record : List Byte) (off n : Nat) : Word := le64 (bytesAt record off n)

/-! Operand forms (R84). -/

/-- The eight key words of four operand words: the 32 key bytes `kb[0..31]` read as in R64. -/
def keyOfWords (ops : Vector Word 4) : Vector Word32 8 := words32 8 (bytesOfWords ops.toList)

/-- The two nonce words of one operand word: the 8 nonce bytes `nb[0..7]` read as in R64. -/
def nonceOfWord (op : Word) : Vector Word32 2 := words32 2 (bytesOfWords [op])

/-- The seed bytes of CE_SEED64. -/
def seed64Bytes (ops : Vector Word 8) : List Byte := bytesOfWords ops.toList

/-- The seed bytes of CE_SEED32. -/
def seed32Bytes (ops : Vector Word 4) : List Byte := bytesOfWords ops.toList

/-- The 72 record bytes of CE_RESTORE, `rec[0..71]` = the bytes of `OP[1..9]`. -/
def recordBytes (ops : Vector Word 9) : List Byte := bytesOfWords ops.toList

end Sys2Proof.Machine
end

