-- ==== Sys2Proof/Machine/State.lean ====
section
/-! DEFINITION. The state of the block (10_state.md), its reset values, and the reasons a step can
stop. The three groups of R20 hold all that persists from one command to the next; the remaining
fields of `State` are the block's ports, which the spec gives the step as its inputs `Command` and
`Draws` and its output `Response` (00_scope.md R18). -/

namespace Sys2Proof.Machine

/-- The fault codes of R271, `ok` among them. -/
inductive FaultCode where
  | ok
  | illegalCommand
  | notSeeded
  | entropyFailure
  | keystreamExhausted
  | badMagic
  | badVersion
  | badCursor
  | truncated
  | invalidRewind
deriving DecidableEq, Repr

/-- A response (R86): the fault code that the status word carries, and the payload words. -/
structure Response where
  status : FaultCode
  payload : List Word
deriving DecidableEq, Repr

/-- The LongPeriodEngine group of R20; its counter is `State.ctr`. The cursor is the 4-bit field that
only ever holds 0..8 (R25). -/
structure LpeGroup where
  buf : Block
  cur : Fin 9
  seeded : Bool
deriving DecidableEq, Repr

/-- The CryptoEngine group of R20. -/
structure CeGroup where
  key : Vector Word32 8
  nonce : Vector Word32 2
  ctr : Word
  buf : Block
  cur : Fin 9
  seeded : Bool
  exh : Bool
deriving DecidableEq, Repr

/-- The machine. `ctr`, `lpe` and `ce` are the state of R20. `input` is the command stream the host has
sent and no executed packet has used up (R60(a), R88). `entropy128` and `entropy64` are the answers
the entropy collaborator will give to the draws of that many bytes, in order, `none` being failure
(R12); with no answer left, a draw has not returned yet (R316). `response` is the response of the last
command (R86). -/
structure State where
  ctr : Limbs
  lpe : LpeGroup
  ce : CeGroup
  input : List Word
  entropy128 : List (Option (Vector Byte 128))
  entropy64 : List (Option (Vector Byte 64))
  response : Option Response
deriving DecidableEq, Repr

/-- Why the machine stops. The block's own faults are responses (R270), not these. -/
inductive Fault where
  /-- Raised by UNBIASED alone, when no word the engine would ever deliver is accepted: R264, R315,
  "a hang, not a fault: no status word is produced"; the block is stuck in the command until reset.
  Safe: the model stops where the hardware never answers. -/
  | unbiasedNeverAccepts
deriving DecidableEq, Repr

/-- Why an instruction has no meaning. -/
inductive Refusal where
  /-- Raised by an arm of `exec` whose instruction has no meaning yet. Safe: the model stops. -/
  | notModelled (mnemonic : String)
deriving DecidableEq, Repr

/-- The LPE group after reset (R39). -/
def LpeGroup.cleared : LpeGroup :=
  { buf := Vector.replicate 8 0, cur := 8, seeded := false }

/-- The CE group after reset, which is also what destruction leaves (R39, R225). -/
def CeGroup.cleared : CeGroup :=
  { key := Vector.replicate 8 0, nonce := Vector.replicate 2 0, ctr := 0,
    buf := Vector.replicate 8 0, cur := 8, seeded := false, exh := false }

/-- The machine right after reset (R39, R300): the values of R20's table. The ports are empty: the host
has sent nothing, no draw is answered, no command has responded (log entries 2, 3, 4). -/
def State.reset : State :=
  { ctr := Vector.replicate 16 0
    lpe := LpeGroup.cleared
    ce := CeGroup.cleared
    input := []
    entropy128 := []
    entropy64 := []
    response := none }

end Sys2Proof.Machine
end

