-- ==== Sys2Proof/Machine/Ops.lean ====
section
/-! DEFINITION. The shared operations over the state: responding, raising a fault, running a part of a
command that may raise one, and the registers of the engine the `E` bit selects. -/

namespace Sys2Proof.Machine

/-- The number of a fault code (R271). -/
def FaultCode.number (f : FaultCode) : Nat :=
  match f with
  | .ok => 0
  | .illegalCommand => 1
  | .notSeeded => 2
  | .entropyFailure => 3
  | .keystreamExhausted => 4
  | .badMagic => 5
  | .badVersion => 6
  | .badCursor => 7
  | .truncated => 8
  | .invalidRewind => 9

/-- The status word of a response: the fault code in bits 7:0, bits 63:8 zero (R86). -/
def statusWord (f : FaultCode) : Word := BitVec.ofNat 64 f.number

/-- A response as the words the host reads: the status word, then the payload (R86). -/
def Response.words (r : Response) : List Word := statusWord r.status :: r.payload

/-- A command completes: status 0 and its payload (R86). -/
def complete (s : State) (payload : List Word) : State :=
  { s with response := some { status := .ok, payload := payload } }

/-- A command faults: the status word alone (R86, R273). This is all that taking an exception is: nothing
is saved, no mode changes, control stays with the host (R270, R276); there is no return (R277). -/
def raiseFault (s : State) (f : FaultCode) : State :=
  { s with response := some { status := f, payload := [] } }

/-- A command that has not completed has no response: the wait for an entropy draw (R316). -/
def awaitDraw (s : State) : State := { s with response := none }

/-- What a part of a command does: it ends with a value, or it raises a fault, which ends the command;
either way with the state it leaves (R17). -/
inductive Run (α : Type) where
  | done (a : α) (s : State)
  | raised (f : FaultCode) (s : State)
deriving DecidableEq, Repr

/-- One part of a command after another: a fault in the first is the fault of both. -/
def Run.andThen {α β : Type} (r : Run α) (k : α → State → Run β) : Run β :=
  match r with
  | .done a s => k a s
  | .raised f s => .raised f s

/-- The command's end: the response its run gives, in the state its run leaves. -/
def Run.settle (r : Run (List Word)) : State :=
  match r with
  | .done payload s => complete s payload
  | .raised f s => raiseFault s f

/-! The state of the selected engine (43_engine.md, first paragraph). -/

/-- `e.CUR`. -/
def curOf (e : Engine) (s : State) : Fin 9 :=
  match e with
  | .lpe => s.lpe.cur
  | .ce => s.ce.cur

/-- `e.BUF`. -/
def bufOf (e : Engine) (s : State) : Block :=
  match e with
  | .lpe => s.lpe.buf
  | .ce => s.ce.buf

/-- `e.SEEDED`. -/
def seededOf (e : Engine) (s : State) : Bool :=
  match e with
  | .lpe => s.lpe.seeded
  | .ce => s.ce.seeded

/-- `e.CUR <- v`. -/
def setCur (e : Engine) (s : State) (v : Fin 9) : State :=
  match e with
  | .lpe => { s with lpe := { s.lpe with cur := v } }
  | .ce => { s with ce := { s.ce with cur := v } }

/-- `e.BUF <- b`, all eight words. -/
def setBuf (e : Engine) (s : State) (b : Block) : State :=
  match e with
  | .lpe => { s with lpe := { s.lpe with buf := b } }
  | .ce => { s with ce := { s.ce with buf := b } }

/-- `BUF[CUR]`: the buffer's three-bit index is the cursor's low bits. No rule reads at cursor 8: a
read is always after a refill there (R173). -/
def bufferWord (b : Block) (cur : Fin 9) : Word :=
  b[cur.val % 8]'(Nat.mod_lt _ (by decide))

end Sys2Proof.Machine
end

