-- ==== Sys2Proof/Machine/ChaCha.lean ====
section
/-! DEFINITION. ChaCha20Core (42_chacha.md): the block function and the command CHACHA. -/

namespace Sys2Proof.Machine

/-- The sixteen 32-bit words of the ChaCha state (R6, R150). -/
abbrev ChaChaState := Vector Word32 16

/-- The quarter round on the words that the four indices name (R152). -/
def quarterRound (X : ChaChaState) (a b c d : Fin 16) : ChaChaState :=
  let xa := X[a] + X[b]
  let xd := rotl32 (X[d] ^^^ xa) 16
  let xc := X[c] + xd
  let xb := rotl32 (X[b] ^^^ xc) 12
  let xa := xa + xb
  let xd := rotl32 (xd ^^^ xa) 8
  let xc := xc + xd
  let xb := rotl32 (xb ^^^ xc) 7
  (((X.set a xa).set b xb).set c xc).set d xd

/-- The column round (R153). -/
def columnRound (X : ChaChaState) : ChaChaState :=
  quarterRound (quarterRound (quarterRound (quarterRound X 0 4 8 12) 1 5 9 13) 2 6 10 14) 3 7 11 15

/-- The diagonal round (R153). -/
def diagonalRound (X : ChaChaState) : ChaChaState :=
  quarterRound (quarterRound (quarterRound (quarterRound X 0 5 10 15) 1 6 11 12) 2 7 8 13) 3 4 9 14

/-- `n` double rounds, each a column round and then a diagonal round (R153). -/
def doubleRounds (n : Nat) (X : ChaChaState) : ChaChaState :=
  match n with
  | 0 => X
  | n + 1 => doubleRounds n (diagonalRound (columnRound X))

/-- `chacha_block` (R154): ten double rounds and the feed-forward, on any sixteen words. -/
def chachaBlock (X0 : ChaChaState) : ChaChaState :=
  let X := doubleRounds 10 X0
  Vector.ofFn fun i : Fin 16 => X[i] + X0[i]

/-- The four constants (R157): the ASCII bytes `expand 32-byte k` as little-endian words. -/
def chachaConstants : Vector Word32 4 := #v[0x61707865, 0x3320646E, 0x79622D32, 0x6B206574]

/-- The initial state (R151): constants, key, counter low and high, nonce. -/
def chachaInit (key : Vector Word32 8) (nonce : Vector Word32 2) (ctr : Word) : ChaChaState :=
  #v[chachaConstants[0], chachaConstants[1], chachaConstants[2], chachaConstants[3],
     key[0], key[1], key[2], key[3], key[4], key[5], key[6], key[7],
     ctr.extractLsb' 0 32, ctr.extractLsb' 32 32, nonce[0], nonce[1]]

/-- `permute(key, nonce, block_counter)` (R155): the block serialized little-endian into 64 bytes. -/
def permute (key : Vector Word32 8) (nonce : Vector Word32 2) (ctr : Word) : List Byte :=
  bytesOfWords32 (chachaBlock (chachaInit key nonce ctr)).toList

/-- The eight 64-bit words of that block (R63, R221). -/
def keystreamBlock (key : Vector Word32 8) (nonce : Vector Word32 2) (ctr : Word) : Block :=
  blockOfBytes (permute key nonce ctr)

/-- CHACHA key, nonce, c (R156): returns the 64 bytes of `permute` as eight words; no state is read or
written. -/
def execChacha (key : Vector Word 4) (nonce c : Word) (s : State) :
    Host.Outcome State Fault Refusal :=
  .next (complete s (packBytes (permute (keyOfWords key) (nonceOfWord nonce) c)))

end Sys2Proof.Machine
end

