-- ==== Sys2Proof/Config.lean ====
section
/-! DEFINITION. The parameters RNGSPEC leaves without a value (00_scope.md R7 to R13): one record
`Cfg`, and the block's own record `Config.cfg`, an opaque constant, so that nothing can be proved of
it but what holds of every `Cfg`. The constraints R8 and R9 state hold by construction: an odd word is
its upper 63 bits with a 1 below them, a rotation amount is a `Fin 64`, the shift amount is one more
than a `Fin 63`. -/

namespace Sys2Proof

/-- The configuration record of R7. -/
structure Cfg where
  /-- Bits 63..1 of the four multipliers `MUL[0..3]`; bit 0 is 1, since each is odd (R8). -/
  mulHigh : Vector (BitVec 63) 4
  /-- `ROTA[0..2]`, left-rotation amounts in 0..63 (R8). -/
  rotA : Vector (Fin 64) 3
  /-- `ROTB[0..2]`, each absent or in 0..63 (R8). -/
  rotB : Vector (Option (Fin 64)) 3
  /-- One less than `SHIFT`, which is in 1..63 (R8). -/
  shiftPred : Fin 63
  /-- Bits 63..1 of the increment's limb 0; bit 0 is 1, since `INC[0]` is odd (R9). -/
  incHigh : BitVec 63
  /-- The increment's limbs 1..15 (R9). -/
  incRest : Vector Word 15
  /-- `LPE_JUMP_STEP[0..15]` (R10). -/
  lpeJumpStep : Limbs
  /-- `LPE_LJUMP_STEP[0..15]` (R10). -/
  lpeLJumpStep : Limbs
  /-- `EXPAND(seed, i)`, the i-th word of the seed expansion (R11). -/
  expand : Word → Fin 16 → Word
  /-- `SER_MAGIC`, the record's 8-byte tag (R13). -/
  serMagic : Vector Byte 8
  /-- `SER_VERSION`, the record's version byte (R13). -/
  serVersion : Byte
  /-- `SER_EN`: whether the block has CE_SAVE and CE_RESTORE (R13). -/
  serEn : Bool
deriving Inhabited

/-- The configuration this block was built with: fixed before reset, never changed, its values open
(R7; log entry 1). -/
opaque Config.cfg : Cfg

end Sys2Proof
end

