-- ==== Sys2Proof/Machine/Parameters.lean ====
section
/-! DEFINITION. The parameters of R8 and R9 as the rules name them, read from the configuration. -/

namespace Sys2Proof.Machine

/-- `MUL[r]`, an odd word (R8). -/
def mulOf (c : Cfg) (r : Fin 4) : Word := c.mulHigh[r] ++ 1#1

/-- `ROTA[r]` (R8). -/
def rotAOf (c : Cfg) (r : Fin 3) : Nat := c.rotA[r].val

/-- `ROTB[r]`, if the round has a second rotation (R8). -/
def rotBOf (c : Cfg) (r : Fin 3) : Option Nat := c.rotB[r].map Fin.val

/-- `SHIFT`, in 1..63 (R8). -/
def shiftOf (c : Cfg) : Nat := c.shiftPred.val + 1

/-- `INC[0..15]`, limb 0 odd (R9). -/
def incOf (c : Cfg) : Limbs :=
  Vector.ofFn fun i : Fin 16 =>
    if h : i.val = 0 then (c.incHigh ++ 1#1 : BitVec 64) else c.incRest[i.val - 1]

/-- The step vector of `jump()` or of `long_jump()` (R10). -/
def jumpStepOf (c : Cfg) (long : Bool) : Limbs := if long then c.lpeLJumpStep else c.lpeJumpStep

end Sys2Proof.Machine
end

