-- ==== Sys2Proof/Machine/Counter.lean ====
section
/-! DEFINITION. BigCounter1024 (41_counter.md): the carry primitive, the three advances, and the six
counter commands. -/

namespace Sys2Proof.Machine

/-- The carry loop of `add_at` (R121): 1 is added to limb `j`, and to the next one as long as a limb
wraps to zero; a carry out of limb 15 is dropped. `fuel` counts the limbs from `j` on. -/
def carryFrom (fuel : Nat) (S : Limbs) (j : Nat) : Limbs :=
  match fuel with
  | 0 => S
  | fuel + 1 =>
    if h : j < 16 then
      let x := S[j] + 1
      if x ≠ 0 then S.set j x else carryFrom fuel (S.set j x) (j + 1)
    else S

/-- `add_at(i, delta)` (R121), the only way any command adds to the counter. Limb 16 does not exist. -/
def addAt (S : Limbs) (i : Nat) (delta : Word) : Limbs :=
  if h : i < 16 then
    let x := S[i] + delta
    if x < delta then carryFrom (15 - i) (S.set i x) (i + 1) else S.set i x
  else S

/-- Both halves of a partial product added at limbs `i` and `i+1` (R125, R127). -/
def addProductAt (S : Limbs) (i : Nat) (p : BitVec 128) : Limbs :=
  addAt (addAt S i (lo64 p)) (i + 1) (hi64 p)

/-- The body of CTR_ADV1 (R123): the increment is added limb by limb. -/
def advanceByOne (c : Cfg) (S : Limbs) : Limbs :=
  (List.finRange 16).foldl (fun S i => addAt S i.val (incOf c)[i]) S

/-- The body of CTR_ADVN (R125). -/
def advanceByScalar (c : Cfg) (n : Word) (S : Limbs) : Limbs :=
  (List.finRange 16).foldl (fun S i => addProductAt S i.val (mul128 (incOf c)[i] n)) S

/-- One row of the convolution of R127: limb `i` of the step against limbs `0 .. 15 - i` of the
increment. -/
def jumpRow (c : Cfg) (stp : Limbs) (S : Limbs) (i : Fin 16) : Limbs :=
  (List.finRange 16).foldl
    (fun S j =>
      if i.val + j.val < 16 then addProductAt S (i.val + j.val) (mul128 (incOf c)[j] stp[i]) else S)
    S

/-- The body of CTR_JUMP, `big_jump(step)` (R127). -/
def bigJump (c : Cfg) (stp : Limbs) (S : Limbs) : Limbs :=
  (List.finRange 16).foldl (jumpRow c stp) S

/-- `ctr_eq` (R35): all sixteen limbs agree. -/
def ctrEq (A B : Limbs) : Bool := (List.finRange 16).all fun i => A[i] == B[i]

/-- The zero counter (R39). -/
def zeroLimbs : Limbs := Vector.replicate 16 0

/-- The counter taken as the seeded LPE's: the common tail of the seeding commands (R204, R130). The
buffer is not written. -/
def seedLpe (s : State) (S : Limbs) : State :=
  { s with ctr := S, lpe := { s.lpe with cur := 8, seeded := true } }

/-- CTR_ADV1 (R123, R132): writes the counter and nothing else. -/
def execCtrAdv1 (s : State) : Host.Outcome State Fault Refusal :=
  .next (complete { s with ctr := advanceByOne Config.cfg s.ctr } [])

/-- CTR_ADVN n (R125, R132). -/
def execCtrAdvn (n : Word) (s : State) : Host.Outcome State Fault Refusal :=
  .next (complete { s with ctr := advanceByScalar Config.cfg n s.ctr } [])

/-- CTR_JUMP step (R127, R132). -/
def execCtrJump (stp : Limbs) (s : State) : Host.Outcome State Fault Refusal :=
  .next (complete { s with ctr := bigJump Config.cfg stp s.ctr } [])

/-- CTR_EQ w (R129): 1 if the counter's limbs are all equal to the comparand's, else 0. -/
def execCtrEq (w : Limbs) (s : State) : Host.Outcome State Fault Refusal :=
  .next (complete s [if ctrEq s.ctr w then 1 else 0])

/-- CTR_LOAD w (R130): raw counter state, and the LPE around it seeded with an empty buffer. -/
def execCtrLoad (w : Limbs) (s : State) : Host.Outcome State Fault Refusal :=
  .next (complete (seedLpe s w) [])

/-- CTR_READ (R131): the sixteen limbs, limb 0 first. -/
def execCtrRead (s : State) : Host.Outcome State Fault Refusal :=
  .next (complete s s.ctr.toList)

end Sys2Proof.Machine
end

