-- ==== Sys2Proof/Machine/Flags.lean ====
section
/-! DEFINITION. The flag-like state (10_state.md R30 to R33): the block has no condition codes, so this
is the view STATUS returns and the readiness check. -/

namespace Sys2Proof.Machine

/-- A bit as a word of 0 or 1. -/
def bitWord (b : Bool) : Word := if b then 1 else 0

/-- The status word of R33: LPE_SEEDED in bit 0, CE_SEEDED in 1, CE_EXH in 2, SER_EN in 3, LPE_CUR in
7:4, CE_CUR in 11:8, the rest zero. -/
def statusView (c : Cfg) (s : State) : Word :=
  bitWord s.lpe.seeded ||| (bitWord s.ce.seeded <<< 1) ||| (bitWord s.ce.exh <<< 2)
    ||| (bitWord c.serEn <<< 3) ||| (BitVec.ofNat 64 s.lpe.cur.val <<< 4)
    ||| (BitVec.ofNat 64 s.ce.cur.val <<< 8)

/-- `ready(e)` (R170): the fault of an engine that is not ready, if it is not. -/
def notReady (e : Engine) (s : State) : Option FaultCode :=
  match e with
  | .lpe => if s.lpe.seeded then none else some .notSeeded
  | .ce =>
    if s.ce.seeded then
      if s.ce.exh then some .keystreamExhausted else none
    else some .notSeeded

/-- A command's own rule, begun with `ready(e)`: a fault of readiness changes nothing (R170). -/
def whenReady {α : Type} (e : Engine) (s : State) (k : State → Run α) : Run α :=
  match notReady e s with
  | some f => .raised f s
  | none => k s

end Sys2Proof.Machine
end

