-- ==== Sys2Proof/Machine/Mixer.lean ====
section
/-! DEFINITION. AvalancheMixer (40_mixer.md): the function `mix` and the command MIX. -/

namespace Sys2Proof.Machine

/-- One round of `mix` (R111): multiply, then xor with one or two rotations of the product. -/
def mixRound (c : Cfg) (r : Fin 3) (x : Word) : Word :=
  let y := x * mulOf c r.castSucc
  match rotBOf c r with
  | none => y ^^^ rotl64 y (rotAOf c r)
  | some b => y ^^^ rotl64 y (rotAOf c r) ^^^ rotl64 y b

/-- The last step of `mix` (R111): the final multiply and the right-shift-xor. -/
def mixFinal (c : Cfg) (x : Word) : Word :=
  let y := x * mulOf c 3
  y ^^^ (y >>> shiftOf c)

/-- `mix` (R111): three rounds and the final step, in that order. -/
def mix (c : Cfg) (x : Word) : Word :=
  mixFinal c (mixRound c 2 (mixRound c 1 (mixRound c 0 x)))

/-- MIX x (R112): returns `mix(x)`; no state is read or written. -/
def execMix (x : Word) (s : State) : Host.Outcome State Fault Refusal :=
  .next (complete s [mix Config.cfg x])

end Sys2Proof.Machine
end

