-- ==== Sys2Proof/Machine/Engine.lean ====
section
/-! DEFINITION. The BufferedCounterEngine pattern (43_engine.md) over the hooks of its two instances
(44_longperiod.md R201, R202 and 45_crypto.md R221 to R223), and the commands NEXT, BULK, DISCARD,
JUMP, LJUMP and STATUS. -/

namespace Sys2Proof.Machine

/-! Hooks (R171). -/

/-- The state writes of `exhaust()` (R223): key, nonce and SEEDED stay. -/
def exhaustCe (g : CeGroup) : CeGroup :=
  { g with exh := true, ctr := 0, cur := 8, buf := Vector.replicate 8 0 }

/-- `exhaust()` (R223): keystream exhaustion ends the command. -/
def exhaust {α : Type} (s : State) : Run α :=
  .raised .keystreamExhausted { s with ce := exhaustCe s.ce }

/-- The block LPE renders from a counter value: the mixer on each of limbs 8..15 (R201). -/
def renderLpe (c : Cfg) (S : Limbs) : Block :=
  Vector.ofFn fun k : Fin 8 => mix c S[8 + k.val]

/-- `gen_block(LPE)` (R201): advance, then render. -/
def genBlockLpe (c : Cfg) (s : State) : Run Block :=
  let S := advanceByOne c s.ctr
  .done (renderLpe c S) { s with ctr := S }

/-- `gen_block(CE)` (R221): render, then increment; a wrap of the counter is exhaustion and the block is
not delivered. -/
def genBlockCe (s : State) : Run Block :=
  let blk := keystreamBlock s.ce.key s.ce.nonce s.ce.ctr
  let n := s.ce.ctr + 1
  if n = 0 then exhaust s else .done blk { s with ce := { s.ce with ctr := n } }

/-- `gen_block(e)` (R171): one block step, in the engine's own order. -/
def genBlock (c : Cfg) (e : Engine) (s : State) : Run Block :=
  match e with
  | .lpe => genBlockLpe c s
  | .ce => genBlockCe s

/-- `skip_blocks(CE, m)` (R222): exhaustion exactly when `m` block steps would wrap the counter. -/
def skipBlocksCe (m : Nat) (s : State) : Run Unit :=
  if s.ce.ctr.toNat + m ≥ 2 ^ 64 then exhaust s
  else .done () { s with ce := { s.ce with ctr := s.ce.ctr + BitVec.ofNat 64 m } }

/-- `skip_blocks(e, m)` (R171, R202, R222): `m` block steps without rendering, `m` below 2^64. -/
def skipBlocks (c : Cfg) (e : Engine) (m : Nat) (s : State) : Run Unit :=
  match e with
  | .lpe => .done () { s with ctr := advanceByScalar c (BitVec.ofNat 64 m) s.ctr }
  | .ce => skipBlocksCe m s

/-! The pattern. -/

/-- `refill(e)` (R172): one block step, stored in the buffer with the cursor at 0. -/
def refill (c : Cfg) (e : Engine) (s : State) : Run Unit :=
  (genBlock c e s).andThen fun blk t => .done () (setCur e (setBuf e t blk) 0)

/-- `next(e)`, a raw draw (R260): the body of NEXT after its readiness check (R173). -/
def drawWord (c : Cfg) (e : Engine) (s : State) : Run Word :=
  (if curOf e s = 8 then refill c e s else .done () s).andThen fun _ t =>
    .done (bufferWord (bufOf e t) (curOf e t)) (setCur e t (curOf e t + 1))

/-- The eight words of a block written at offset `off` of the output (R175). -/
def outWriteBlock (out : List Byte) (off : Nat) (blk : Block) : List Byte :=
  (List.finRange 8).foldl (fun o k => outWrite o (off + 8 * k.val) 8 blk[k]) out

/-- The whole-block loop of BULK (R175), `m` blocks from offset `off` on. -/
def bulkBlocks (c : Cfg) (e : Engine) (m off : Nat) (out : List Byte) (s : State) :
    Run (List Byte) :=
  match m with
  | 0 => .done out s
  | m + 1 =>
    (genBlock c e s).andThen fun blk t =>
      bulkBlocks c e m (off + 64) (outWriteBlock out off blk) t

/-- Byte `q` of a block, `blk[q div 8][8*(q mod 8)+7 : 8*(q mod 8)]` (R175). -/
def blockByte (blk : Block) (q : Fin 64) : Byte :=
  byteAt (blk[q.val / 8]'(by omega)) (q.val % 8)

/-- The partial chunk of BULK (R175): the first `r` bytes of one more block. -/
def outWritePrefix (out : List Byte) (off r : Nat) (blk : Block) : List Byte :=
  (List.finRange 64).foldl
    (fun o q =>
      if q.val < r then outWrite o (off + q.val) 1 ((blockByte blk q).setWidth 64) else o)
    out

/-- The bytes of BULK (R175): whole blocks while 64 bytes or more are left, then the prefix of one more
block if any are. -/
def bulkFill (c : Cfg) (e : Engine) (n : Nat) (s : State) : Run (List Byte) :=
  (bulkBlocks c e (n / 64) 0 [] s).andThen fun out t =>
    if n % 64 > 0 then
      (genBlock c e t).andThen fun blk u => .done (outWritePrefix out (64 * (n / 64)) (n % 64) blk) u
    else .done out t

/-- `discard(e, n)` (R177). -/
def discardWords (c : Cfg) (e : Engine) (n : Nat) (s : State) : Run Unit :=
  let left := 8 - (curOf e s).val
  if n ≤ left then .done () (setCur e s (Fin.ofNat 9 ((curOf e s).val + n)))
  else
    let n := n - left
    let s := setCur e s 8
    (if n / 8 > 0 then skipBlocks c e (n / 8) s else .done () s).andThen fun _ t =>
      if n % 8 > 0 then
        (refill c e t).andThen fun _ u => .done () (setCur e u (Fin.ofNat 9 (n % 8)))
      else .done () t

/-- The LPE jump (R179, R180): `big_jump` by the configured step, then an empty buffer. -/
def jumpLpe (c : Cfg) (long : Bool) (s : State) : Run Unit :=
  .done () (setCur .lpe { s with ctr := bigJump c (jumpStepOf c long) s.ctr } 8)

/-- The output words a CE jump skips (R6, R179, R180). -/
def ceJumpWords (long : Bool) : Nat := if long then 2 ^ 48 else 2 ^ 32

/-- `jump()` and `long_jump()` of an engine after readiness (R179, R180). -/
def jumpEngine (c : Cfg) (e : Engine) (long : Bool) (s : State) : Run Unit :=
  match e with
  | .lpe => jumpLpe c long s
  | .ce => discardWords c .ce (ceJumpWords long) s

/-! The commands, for any configuration. -/

/-- NEXT (R173). -/
def nextCommand (c : Cfg) (e : Engine) (s : State) : State :=
  (whenReady e s fun s => (drawWord c e s).andThen fun w t => .done [w] t).settle

/-- BULK (R175): the cursor is forced to 8; on exhaustion there is no payload. -/
def bulkCommand (c : Cfg) (e : Engine) (nBytes : Word) (s : State) : State :=
  (whenReady e s fun s =>
    (bulkFill c e nBytes.toNat s).andThen fun out t => .done (packBytes out) (setCur e t 8)).settle

/-- DISCARD (R177). -/
def discardCommand (c : Cfg) (e : Engine) (n : Word) (s : State) : State :=
  (whenReady e s fun s => (discardWords c e n.toNat s).andThen fun _ t => .done [] t).settle

/-- JUMP (R179) and LJUMP (R180). -/
def jumpCommand (c : Cfg) (e : Engine) (long : Bool) (s : State) : State :=
  (whenReady e s fun s => (jumpEngine c e long s).andThen fun _ t => .done [] t).settle

/-! The meanings. -/

/-- NEXT e (R173). -/
def execNext (e : Engine) (s : State) : Host.Outcome State Fault Refusal :=
  .next (nextCommand Config.cfg e s)

/-- BULK e, n_bytes (R175). -/
def execBulk (e : Engine) (nBytes : Word) (s : State) : Host.Outcome State Fault Refusal :=
  .next (bulkCommand Config.cfg e nBytes s)

/-- DISCARD e, n (R177). -/
def execDiscard (e : Engine) (n : Word) (s : State) : Host.Outcome State Fault Refusal :=
  .next (discardCommand Config.cfg e n s)

/-- JUMP e (R179). -/
def execJump (e : Engine) (s : State) : Host.Outcome State Fault Refusal :=
  .next (jumpCommand Config.cfg e false s)

/-- LJUMP e (R180). -/
def execLjump (e : Engine) (s : State) : Host.Outcome State Fault Refusal :=
  .next (jumpCommand Config.cfg e true s)

/-- STATUS (R182): the status word, in every state, with no readiness check. -/
def execStatus (s : State) : Host.Outcome State Fault Refusal :=
  .next (complete s [statusView Config.cfg s])

end Sys2Proof.Machine
end

