-- ==== Sys2Proof/Machine/Crypto.lean ====
section
/-! DEFINITION. The CryptoEngine's secret-material lifecycle and serialization (45_crypto.md). Its hooks
are in Machine/Engine.lean. -/

namespace Sys2Proof.Machine

/-- `ce_clear()` (R225): everything of the CE group is overwritten; it is the group's reset value. -/
def ceClear (s : State) : State := { s with ce := CeGroup.cleared }

/-- `ce_load(key, nonce, c)` (R227): clear, then load. -/
def ceLoad (key : Vector Word32 8) (nonce : Vector Word32 2) (c : Word) (s : State) : State :=
  let s := ceClear s
  { s with ce := { s.ce with key := key, nonce := nonce, ctr := c, seeded := true } }

/-- The output words of the one-permutation derivation (R231): the block function on the raw seed. -/
def deriveBlock (sb : List Byte) : ChaChaState := chachaBlock (words32 16 sb)

/-- `derive`: the key, output words 0..7 (R231). -/
def deriveKey (sb : List Byte) : Vector Word32 8 :=
  Vector.ofFn fun i : Fin 8 => (deriveBlock sb)[i.val]

/-- `derive`: the nonce, output words 8 and 9 (R231). -/
def deriveNonce (sb : List Byte) : Vector Word32 2 :=
  Vector.ofFn fun i : Fin 2 => (deriveBlock sb)[8 + i.val]

/-- Seeding from a 64-byte seed block, counter 0 (R232). -/
def ceSeed (sb : List Byte) (s : State) : State := ceLoad (deriveKey sb) (deriveNonce sb) 0 s

/-- Seeding from 64 entropy bytes (R234): key 0..31, nonce 32..39, counter 40..47, the rest discarded. -/
def ceSeedEntropy (b : Vector Byte 64) (s : State) : State :=
  ceLoad (words32 8 (bytesAt b.toList 0 32)) (words32 2 (bytesAt b.toList 32 8))
    (le64 (bytesAt b.toList 40 8)) s

/-- CE_KEY key, nonce, c (R230). -/
def execCeKey (key : Vector Word 4) (nonce c : Word) (s : State) :
    Host.Outcome State Fault Refusal :=
  .next (complete (ceLoad (keyOfWords key) (nonceOfWord nonce) c s) [])

/-- CE_SEED64 sb (R232). -/
def execCeSeed64 (sb : Vector Word 8) (s : State) : Host.Outcome State Fault Refusal :=
  .next (complete (ceSeed (seed64Bytes sb) s) [])

/-- CE_SEED32 sb (R233): the seed zero-padded to 64 bytes. -/
def execCeSeed32 (sb : Vector Word 4) (s : State) : Host.Outcome State Fault Refusal :=
  .next (complete (ceSeed (seed32Bytes sb ++ List.replicate 32 0) s) [])

/-- CE_SEED_ENT (R234, R73): one draw of 64 bytes. Failure changes nothing; without an answer the
command has not completed and nothing has changed (R316). -/
def execCeSeedEnt (s : State) : Host.Outcome State Fault Refusal :=
  match s.entropy64 with
  | [] => .next (awaitDraw s)
  | none :: rest => .next (raiseFault { s with entropy64 := rest } .entropyFailure)
  | some b :: rest => .next (complete (ceSeedEntropy b { s with entropy64 := rest }) [])

/-- CE_ZEROIZE (R226): legal in every state. -/
def execCeZeroize (s : State) : Host.Outcome State Fault Refusal :=
  .next (complete (ceClear s) [])

/-! Serialization (R240 to R244). -/

/-- The 65-byte record of the CE group (R241), written field by field in ascending order. -/
def saveRecord (c : Cfg) (g : CeGroup) : List Byte :=
  let o : List Byte := (List.finRange 8).foldl
    (fun o j => outWrite o j.val 1 (c.serMagic[j].setWidth 64)) []
  let o := outWrite o 8 1 (c.serVersion.setWidth 64)
  let o := (List.finRange 8).foldl (fun o i => outWrite o (9 + 4 * i.val) 4 (g.key[i].setWidth 64)) o
  let o := (List.finRange 2).foldl
    (fun o i => outWrite o (41 + 4 * i.val) 4 (g.nonce[i].setWidth 64)) o
  let o := outWrite o 49 8 g.ctr
  let o := outWrite o 57 1 (BitVec.ofNat 64 g.cur.val)
  outWrite o 58 7 0

/-- CE_SAVE (R240): illegal without the capability (R87(d)), then readiness, then the record; no state is
written. -/
def saveCommand (c : Cfg) (s : State) : State :=
  if c.serEn then
    (whenReady .ce s fun s => .done (packBytes (saveRecord c s.ce)) s).settle
  else raiseFault s .illegalCommand

/-- The first check of R244 that a record fails, in the order of R274. -/
def recordFault (c : Cfg) (len : Word) (record : List Byte) : Option FaultCode :=
  if len < 65 then some .truncated
  else if bytesAt record 0 8 ≠ c.serMagic.toList then some .badMagic
  else if bytesAt record 8 1 ≠ [c.serVersion] then some .badVersion
  else if (recRead record 57 1).toNat > 8 then some .badCursor
  else if (recRead record 57 1).toNat < 8 ∧ recRead record 49 8 = 0 then some .invalidRewind
  else none

/-- The CE state a sound record restores (R244): load, then the cursor, then the buffer regenerated from
the counter before the serialized one when the cursor is below 8. -/
def restoreRecord (record : List Byte) (s : State) : State :=
  let cur := (recRead record 57 1).toNat
  let ctr := recRead record 49 8
  let key : Vector Word32 8 :=
    Vector.ofFn fun i : Fin 8 => (recRead record (9 + 4 * i.val) 4).setWidth 32
  let nonce : Vector Word32 2 :=
    Vector.ofFn fun i : Fin 2 => (recRead record (41 + 4 * i.val) 4).setWidth 32
  let s := ceLoad key nonce ctr s
  let s := setCur .ce s (Fin.ofNat 9 cur)
  if cur < 8 then setBuf .ce s (keystreamBlock s.ce.key s.ce.nonce (ctr - 1)) else s

/-- CE_RESTORE (R244): illegal without the capability (R87(d)); a fault changes nothing. -/
def restoreCommand (c : Cfg) (len : Word) (record : List Byte) (s : State) : State :=
  if c.serEn then
    match recordFault c len record with
    | some f => raiseFault s f
    | none => complete (restoreRecord record s) []
  else raiseFault s .illegalCommand

/-- CE_SAVE (R240). -/
def execCeSave (s : State) : Host.Outcome State Fault Refusal :=
  .next (saveCommand Config.cfg s)

/-- CE_RESTORE L, rec (R244). -/
def execCeRestore (len : Word) (record : Vector Word 9) (s : State) :
    Host.Outcome State Fault Refusal :=
  .next (restoreCommand Config.cfg len (recordBytes record) s)

end Sys2Proof.Machine
end

