-- ==== Sys2Proof/Machine/LongPeriod.lean ====
section
/-! DEFINITION. The seeding commands of the LongPeriodEngine (44_longperiod.md R204 to R207). Its hooks
are in Machine/Engine.lean. -/

namespace Sys2Proof.Machine

/-- The sixteen words of a seed's expansion (R11, R206). -/
def expandSeed (c : Cfg) (seed : Word) : Limbs := Vector.ofFn fun i : Fin 16 => c.expand seed i

/-- Seeding by a jump distance from the zero counter (R206, R207), with the common tail of R204. -/
def seedByJump (c : Cfg) (w : Limbs) (s : State) : State := seedLpe s (bigJump c w zeroLimbs)

/-- The counter limbs of 128 entropy bytes: raw state, limb `i` from bytes `8i .. 8i+7` (R205). -/
def limbsOfEntropy (b : Vector Byte 128) : Limbs := words64 16 b.toList

/-- LPE_SEED_ENT (R205, R73): one draw of 128 bytes. Failure changes nothing; without an answer the
command has not completed and nothing has changed (R316). -/
def execLpeSeedEnt (s : State) : Host.Outcome State Fault Refusal :=
  match s.entropy128 with
  | [] => .next (awaitDraw s)
  | none :: rest => .next (raiseFault { s with entropy128 := rest } .entropyFailure)
  | some b :: rest =>
    .next (complete (seedLpe { s with entropy128 := rest } (limbsOfEntropy b)) [])

/-- LPE_SEED_U64 seed (R206): the expansion is the jump distance. -/
def execLpeSeedU64 (seed : Word) (s : State) : Host.Outcome State Fault Refusal :=
  .next (complete (seedByJump Config.cfg (expandSeed Config.cfg seed) s) [])

/-- LPE_SEED_SEQ w (R207): the sixteen words are the jump distance. -/
def execLpeSeedSeq (w : Limbs) (s : State) : Host.Outcome State Fault Refusal :=
  .next (complete (seedByJump Config.cfg w s) [])

end Sys2Proof.Machine
end

