-- ==== Sys2Proof/Machine/Sampler.lean ====
section
/-! DEFINITION. UnbiasedSampler (46_sampler.md): Lemire's rejection sampling and the command UNBIASED.

R264 gives the rejection loop no bound and asks for a function with fuel. The fuel here is no
approximation: the words an engine delivers repeat with a period of at most 8 * 2^1024 draws (R203) once
the at most 8 words now in its buffer are used up, so a loop that has seen them all rejected never
accepts, and running out of fuel is exactly the hang of R315 (log entry 5). -/

namespace Sys2Proof.Machine

/-- How many redraws are made before the loop is known never to end. -/
def redrawBound : Nat := 8 * (2 ^ 256) ^ 4 + 8

/-- One raw draw and its product with the range (R261). -/
def drawProduct (c : Cfg) (e : Engine) (range : Word) (s : State) : Run (BitVec 128) :=
  (drawWord c e s).andThen fun x t => .done (mul128 x range) t

/-- The rejection loop of R261: redraw while the low half is below the threshold; `none` when the fuel
is used up and the last draw is rejected too. -/
def redraw (c : Cfg) (e : Engine) (range threshold : Word) (fuel : Nat) (m : BitVec 128) (s : State) :
    Option (Run (BitVec 128)) :=
  match fuel with
  | 0 => if lo64 m < threshold then none else some (.done m s)
  | fuel + 1 =>
    if lo64 m < threshold then
      match drawProduct c e range s with
      | .raised f t => some (.raised f t)
      | .done m t => redraw c e range threshold fuel m t
    else some (.done m s)

/-- The threshold `t = (2^64 - range) mod range` (R261). -/
def rejectBelow (range : Word) : Word := (0 - range) % range

/-- The first draw and, if its low half is below the range, the rejection loop (R261). -/
def acceptedProduct (c : Cfg) (e : Engine) (range : Word) (s : State) : Option (Run (BitVec 128)) :=
  match drawProduct c e range s with
  | .raised f t => some (.raised f t)
  | .done m t =>
    if lo64 m < range then redraw c e range (rejectBelow range) redrawBound m t else some (.done m t)

/-- UNBIASED after its readiness check, with `lo <= hi` (R261); `none` is the hang. -/
def sampleOrdered (c : Cfg) (e : Engine) (lo hi : Word) (s : State) : Option (Run Word) :=
  if lo = hi then some (.done lo s)
  else
    let range := hi - lo + 1
    if range = 0 then some (drawWord c e s)
    else (acceptedProduct c e range s).map fun r => r.andThen fun m t => .done (lo + hi64 m) t

/-- `unbiased(lo, hi)` (R261): readiness first, then the bounds in order. -/
def sample (c : Cfg) (e : Engine) (lo hi : Word) (s : State) : Option (Run Word) :=
  match notReady e s with
  | some f => some (.raised f s)
  | none => if lo > hi then sampleOrdered c e hi lo s else sampleOrdered c e lo hi s

/-- UNBIASED (R261) for any configuration; a loop that never accepts never answers (R264, R315). -/
def unbiasedCommand (c : Cfg) (e : Engine) (lo hi : Word) (s : State) :
    Host.Outcome State Fault Refusal :=
  match sample c e lo hi s with
  | some r => .next (r.andThen fun w t => .done [w] t).settle
  | none => .fault .unbiasedNeverAccepts

/-- UNBIASED e, lo, hi (R261). -/
def execUnbiased (e : Engine) (lo hi : Word) (s : State) : Host.Outcome State Fault Refusal :=
  unbiasedCommand Config.cfg e lo hi s

end Sys2Proof.Machine
end

