-- ==== Sys2Proof/Machine/Dispatch.lean ====
section
/-! DEFINITION. One arm per command of the opcode table (30_encoding.md R85). -/

namespace Sys2Proof.Machine

def exec (i : Instr) (s : State) : Host.Outcome State Fault Refusal :=
  match i with
  | .status => Sys2Proof.Machine.execStatus s
  | .mix x => Sys2Proof.Machine.execMix x s
  | .ctrAdv1 => Sys2Proof.Machine.execCtrAdv1 s
  | .ctrAdvn n => Sys2Proof.Machine.execCtrAdvn n s
  | .ctrJump stp => Sys2Proof.Machine.execCtrJump stp s
  | .ctrEq w => Sys2Proof.Machine.execCtrEq w s
  | .ctrLoad w => Sys2Proof.Machine.execCtrLoad w s
  | .ctrRead => Sys2Proof.Machine.execCtrRead s
  | .chacha key nonce c => Sys2Proof.Machine.execChacha key nonce c s
  | .next e => Sys2Proof.Machine.execNext e s
  | .bulk e nBytes => Sys2Proof.Machine.execBulk e nBytes s
  | .discard e n => Sys2Proof.Machine.execDiscard e n s
  | .jump e => Sys2Proof.Machine.execJump e s
  | .ljump e => Sys2Proof.Machine.execLjump e s
  | .lpeSeedEnt => Sys2Proof.Machine.execLpeSeedEnt s
  | .lpeSeedU64 seed => Sys2Proof.Machine.execLpeSeedU64 seed s
  | .lpeSeedSeq w => Sys2Proof.Machine.execLpeSeedSeq w s
  | .ceKey key nonce c => Sys2Proof.Machine.execCeKey key nonce c s
  | .ceSeed64 sb => Sys2Proof.Machine.execCeSeed64 sb s
  | .ceSeed32 sb => Sys2Proof.Machine.execCeSeed32 sb s
  | .ceSeedEnt => Sys2Proof.Machine.execCeSeedEnt s
  | .ceZeroize => Sys2Proof.Machine.execCeZeroize s
  | .ceSave => Sys2Proof.Machine.execCeSave s
  | .ceRestore len record => Sys2Proof.Machine.execCeRestore len record s
  | .unbiased e lo hi => Sys2Proof.Machine.execUnbiased e lo hi s

end Sys2Proof.Machine
end

