-- ==== Sys2Proof/WellFormed.lean ====
section
/-! DEFINITION. Which instructions a block with a given configuration has. Operand words are never
illegal and their number is in the operand's type, so the one check that an instruction can fail is
R87(d): CE_SAVE and CE_RESTORE do not exist when `SER_EN = 0`. The checks R87(a) to (c) are on header
words, which no `Instr` holds: the decoder makes them. -/

namespace Sys2Proof

/-- Whether the command is one of the two of the optional serialization capability (R13). -/
def Instr.usesSerialization : Instr → Bool
  | .ceSave => true
  | .ceRestore _ _ => true
  | .status | .mix _ | .ctrAdv1 | .ctrAdvn _ | .ctrJump _ | .ctrEq _ | .ctrLoad _ | .ctrRead => false
  | .chacha _ _ _ | .next _ | .bulk _ _ | .discard _ _ | .jump _ | .ljump _ => false
  | .lpeSeedEnt | .lpeSeedU64 _ | .lpeSeedSeq _ | .ceKey _ _ _ | .ceSeed64 _ | .ceSeed32 _ => false
  | .ceSeedEnt | .ceZeroize | .unbiased _ _ _ => false

/-- The instruction exists in a block configured as `c` (R87(d)). -/
def Instr.wellFormed (c : Cfg) (i : Instr) : Bool :=
  !i.usesSerialization || c.serEn

end Sys2Proof
end

