-- ==== Sys2Proof/Decode.lean ====
section
/-! DEFINITION. Packets to commands and back (30_encoding.md R80 to R89). The decoder is total on any
list of words: it finds a command, an illegal packet (rejected by name, with the packet's length), or
the beginning of a packet whose rest has not arrived. The encoder is written from the same tables. -/

namespace Sys2Proof

/-- A row of the opcode map R85: number, mnemonic, operand words (the format of R83), and whether the
`E` bit selects an engine. -/
structure OpcodeRow where
  opc : Nat
  mnemonic : String
  operandWords : Nat
  engineSelect : Bool
deriving DecidableEq, Repr

/-- The opcode map R85. -/
def opcodeTable : List OpcodeRow :=
  [⟨0x01, "STATUS", 0, false⟩, ⟨0x10, "MIX", 1, false⟩,
   ⟨0x20, "CTR_ADV1", 0, false⟩, ⟨0x21, "CTR_ADVN", 1, false⟩, ⟨0x22, "CTR_JUMP", 16, false⟩,
   ⟨0x23, "CTR_EQ", 16, false⟩, ⟨0x24, "CTR_LOAD", 16, false⟩, ⟨0x25, "CTR_READ", 0, false⟩,
   ⟨0x30, "CHACHA", 6, false⟩,
   ⟨0x40, "NEXT", 0, true⟩, ⟨0x41, "BULK", 1, true⟩, ⟨0x42, "DISCARD", 1, true⟩,
   ⟨0x43, "JUMP", 0, true⟩, ⟨0x44, "LJUMP", 0, true⟩,
   ⟨0x50, "LPE_SEED_ENT", 0, false⟩, ⟨0x51, "LPE_SEED_U64", 1, false⟩,
   ⟨0x52, "LPE_SEED_SEQ", 16, false⟩,
   ⟨0x60, "CE_KEY", 6, false⟩, ⟨0x61, "CE_SEED64", 8, false⟩, ⟨0x62, "CE_SEED32", 4, false⟩,
   ⟨0x63, "CE_SEED_ENT", 0, false⟩, ⟨0x64, "CE_ZEROIZE", 0, false⟩, ⟨0x65, "CE_SAVE", 0, false⟩,
   ⟨0x66, "CE_RESTORE", 10, false⟩,
   ⟨0x70, "UNBIASED", 2, true⟩]

/-- The row of an opcode number, if it is in the map. -/
def opcodeRow (opc : Nat) : Option OpcodeRow :=
  opcodeTable.find? fun r => r.opc == opc

/-- Why a packet is illegal (R87(a) to (c)). R87(d) depends on the configuration and is checked by
the two commands it concerns. -/
inductive Reject where
  /-- R87(a): `OPC` is not in the map. -/
  | unknownOpcode
  /-- R87(b): a reserved header bit is 1. -/
  | reservedBits
  /-- R87(c): `E = 1` in a command that has no engine select. -/
  | engineBit
deriving DecidableEq, Repr

/-- What the decoder finds at the head of the command stream; `len` counts the packet's words. -/
inductive Decoded where
  | command (i : Instr) (len : Nat)
  | illegal (r : Reject) (len : Nat)
  | incomplete
deriving DecidableEq, Repr

/-- Header field `OPC`, bits 7:0 (R81). -/
def headerOpc (h : Word) : Nat := (h.extractLsb' 0 8).toNat

/-- Header field `E`, bit 8 (R81). -/
def headerE (h : Word) : Bool := h.getLsbD 8

/-- The reserved header bits 63:9 (R81). -/
def headerReserved (h : Word) : BitVec 55 := h.extractLsb' 9 55

/-- The engine an `E` bit names (R81). -/
def engineOfBit (b : Bool) : Engine := if b then .ce else .lpe

/-- Operand word `OP[k]` (R84). -/
def opWord (ops : List Word) (k : Nat) : Word := ops.getD k 0

/-- Operand words `OP[k .. k+n-1]` (R84). -/
def opWords (n : Nat) (ops : List Word) (k : Nat) : Vector Word n :=
  Vector.ofFn fun i : Fin n => opWord ops (k + i.val)

/-- The command of an opcode with its operands (R84, R85). -/
def commandOf (opc : Nat) (e : Engine) (ops : List Word) : Option Instr :=
  match opc with
  | 0x01 => some .status
  | 0x10 => some (.mix (opWord ops 0))
  | 0x20 => some .ctrAdv1
  | 0x21 => some (.ctrAdvn (opWord ops 0))
  | 0x22 => some (.ctrJump (opWords 16 ops 0))
  | 0x23 => some (.ctrEq (opWords 16 ops 0))
  | 0x24 => some (.ctrLoad (opWords 16 ops 0))
  | 0x25 => some .ctrRead
  | 0x30 => some (.chacha (opWords 4 ops 0) (opWord ops 4) (opWord ops 5))
  | 0x40 => some (.next e)
  | 0x41 => some (.bulk e (opWord ops 0))
  | 0x42 => some (.discard e (opWord ops 0))
  | 0x43 => some (.jump e)
  | 0x44 => some (.ljump e)
  | 0x50 => some .lpeSeedEnt
  | 0x51 => some (.lpeSeedU64 (opWord ops 0))
  | 0x52 => some (.lpeSeedSeq (opWords 16 ops 0))
  | 0x60 => some (.ceKey (opWords 4 ops 0) (opWord ops 4) (opWord ops 5))
  | 0x61 => some (.ceSeed64 (opWords 8 ops 0))
  | 0x62 => some (.ceSeed32 (opWords 4 ops 0))
  | 0x63 => some .ceSeedEnt
  | 0x64 => some .ceZeroize
  | 0x65 => some .ceSave
  | 0x66 => some (.ceRestore (opWord ops 0) (opWords 9 ops 1))
  | 0x70 => some (.unbiased e (opWord ops 0) (opWord ops 1))
  | _ => none

/-- The decoder (R82, R87, R88): an unknown opcode is a packet of its header alone; otherwise the whole
packet must have arrived, and then the header is checked in the order of R89. -/
def decode (ws : List Word) : Decoded :=
  match ws with
  | [] => .incomplete
  | h :: rest =>
    match opcodeRow (headerOpc h) with
    | none => .illegal .unknownOpcode 1
    | some row =>
      if rest.length < row.operandWords then .incomplete
      else if headerReserved h ≠ 0 then .illegal .reservedBits (1 + row.operandWords)
      else if headerE h && !row.engineSelect then .illegal .engineBit (1 + row.operandWords)
      else
        match commandOf (headerOpc h) (engineOfBit (headerE h)) rest with
        | some i => .command i (1 + row.operandWords)
        | none => .illegal .unknownOpcode 1

/-- A header word: `OPC` in bits 7:0, `E` in bit 8, the reserved bits zero (R81). -/
def header (opc : Nat) (e : Engine) : Word :=
  BitVec.ofNat 64 (opc + match e with | .lpe => 0 | .ce => 0x100)

/-- The encoder: the words of a command's packet (R80 to R85). -/
def encode (i : Instr) : List Word :=
  match i with
  | .status => [header 0x01 .lpe]
  | .mix x => [header 0x10 .lpe, x]
  | .ctrAdv1 => [header 0x20 .lpe]
  | .ctrAdvn n => [header 0x21 .lpe, n]
  | .ctrJump stp => header 0x22 .lpe :: stp.toList
  | .ctrEq w => header 0x23 .lpe :: w.toList
  | .ctrLoad w => header 0x24 .lpe :: w.toList
  | .ctrRead => [header 0x25 .lpe]
  | .chacha key nonce c => header 0x30 .lpe :: (key.toList ++ [nonce, c])
  | .next e => [header 0x40 e]
  | .bulk e n => [header 0x41 e, n]
  | .discard e n => [header 0x42 e, n]
  | .jump e => [header 0x43 e]
  | .ljump e => [header 0x44 e]
  | .lpeSeedEnt => [header 0x50 .lpe]
  | .lpeSeedU64 seed => [header 0x51 .lpe, seed]
  | .lpeSeedSeq w => header 0x52 .lpe :: w.toList
  | .ceKey key nonce c => header 0x60 .lpe :: (key.toList ++ [nonce, c])
  | .ceSeed64 sb => header 0x61 .lpe :: sb.toList
  | .ceSeed32 sb => header 0x62 .lpe :: sb.toList
  | .ceSeedEnt => [header 0x63 .lpe]
  | .ceZeroize => [header 0x64 .lpe]
  | .ceSave => [header 0x65 .lpe]
  | .ceRestore len record => header 0x66 .lpe :: len :: record.toList
  | .unbiased e lo hi => [header 0x70 e, lo, hi]

/-- The words of the longest packet (R82: 17). -/
def longestPacket : Nat := 17

/-- The lowest `k` 64-bit words of a number, the first word in its lowest bits. -/
def splitWords (k v : Nat) : List Word :=
  match k with
  | 0 => []
  | k + 1 => BitVec.ofNat 64 v :: splitWords k (v / 2 ^ 64)

/-- The stream words of a number that spec/opcode_table.json describes with `nbits` bits: the bits
above `nbits` are zero, up to the longest packet. -/
def tableWords (nbits w : Nat) : List Word :=
  splitWords longestPacket (w % 2 ^ nbits)

/-- The instruction the decoder reads from such a number. -/
def decodeTableWord (nbits w : Nat) : Option Instr :=
  match decode (tableWords nbits w) with
  | .command i _ => some i
  | .illegal _ _ => none
  | .incomplete => none

/-! Pseudo-commands (R92) and their expansions. -/

/-- `CE_KEY key, nonce` without a counter stands for counter 0 (R92). -/
def pseudoCeKey (key : Vector Word 4) (nonce : Word) : Instr := .ceKey key nonce 0

/-- `CE_RESTORE rec` stands for `CE_RESTORE 65, rec ++ zeros(7)` (R92): the 65 record bytes are the
eight words and the low byte of a ninth, the seven bytes above it zero. -/
def pseudoCeRestore (first64 : Vector Word 8) (last : Byte) : Instr :=
  .ceRestore 65 (first64.push (last.setWidth 64))

/-- `CTR_CLEAR` stands for `CTR_LOAD {0}` (R92). -/
def pseudoCtrClear : Instr := .ctrLoad (Vector.replicate 16 0)

end Sys2Proof
end

