-- ==== Sys2Proof/Machine/Fetch.lean ====
section
/-! DEFINITION. What a step does around a command: taking its words from the command stream, refusing
an illegal packet, and placing a packet in the stream. -/

namespace Sys2Proof.Machine

/-- A packet's words are consumed once, when its command has given its response (R72, R86); a command
that waits for a draw is still in progress (R316). -/
def retire (len : Nat) (s : State) : State :=
  match s.response with
  | none => s
  | some _ => { s with input := s.input.drop len }

/-- An illegal packet (R87, R82): status `IllegalCommand`, the whole packet consumed, no state read or
changed. -/
def rejectPacket (len : Nat) (s : State) : State := retire len (raiseFault s .illegalCommand)

/-- The state with the words of a number as its command stream (Sys2Proof.tableWords). -/
def placeWords (s : State) (nbits w : Nat) : State := { s with input := tableWords nbits w }

end Sys2Proof.Machine
end

