-- ==== Sys2Proof/Machine/Step.lean ====
section
/-! DEFINITION. One step of the block: one command (00_scope.md R5, R18). -/

namespace Sys2Proof.Machine

/-- The block takes the packet at the head of the command stream. A whole packet's command is executed;
an illegal packet is answered and dropped; with no whole packet the block waits, unchanged (R88). -/
def step (s : State) : Host.Outcome State Fault Refusal :=
  match decode s.input with
  | .command i len =>
    match exec i s with
    | .next t => .next (retire len t)
    | .fault f => .fault f
    | .refused r => .refused r
  | .illegal _ len => .next (rejectPacket len s)
  | .incomplete => .next s

/-- The state with a packet in the command stream, which the next step takes. -/
def State.withFetchWord (s : State) (nbits w : Nat) : State := placeWords s nbits w

end Sys2Proof.Machine
end

