-- ==== Sys2Proof/Machine/Placeholder.lean ====
section
/-! DEFINITION. `CFG0` (00_scope.md R14): the spec's placeholder configuration, "used only to make the
test vectors numbers". It is no part of the machine: no meaning and no step uses it. Words are written
whole; an odd word's upper 63 bits are taken from it. -/

namespace Sys2Proof.Machine

/-- Bits 63..1 of a word. -/
def upperBits (w : Word) : BitVec 63 := w.extractLsb' 1 63

/-- A value with one limb 1 and the others 0. -/
def unitLimbs (k : Nat) : Limbs := Vector.ofFn fun i : Fin 16 => if i.val = k then 1 else 0

/-- `CFG0` (R14); the increment's limbs are those printed in 95_test_vectors.md V2.1. -/
def cfg0 : Cfg where
  mulHigh := #v[upperBits 0x9E3779B97F4A7C15, upperBits 0xBF58476D1CE4E5B9,
    upperBits 0x94D049BB133111EB, upperBits 0xFF51AFD7ED558CCD]
  rotA := #v[49, 37, 41]
  rotB := #v[some 24, some 14, some 17]
  shiftPred := 27
  incHigh := upperBits 0x9E3779B97F4A7C15
  incRest := #v[0x74BE790D2FBF4957, 0x412AA4264643A8BC, 0x94F6F0E1B8C856F4, 0x8EAB7C9C14C8EB0D,
    0x8E33F44AF989749D, 0x039E4DB352DF660F, 0xBD57B7CAA24BFDEF, 0x5A77C6EFEC3A5E11,
    0x463433E31819750E, 0xBC83E2B05684E42D, 0xC056326F3C486918, 0x01C6C34B2C9C56AD,
    0x8EEB806EB605CE3B, 0x8A72B8E3EC3BA961, 0x78837CB54C024AA2]
  lpeJumpStep := unitLimbs 8
  lpeLJumpStep := unitLimbs 12
  expand := fun seed i => seed + BitVec.ofNat 64 i.val
  serMagic := #v[0x43, 0x45, 0x32, 0x30, 0x53, 0x45, 0x52, 0x00]
  serVersion := 1
  serEn := true

end Sys2Proof.Machine
end

