-- ==== Sys2Proof/Machine/SpecTerms.lean ====
section
/-! DEFINITION. Terms of the spec's text that the statements use and the machine does not: the opcode
map, the mixer and the rotations written out with shifts, the bytes of a record, the size of a result.
They are written from the rules, not from the machine's definitions. -/

namespace Sys2Proof.Machine

/-- R85 and R83: opcode, operand words, whether `E` selects an engine. -/
def specOpcodes : List (Nat × Nat × Bool) :=
  [(0x01, 0, false), (0x10, 1, false), (0x20, 0, false), (0x21, 1, false), (0x22, 16, false),
   (0x23, 16, false), (0x24, 16, false), (0x25, 0, false), (0x30, 6, false), (0x40, 0, true),
   (0x41, 1, true), (0x42, 1, true), (0x43, 0, true), (0x44, 0, true), (0x50, 0, false),
   (0x51, 1, false), (0x52, 16, false), (0x60, 6, false), (0x61, 8, false), (0x62, 4, false),
   (0x63, 0, false), (0x64, 0, false), (0x65, 0, false), (0x66, 10, false), (0x70, 2, true)]

/-- `rotl64` of R16, with its shifts. -/
def specRotl64 (x : Word) (r : Nat) : Word := if r = 0 then x else (x <<< r) ||| (x >>> (64 - r))

/-- `rotl32` of R16, with its shifts, for an amount in 1..31. -/
def specRotl32 (x : Word32) (r : Nat) : Word32 := (x <<< r) ||| (x >>> (32 - r))

/-- The xor line of R111. -/
def specMixXor (c : Cfg) (r : Fin 3) (y : Word) : Word :=
  match rotBOf c r with
  | none => y ^^^ specRotl64 y (rotAOf c r)
  | some b => y ^^^ specRotl64 y (rotAOf c r) ^^^ specRotl64 y b

/-- The pseudocode of R111, on natural numbers where it multiplies and shifts right. -/
def specMix (c : Cfg) (x : Word) : Word :=
  let mul := fun (a m : Word) => BitVec.ofNat 64 (a.toNat * m.toNat % 2 ^ 64)
  let x0 := specMixXor c 0 (mul x (mulOf c 0))
  let x1 := specMixXor c 1 (mul x0 (mulOf c 1))
  let x2 := specMixXor c 2 (mul x1 (mulOf c 2))
  let y := mul x2 (mulOf c 3)
  y ^^^ BitVec.ofNat 64 (y.toNat / 2 ^ shiftOf c)

/-- Record byte `rec[j]` of CE_RESTORE's operand words (R84, R65). -/
def recByte (record : Vector Word 9) (j : Fin 72) : Byte :=
  byteAt (record[j.val / 8]'(by omega)) (j.val % 8)

/-- The payload words of a completed command, by the column "result payload" of R85 (R86). -/
def resultWords (i : Instr) : Nat :=
  match i with
  | .status | .mix _ | .ctrEq _ | .next _ | .unbiased _ _ _ => 1
  | .ctrRead => 16
  | .chacha _ _ _ => 8
  | .bulk _ n => (n.toNat + 7) / 8
  | .ceSave => 9
  | .ctrAdv1 | .ctrAdvn _ | .ctrJump _ | .ctrLoad _ | .discard _ _ | .jump _ | .ljump _ => 0
  | .lpeSeedEnt | .lpeSeedU64 _ | .lpeSeedSeq _ | .ceKey _ _ _ | .ceSeed64 _ | .ceSeed32 _ => 0
  | .ceSeedEnt | .ceZeroize | .ceRestore _ _ => 0

/-- The size of the range `[lo, hi]`, 2^64 for the whole domain (R261). -/
def rangeSize (lo hi : Word) : Nat := hi.toNat - lo.toNat + 1

/-- The sampler rejects a raw draw: the low half of its product with the range is below
`2^64 mod range` (R261, R263). -/
def rejects (range : Nat) (w : Word) : Prop := w.toNat * range % 2 ^ 64 < 2 ^ 64 % range

/-- The sampler's candidate from a raw draw: the high half of its product with the range (R261). -/
def candidate (range : Nat) (w : Word) : Nat := w.toNat * range / 2 ^ 64

end Sys2Proof.Machine
end

