-- ==== Sys2Proof/Machine/Equality.lean ====
section
/-! DEFINITION. The equality and equivalence predicates of 10_state.md R35 to R38 (`ctr_eq` is
`ctrEq` of Machine/Counter.lean). -/

namespace Sys2Proof.Machine

/-- The words two buffers hold at and above a cursor agree; at cursor 8 there are none (R36, R37). -/
abbrev pendingWordsEq (cur : Fin 9) (a b : Block) : Prop :=
  ∀ k : Fin 8, cur.val ≤ k.val → a[k] = b[k]

/-- `lpe_eq` (R36): equal counters, equal cursor, equal unconsumed words. -/
abbrev lpeEq (s t : State) : Prop :=
  ctrEq s.ctr t.ctr = true ∧ s.lpe.cur = t.lpe.cur ∧ pendingWordsEq s.lpe.cur s.lpe.buf t.lpe.buf

/-- `ce_eq` (R37): equal key, nonce, counter, cursor, and equal unconsumed words. -/
abbrev ceEq (s t : State) : Prop :=
  s.ce.key = t.ce.key ∧ s.ce.nonce = t.ce.nonce ∧ s.ce.ctr = t.ce.ctr ∧ s.ce.cur = t.ce.cur ∧
    pendingWordsEq s.ce.cur s.ce.buf t.ce.buf

/-- Output equivalence for an engine (R38). -/
abbrev outputEquivalent (e : Engine) (s t : State) : Prop :=
  match e with
  | .lpe => lpeEq s t ∧ s.lpe.seeded = t.lpe.seeded
  | .ce => ceEq s t ∧ s.ce.seeded = t.ce.seeded ∧ s.ce.exh = t.ce.exh

end Sys2Proof.Machine
end

