-- ==== Sys2Proof/Machine/HostPort.lean ====
section
/-! DEFINITION. What the host may do between steps (60_exceptions.md R279): send words, answer an entropy
draw, assert reset. -/

namespace Sys2Proof.Machine

/-- The host sends words on the command stream (R80, R88). -/
def hostSend (ws : List Word) (s : State) : State := { s with input := s.input ++ ws }

/-- The entropy collaborator answers a draw of 128 bytes, or fails it (R12, R73). -/
def hostEntropy128 (a : Option (Vector Byte 128)) (s : State) : State :=
  { s with entropy128 := s.entropy128 ++ [a] }

/-- The entropy collaborator answers a draw of 64 bytes, or fails it (R12, R73). -/
def hostEntropy64 (a : Option (Vector Byte 64)) (s : State) : State :=
  { s with entropy64 := s.entropy64 ++ [a] }

/-- The reset event (R300): every state element at its reset value, whatever it was. A command in
progress is gone with its words and has no response (log entry 6); the collaborator is not reset. -/
def hostReset (s : State) : State :=
  { State.reset with entropy128 := s.entropy128, entropy64 := s.entropy64 }

end Sys2Proof.Machine
end

