-- ==== Sys2Proof/Safety.lean ====
section
/-! DEFINITION. What the block promises of its state and of its commands, in the terms the statements
use: the invariant of the two engine groups, which commands belong to which engine, and what a command
of one engine may not touch. -/

namespace Sys2Proof.Machine

/-- The counter law of R224: while the engine is not exhausted and the buffer holds unconsumed words,
they are of the block of the counter before `CE.CTR`, which is at least 1. -/
def ceBufferLaw (g : CeGroup) : Prop :=
  g.exh = false → g.cur < 8 → g.ctr ≠ 0 ∧ g.buf = keystreamBlock g.key g.nonce (g.ctr - 1)

/-- What exhaustion leaves for as long as it lasts (R223, R272). -/
def ceExhaustedLaw (g : CeGroup) : Prop :=
  g.exh = true → g.seeded = true ∧ g.ctr = 0 ∧ g.cur = 8 ∧ g.buf = Vector.replicate 8 0

/-- A CE that is not seeded holds nothing (R30, R39, R225). -/
def ceUnseededLaw (g : CeGroup) : Prop := g.seeded = false → g = CeGroup.cleared

/-- An LPE that is not seeded has its reset buffer and cursor (R30, R39). -/
def lpeUnseededLaw (l : LpeGroup) : Prop := l.seeded = false → l = LpeGroup.cleared

/-- The invariant of the block's state. -/
def StateInv (s : State) : Prop :=
  lpeUnseededLaw s.lpe ∧ ceUnseededLaw s.ce ∧ ceExhaustedLaw s.ce ∧ ceBufferLaw s.ce

/-- The engine commands of R170 of one engine. -/
def isEngineCommand (e : Engine) (i : Instr) : Bool :=
  match i with
  | .next f | .bulk f _ | .discard f _ | .jump f | .ljump f | .unbiased f _ _ => f == e
  | .status | .mix _ | .ctrAdv1 | .ctrAdvn _ | .ctrJump _ | .ctrEq _ | .ctrLoad _ | .ctrRead => false
  | .chacha _ _ _ | .lpeSeedEnt | .lpeSeedU64 _ | .lpeSeedSeq _ | .ceKey _ _ _ | .ceSeed64 _ => false
  | .ceSeed32 _ | .ceSeedEnt | .ceZeroize | .ceSave | .ceRestore _ _ => false

/-- The seeding commands of LPE (R204). -/
def isLpeSeeding (i : Instr) : Bool :=
  match i with
  | .ctrLoad _ | .lpeSeedEnt | .lpeSeedU64 _ | .lpeSeedSeq _ => true
  | .status | .mix _ | .ctrAdv1 | .ctrAdvn _ | .ctrJump _ | .ctrEq _ | .ctrRead => false
  | .chacha _ _ _ | .next _ | .bulk _ _ | .discard _ _ | .jump _ | .ljump _ => false
  | .ceKey _ _ _ | .ceSeed64 _ | .ceSeed32 _ | .ceSeedEnt | .ceZeroize | .ceSave => false
  | .ceRestore _ _ | .unbiased _ _ _ => false

/-- The seeding commands of CE (R30). -/
def isCeSeeding (i : Instr) : Bool :=
  match i with
  | .ceKey _ _ _ | .ceSeed64 _ | .ceSeed32 _ | .ceSeedEnt | .ceRestore _ _ => true
  | .status | .mix _ | .ctrAdv1 | .ctrAdvn _ | .ctrJump _ | .ctrEq _ | .ctrLoad _ | .ctrRead => false
  | .chacha _ _ _ | .next _ | .bulk _ _ | .discard _ _ | .jump _ | .ljump _ => false
  | .lpeSeedEnt | .lpeSeedU64 _ | .lpeSeedSeq _ | .ceZeroize | .ceSave | .unbiased _ _ _ => false

/-- The commands that read or write the counter or LPE group (the table under R20), STATUS apart, which
reads both engines. -/
def isLpeSide (i : Instr) : Bool :=
  match i with
  | .ctrAdv1 | .ctrAdvn _ | .ctrJump _ | .ctrEq _ | .ctrLoad _ | .ctrRead => true
  | .lpeSeedEnt | .lpeSeedU64 _ | .lpeSeedSeq _ => true
  | .next f | .bulk f _ | .discard f _ | .jump f | .ljump f | .unbiased f _ _ => f == .lpe
  | .status | .mix _ | .chacha _ _ _ | .ceKey _ _ _ | .ceSeed64 _ | .ceSeed32 _ | .ceSeedEnt => false
  | .ceZeroize | .ceSave | .ceRestore _ _ => false

/-- The commands that read or write the CE group (the table under R20), STATUS apart. -/
def isCeSide (i : Instr) : Bool :=
  match i with
  | .ceKey _ _ _ | .ceSeed64 _ | .ceSeed32 _ | .ceSeedEnt | .ceZeroize | .ceSave => true
  | .ceRestore _ _ => true
  | .next f | .bulk f _ | .discard f _ | .jump f | .ljump f | .unbiased f _ _ => f == .ce
  | .status | .mix _ | .ctrAdv1 | .ctrAdvn _ | .ctrJump _ | .ctrEq _ | .ctrLoad _ | .ctrRead => false
  | .chacha _ _ _ | .lpeSeedEnt | .lpeSeedU64 _ | .lpeSeedSeq _ => false

/-- `k` successive raw draws (R260): the words of `k` NEXT commands on a ready engine. -/
def drawWords (c : Cfg) (e : Engine) (k : Nat) (s : State) : Run (List Word) :=
  match k with
  | 0 => .done [] s
  | k + 1 =>
    (drawWord c e s).andThen fun w t => (drawWords c e k t).andThen fun ws u => .done (w :: ws) u

/-- Commands executed one after another, each on the state the one before left: their responses in order
and the last state; nothing if one of them does not answer a next state. -/
def runCommands (is : List Instr) (s : State) : Option (List (Option Response) × State) :=
  match is with
  | [] => some ([], s)
  | i :: is =>
    match exec i s with
    | .next t => (runCommands is t).map fun r => (t.response :: r.1, r.2)
    | .fault _ => none
    | .refused _ => none

/-- The step answers a next state: the block goes on. -/
def goesOn (s : State) : Prop := ∃ t, step s = .next t

end Sys2Proof.Machine
end

