-- ==== Sys2Proof/Certificates/Slice0/Obligations.lean ====
section
/-! DEFINITION. The statements for the provers, by unit of the spec. Next states are written out as
records over the state before, so that each statement says also what stays. Where a statement names
`input`, `response`, `entropy128` or `entropy64` it names the model's own fields, the ports of the block
(log entries 2, 3, 4). -/

open Sys2Proof Sys2Proof.Machine

/-! Encoding and fetching (30_encoding.md). -/

/-- R80 to R85: the decoder reads an encoded command back, whatever follows it in the stream. -/
def Obligations.DecodeInvertsEncode : Prop :=
  ∀ (i : Instr) (rest : List Word), decode (encode i ++ rest) = .command i (encode i).length

/-- R80 to R85: the words of a packet that decodes are the words of the command's encoding. -/
def Obligations.EncodeInvertsDecode : Prop :=
  ∀ (ws : List Word) (i : Instr) (len : Nat), decode ws = .command i len →
    ws.take len = encode i ∧ len = (encode i).length

/-- Packets written out from R81 and R84, among them those of 95_test_vectors.md V8. -/
def Obligations.WrittenOutPacketsDecode : Prop :=
  decode [0x0000000000000140] = .command (.next .ce) 1 ∧
  decode [0x0000000000000070, 1, 6] = .command (.unbiased .lpe 1 6) 3 ∧
  decode [0x0000000000000021, 2, 0x25] = .command (.ctrAdvn 2) 2 ∧
  decode [0x0000000000000060, 0x0706050403020100, 0x0F0E0D0C0B0A0908, 0x1716151413121110,
      0x1F1E1D1C1B1A1918, 0x0706050403020100, 7] =
    .command (.ceKey #v[0x0706050403020100, 0x0F0E0D0C0B0A0908, 0x1716151413121110,
      0x1F1E1D1C1B1A1918] 0x0706050403020100 7) 7 ∧
  decode [0x0000000000000201] = .illegal .reservedBits 1 ∧
  decode [0x0000000000000121, 0xDEAD] = .illegal .engineBit 2 ∧
  decode [0x00000000000001FF] = .illegal .unknownOpcode 1

/-- R87, in its four cases, and that every packet outside them is a command whatever its operands. -/
def Obligations.IllegalPacketsChangeNothing : Prop :=
  (∀ (s : State) (h : Word) (rest : List Word), s.input = h :: rest →
    (∀ row ∈ specOpcodes, h.toNat % 256 ≠ row.1) →
    step s = .next { s with input := rest, response := some ⟨.illegalCommand, []⟩ }) ∧
  (∀ (s : State) (h : Word) (ops rest : List Word) (row : Nat × Nat × Bool),
    row ∈ specOpcodes → s.input = h :: (ops ++ rest) → h.toNat % 256 = row.1 →
    ops.length = row.2.1 →
    (h.toNat / 512 ≠ 0 ∨ (h.getLsbD 8 = true ∧ row.2.2 = false)) →
    step s = .next { s with input := rest, response := some ⟨.illegalCommand, []⟩ }) ∧
  (∀ (c : Cfg) (s : State) (len : Word) (record : List Byte), c.serEn = false →
    saveCommand c s = { s with response := some ⟨.illegalCommand, []⟩ } ∧
    restoreCommand c len record s = { s with response := some ⟨.illegalCommand, []⟩ }) ∧
  (∀ (s : State) (len : Word) (record : Vector Word 9),
    exec .ceSave s = .next (saveCommand Config.cfg s) ∧
    exec (.ceRestore len record) s =
      .next (restoreCommand Config.cfg len (recordBytes record) s)) ∧
  (∀ (h : Word) (ops rest : List Word) (row : Nat × Nat × Bool),
    row ∈ specOpcodes → h.toNat % 256 = row.1 → ops.length = row.2.1 → h.toNat / 512 = 0 →
    (h.getLsbD 8 = true → row.2.2 = true) →
    ∃ i, decode (h :: (ops ++ rest)) = .command i (1 + row.2.1))

/-- R88: with no whole packet in the stream the block waits. -/
def Obligations.IncompletePacketsWait : Prop :=
  (∀ s : State, s.input = [] → step s = .next s) ∧
  (∀ (s : State) (h : Word) (ops : List Word) (row : Nat × Nat × Bool),
    row ∈ specOpcodes → s.input = h :: ops → h.toNat % 256 = row.1 → ops.length < row.2.1 →
    step s = .next s)

/-- R5, R72: a step executes the decoded command on the state; when the command has responded, its
packet's words are gone from the stream. -/
def Obligations.StepExecutesDecodedCommand : Prop :=
  ∀ (s : State) (i : Instr) (len : Nat), decode s.input = .command i len →
    step s =
      match exec i s with
      | .next t =>
        .next (match t.response with
          | none => t
          | some _ => { t with input := t.input.drop len })
      | .fault f => .fault f
      | .refused r => .refused r

/-- R65 and R63: byte q of a word list is byte q mod 8 of word q div 8, low byte first; the words that carry
a byte string in a response carry its bytes in order and zeros after them. -/
def Obligations.PackedBytesReadBack : Prop :=
  (∀ ws : List Word,
    (bytesOfWords ws).length = 8 * ws.length ∧
    ∀ (q : Nat) (h : q < 8 * ws.length),
      (bytesOfWords ws)[q]? = some (byteAt (ws[q / 8]'(by omega)) (q % 8))) ∧
  (∀ bs : List Byte,
    (packBytes bs).length = (bs.length + 7) / 8 ∧
    bytesOfWords (packBytes bs) =
      bs ++ List.replicate (8 * ((bs.length + 7) / 8) - bs.length) 0)

/-! Reset and status (10_state.md, 70_reset_and_hazards.md). -/

/-- R39. -/
def Obligations.ResetHoldsTheStatedValues : Prop :=
  State.reset.ctr = Vector.replicate 16 0 ∧
  State.reset.lpe.buf = Vector.replicate 8 0 ∧ State.reset.lpe.cur = 8 ∧
  State.reset.lpe.seeded = false ∧
  State.reset.ce.key = Vector.replicate 8 0 ∧ State.reset.ce.nonce = Vector.replicate 2 0 ∧
  State.reset.ce.ctr = 0 ∧ State.reset.ce.buf = Vector.replicate 8 0 ∧ State.reset.ce.cur = 8 ∧
  State.reset.ce.seeded = false ∧ State.reset.ce.exh = false

/-- R300 and R39: reset leaves every architectural element at its reset value, whatever it was. Three things
about the ports are the model's choice (log entry 6): the words sent so far are gone, no response stands,
and the answers the entropy collaborator has ready are kept. -/
def Obligations.HostResetRestoresArchitecturalState : Prop :=
  ∀ s : State,
    hostReset s =
      { ctr := Vector.replicate 16 0
        lpe := { buf := Vector.replicate 8 0, cur := 8, seeded := false }
        ce := { key := Vector.replicate 8 0, nonce := Vector.replicate 2 0, ctr := 0,
                buf := Vector.replicate 8 0, cur := 8, seeded := false, exh := false }
        input := [], entropy128 := s.entropy128, entropy64 := s.entropy64, response := none }

/-- R33 and R182: the bits of the word STATUS returns, in every state, and its value after reset. -/
def Obligations.StatusReturnsTheStatusWord : Prop :=
  (∀ s : State, ∃ w : Word,
    exec .status s = .next { s with response := some ⟨.ok, [w]⟩ } ∧
    w.getLsbD 0 = s.lpe.seeded ∧ w.getLsbD 1 = s.ce.seeded ∧ w.getLsbD 2 = s.ce.exh ∧
    w.getLsbD 3 = Config.cfg.serEn ∧ (w.extractLsb' 4 4).toNat = s.lpe.cur.val ∧
    (w.extractLsb' 8 4).toNat = s.ce.cur.val ∧ w.extractLsb' 12 52 = 0) ∧
  (∀ c : Cfg, statusView c State.reset = if c.serEn then 0x888 else 0x880)

/-! AvalancheMixer (40_mixer.md). -/

/-- R111 and R112: MIX returns the value of the rule's pseudocode and changes no state; it maps 0 to 0
in every configuration, and 1 to the rule's example under `CFG0`. -/
def Obligations.MixReturnsThePseudocodesValue : Prop :=
  (∀ (x : Word) (s : State),
    exec (.mix x) s = .next { s with response := some ⟨.ok, [specMix Config.cfg x]⟩ }) ∧
  (∀ (c : Cfg) (x : Word), mix c x = specMix c x) ∧
  (∀ c : Cfg, mix c 0 = 0) ∧ mix cfg0 1 = 0xFD1DA32D49354A0A

/-- R114: the mixer is a bijection exactly when every round xors two rotations. -/
def Obligations.MixBijectiveIffTwoRotations : Prop :=
  ∀ c : Cfg, Function.Bijective (mix c) ↔ ∀ r : Fin 3, (rotBOf c r).isSome = true

/-! BigCounter1024 (41_counter.md). -/

/-- R122: the carry primitive adds at its limb modulo 2^1024, and index 16 is nothing. -/
def Obligations.AddAtAddsModuloN : Prop :=
  (∀ (S : Limbs) (i : Nat) (d : Word), i < 16 →
    valLimbs (addAt S i d) = (valLimbs S + d.toNat * 2 ^ (64 * i)) % 2 ^ 1024) ∧
  (∀ (S : Limbs) (d : Word), addAt S 16 d = S)

/-- R123 to R126, R132: CTR_ADV1 adds the increment and CTR_ADVN n adds n increments, modulo 2^1024, and
neither writes anything but the counter; the advances the engines use add the same in any configuration. -/
def Obligations.CounterAdvancesAddIncrements : Prop :=
  (∀ (c : Cfg) (n : Word) (S : Limbs),
    valLimbs (advanceByOne c S) = (valLimbs S + valLimbs (incOf c)) % 2 ^ 1024 ∧
    valLimbs (advanceByScalar c n S) =
      (valLimbs S + n.toNat * valLimbs (incOf c)) % 2 ^ 1024) ∧
  (∀ s : State, ∃ S : Limbs,
    exec .ctrAdv1 s = .next { s with ctr := S, response := some ⟨.ok, []⟩ } ∧
    valLimbs S = (valLimbs s.ctr + valLimbs (incOf Config.cfg)) % 2 ^ 1024) ∧
  (∀ (n : Word) (s : State), ∃ S : Limbs,
    exec (.ctrAdvn n) s = .next { s with ctr := S, response := some ⟨.ok, []⟩ } ∧
    valLimbs S = (valLimbs s.ctr + n.toNat * valLimbs (incOf Config.cfg)) % 2 ^ 1024)

/-- R127, R128, R132: CTR_JUMP step adds val(step) increments and writes nothing but the counter; the jump
the engines use adds the same in any configuration. -/
def Obligations.CtrJumpAddsStepIncrements : Prop :=
  (∀ (c : Cfg) (stp S : Limbs),
    valLimbs (bigJump c stp S) =
      (valLimbs S + valLimbs stp * valLimbs (incOf c)) % 2 ^ 1024) ∧
  (∀ (stp : Limbs) (s : State), ∃ S : Limbs,
    exec (.ctrJump stp) s = .next { s with ctr := S, response := some ⟨.ok, []⟩ } ∧
    valLimbs S = (valLimbs s.ctr + valLimbs stp * valLimbs (incOf Config.cfg)) % 2 ^ 1024)

/-- R126: one scalar advance is n single advances, limb for limb. -/
def Obligations.ScalarAdvanceIsRepeatedAdvance : Prop :=
  ∀ (c : Cfg) (n : Word) (S : Limbs),
    advanceByScalar c n S = (advanceByOne c)^[n.toNat] S

/-- R128: a jump by zero is nothing, a jump by one low limb is a scalar advance, and two jumps are the
jump by their sum modulo 2^1024. -/
def Obligations.JumpsComposeBySum : Prop :=
  ∀ (c : Cfg) (S : Limbs),
    bigJump c (Vector.replicate 16 0) S = S ∧
    (∀ (n : Word) (stp : Limbs), stp[0] = n → (∀ i : Fin 16, i ≠ 0 → stp[i] = 0) →
      bigJump c stp S = advanceByScalar c n S) ∧
    (∀ a b d : Limbs, valLimbs d = (valLimbs a + valLimbs b) % 2 ^ 1024 →
      bigJump c b (bigJump c a S) = bigJump c d S)

/-- R24, R124: repeated single advances return to the same counter after exactly the multiples of
2^1024. -/
def Obligations.CounterPeriodIsFull : Prop :=
  ∀ (c : Cfg) (S : Limbs) (k : Nat), (advanceByOne c)^[k] S = S ↔ 2 ^ 1024 ∣ k

/-- R129, R130, R131: compare, load and read. -/
def Obligations.CounterCompareLoadRead : Prop :=
  (∀ (w : Limbs) (s : State),
    exec (.ctrEq w) s =
      .next { s with response := some ⟨.ok, [if s.ctr = w then 1 else 0]⟩ }) ∧
  (∀ (w : Limbs) (s : State),
    exec (.ctrLoad w) s =
      .next { s with
        ctr := w, lpe := { buf := s.lpe.buf, cur := 8, seeded := true },
        response := some ⟨.ok, []⟩ }) ∧
  (∀ s : State,
    exec .ctrRead s =
      .next { s with
        response := some ⟨.ok,
          [s.ctr[0], s.ctr[1], s.ctr[2], s.ctr[3], s.ctr[4], s.ctr[5], s.ctr[6], s.ctr[7],
           s.ctr[8], s.ctr[9], s.ctr[10], s.ctr[11], s.ctr[12], s.ctr[13], s.ctr[14],
           s.ctr[15]]⟩ })

/-! ChaCha20Core (42_chacha.md). -/

/-- R152: the quarter round on four different words, with the rule's sequence; the other twelve stay. -/
def Obligations.QuarterRoundFollowsItsSequence : Prop :=
  ∀ (X : ChaChaState) (a b c d : Fin 16), [a, b, c, d].Nodup →
    let a1 := X[a] + X[b]
    let d1 := specRotl32 (X[d] ^^^ a1) 16
    let c1 := X[c] + d1
    let b1 := specRotl32 (X[b] ^^^ c1) 12
    let a2 := a1 + b1
    let d2 := specRotl32 (d1 ^^^ a2) 8
    let c2 := c1 + d2
    let b2 := specRotl32 (b1 ^^^ c2) 7
    let Y := quarterRound X a b c d
    Y[a] = a2 ∧ Y[b] = b2 ∧ Y[c] = c2 ∧ Y[d] = d2 ∧
      ∀ k : Fin 16, k ∉ [a, b, c, d] → Y[k] = X[k]

/-- R153, R154: the block function is ten double rounds, each the four quarter rounds of the column round
and then those of the diagonal round, on R153's index groups, and then the initial word added to each
word. R84, R151, R155, R156, R157: CHACHA returns the words of the block of the state assembled from its
operand words, and changes no state. -/
def Obligations.ChachaReturnsTheBlock : Prop :=
  (∀ (X0 : ChaChaState) (i : Fin 16),
    let column := fun X : ChaChaState =>
      quarterRound (quarterRound (quarterRound (quarterRound X 0 4 8 12) 1 5 9 13) 2 6 10 14)
        3 7 11 15
    let diagonal := fun X : ChaChaState =>
      quarterRound (quarterRound (quarterRound (quarterRound X 0 5 10 15) 1 6 11 12) 2 7 8 13)
        3 4 9 14
    (chachaBlock X0)[i] = ((fun X => diagonal (column X))^[10] X0)[i] + X0[i]) ∧
  (∀ (key : Vector Word 4) (nonce c : Word) (s : State),
    let Y := chachaBlock
      #v[0x61707865, 0x3320646E, 0x79622D32, 0x6B206574,
         key[0].extractLsb' 0 32, key[0].extractLsb' 32 32,
         key[1].extractLsb' 0 32, key[1].extractLsb' 32 32,
         key[2].extractLsb' 0 32, key[2].extractLsb' 32 32,
         key[3].extractLsb' 0 32, key[3].extractLsb' 32 32,
         c.extractLsb' 0 32, c.extractLsb' 32 32,
         nonce.extractLsb' 0 32, nonce.extractLsb' 32 32]
    exec (.chacha key nonce c) s =
      .next { s with
        response := some ⟨.ok,
          [Y[1] ++ Y[0], Y[3] ++ Y[2], Y[5] ++ Y[4], Y[7] ++ Y[6],
           Y[9] ++ Y[8], Y[11] ++ Y[10], Y[13] ++ Y[12], Y[15] ++ Y[14]]⟩ })

/-! The engine pattern (43_engine.md) on its two engines. -/

/-- R63, R151, R155, R157, R221: word k of the keystream block that the statements on CE name is the pair of
words 2k and 2k + 1, the first one low, of the ChaCha block of the state of constants, key, counter halves
and nonce. R201: word k of the block that the statements on LPE name is the mixer's value of limb 8 + k. -/
def Obligations.RenderedBlocksAreTheRulesBlocks : Prop :=
  (∀ (key : Vector Word32 8) (nonce : Vector Word32 2) (c : Word) (k : Fin 8),
    let Y := chachaBlock
      #v[0x61707865, 0x3320646E, 0x79622D32, 0x6B206574, key[0], key[1], key[2], key[3], key[4],
         key[5], key[6], key[7], c.extractLsb' 0 32, c.extractLsb' 32 32, nonce[0], nonce[1]]
    (keystreamBlock key nonce c)[k] = Y[2 * k.val + 1] ++ Y[2 * k.val]) ∧
  (∀ (c : Cfg) (S : Limbs) (k : Fin 8), (renderLpe c S)[k] = mix c (S[8 + k.val]))

/-- R170: every command of an engine that is not seeded, and every CE command after exhaustion, faults
and changes nothing. -/
def Obligations.UnreadyEngineCommandsFault : Prop :=
  ∀ (e : Engine) (i : Instr) (s : State), isEngineCommand e i = true →
    (seededOf e s = false →
      exec i s = .next { s with response := some ⟨.notSeeded, []⟩ }) ∧
    (e = .ce → s.ce.seeded = true → s.ce.exh = true →
      exec i s = .next { s with response := some ⟨.keystreamExhausted, []⟩ })

/-- R173: with words in the buffer NEXT returns the word at the cursor and moves only the cursor. -/
def Obligations.NextDeliversTheBufferedWord : Prop :=
  (∀ (s : State) (h : s.lpe.cur.val < 8), s.lpe.seeded = true →
    exec (.next .lpe) s =
      .next { s with
        lpe := { buf := s.lpe.buf, cur := ⟨s.lpe.cur.val + 1, by omega⟩, seeded := true },
        response := some ⟨.ok, [s.lpe.buf[s.lpe.cur.val]]⟩ }) ∧
  (∀ (s : State) (h : s.ce.cur.val < 8), s.ce.seeded = true → s.ce.exh = false →
    exec (.next .ce) s =
      .next { s with
        ce := { s.ce with cur := ⟨s.ce.cur.val + 1, by omega⟩ },
        response := some ⟨.ok, [s.ce.buf[s.ce.cur.val]]⟩ })

/-- R173 with R172, R201, R221 and R223: with an empty buffer NEXT LPE advances the counter by one
increment, renders limbs 8..15 of the advanced counter, and returns word 0; NEXT CE renders with the
current counter and increments it, or, when the increment wraps, exhausts the engine and returns no
word. -/
def Obligations.NextRefillsAnEmptyBuffer : Prop :=
  (∀ s : State, s.lpe.seeded = true → s.lpe.cur = 8 → ∃ (S : Limbs) (B : Block),
    exec (.next .lpe) s =
      .next { s with
        ctr := S, lpe := { buf := B, cur := 1, seeded := true },
        response := some ⟨.ok, [B[0]]⟩ } ∧
    valLimbs S = (valLimbs s.ctr + valLimbs (incOf Config.cfg)) % 2 ^ 1024 ∧
    ∀ k : Fin 8, B[k] = mix Config.cfg (S[8 + k.val])) ∧
  (∀ s : State, s.ce.seeded = true → s.ce.exh = false → s.ce.cur = 8 →
    s.ce.ctr ≠ 0xFFFFFFFFFFFFFFFF →
    exec (.next .ce) s =
      .next { s with
        ce := { s.ce with
          buf := keystreamBlock s.ce.key s.ce.nonce s.ce.ctr, ctr := s.ce.ctr + 1, cur := 1 },
        response := some ⟨.ok, [(keystreamBlock s.ce.key s.ce.nonce s.ce.ctr)[0]]⟩ }) ∧
  (∀ s : State, s.ce.seeded = true → s.ce.exh = false → s.ce.cur = 8 →
    s.ce.ctr = 0xFFFFFFFFFFFFFFFF →
    exec (.next .ce) s =
      .next { s with
        ce := { s.ce with exh := true, ctr := 0, cur := 8, buf := Vector.replicate 8 0 },
        response := some ⟨.keystreamExhausted, []⟩ })

/-- R175 with R201: BULK LPE returns the bytes of the next ceil(n/64) blocks, cut to n, leaves the counter
that many increments on and the cursor at 8, and does not write the buffer. -/
def Obligations.BulkLpeReturnsTheNextBlocks : Prop :=
  ∀ (n : Word) (s : State), s.lpe.seeded = true → ∃ out : List Byte,
    out.length = n.toNat ∧
    (∀ (q : Nat) (h : q < out.length),
      out[q] = byteAt
        ((renderLpe Config.cfg ((advanceByOne Config.cfg)^[q / 64 + 1] s.ctr))[q % 64 / 8])
        (q % 8)) ∧
    exec (.bulk .lpe n) s =
      .next { s with
        ctr := (advanceByOne Config.cfg)^[(n.toNat + 63) / 64] s.ctr,
        lpe := { buf := s.lpe.buf, cur := 8, seeded := true },
        response := some ⟨.ok, packBytes out⟩ }

/-- R175 with R221 and R223: BULK CE returns the bytes of the blocks of the counters from CE.CTR on, cut
to n, or exhausts the engine when that many block steps wrap the counter. -/
def Obligations.BulkCeReturnsTheNextBlocks : Prop :=
  ∀ (n : Word) (s : State), s.ce.seeded = true → s.ce.exh = false →
    (s.ce.ctr.toNat + (n.toNat + 63) / 64 < 2 ^ 64 → ∃ out : List Byte,
      out.length = n.toNat ∧
      (∀ (q : Nat) (h : q < out.length),
        out[q] = byteAt
          ((keystreamBlock s.ce.key s.ce.nonce
            (s.ce.ctr + BitVec.ofNat 64 (q / 64)))[q % 64 / 8])
          (q % 8)) ∧
      exec (.bulk .ce n) s =
        .next { s with
          ce := { s.ce with ctr := s.ce.ctr + BitVec.ofNat 64 ((n.toNat + 63) / 64), cur := 8 },
          response := some ⟨.ok, packBytes out⟩ }) ∧
    (2 ^ 64 ≤ s.ce.ctr.toNat + (n.toNat + 63) / 64 →
      exec (.bulk .ce n) s =
        .next { s with
          ce := { s.ce with exh := true, ctr := 0, cur := 8, buf := Vector.replicate 8 0 },
          response := some ⟨.keystreamExhausted, []⟩ })

/-- R176, R260, R272: from an empty buffer, the bytes of a bulk fill are the first bytes of the words that
successive raw draws return, with the same counters after, and the one exhausts exactly when the others
do. The same of the commands: BULK n and ceil(n/8) successive NEXT commands on a ready engine. -/
def Obligations.BulkBytesAreNextWords : Prop :=
  (∀ (c : Cfg) (e : Engine) (n : Nat) (s : State), curOf e s = 8 →
    match bulkFill c e n s with
    | .done out t => ∃ (ws : List Word) (u : State),
        drawWords c e ((n + 7) / 8) s = .done ws u ∧ out = (bytesOfWords ws).take n ∧
        u.ctr = t.ctr ∧ u.ce.ctr = t.ce.ctr
    | .raised f t => drawWords c e ((n + 7) / 8) s = .raised f t) ∧
  (∀ (e : Engine) (n : Word) (s : State), notReady e s = none → curOf e s = 8 →
    ∃ (t u : State) (rs : List (Option Response)),
      exec (.bulk e n) s = .next t ∧
      runCommands (List.replicate ((n.toNat + 7) / 8) (.next e)) s = some (rs, u) ∧
      ((∃ ws : List Word,
          rs = ws.map (fun w => some ⟨.ok, [w]⟩) ∧
          t.response = some ⟨.ok, packBytes ((bytesOfWords ws).take n.toNat)⟩ ∧
          u.ctr = t.ctr ∧ u.ce.ctr = t.ce.ctr ∧ curOf e t = 8) ∨
        (t.response = some ⟨.keystreamExhausted, []⟩ ∧
          some ⟨.keystreamExhausted, []⟩ ∈ rs ∧ u = t)))

/-- R177 with R201 and R202: DISCARD LPE. -/
def Obligations.DiscardLpeSkipsExactly : Prop :=
  ∀ (n : Word) (s : State), s.lpe.seeded = true →
    let left := 8 - s.lpe.cur.val
    let m := n.toNat - left
    let S := (advanceByOne Config.cfg)^[m / 8] s.ctr
    exec (.discard .lpe n) s =
      .next
        (if n.toNat ≤ left then
          { s with
            lpe := { buf := s.lpe.buf, cur := Fin.ofNat 9 (s.lpe.cur.val + n.toNat),
                     seeded := true },
            response := some ⟨.ok, []⟩ }
        else if m % 8 = 0 then
          { s with
            ctr := S, lpe := { buf := s.lpe.buf, cur := 8, seeded := true },
            response := some ⟨.ok, []⟩ }
        else
          { s with
            ctr := advanceByOne Config.cfg S,
            lpe := { buf := renderLpe Config.cfg (advanceByOne Config.cfg S),
                     cur := Fin.ofNat 9 (m % 8), seeded := true },
            response := some ⟨.ok, []⟩ })

/-- R177 with R221 to R223: DISCARD CE, exhausting exactly when the block steps it stands for wrap the
counter. -/
def Obligations.DiscardCeSkipsExactly : Prop :=
  ∀ (n : Word) (s : State), s.ce.seeded = true → s.ce.exh = false →
    let left := 8 - s.ce.cur.val
    let m := n.toNat - left
    let c := s.ce.ctr + BitVec.ofNat 64 (m / 8)
    exec (.discard .ce n) s =
      .next
        (if n.toNat ≤ left then
          { s with
            ce := { s.ce with cur := Fin.ofNat 9 (s.ce.cur.val + n.toNat) },
            response := some ⟨.ok, []⟩ }
        else if 2 ^ 64 ≤ s.ce.ctr.toNat + (m + 7) / 8 then
          { s with
            ce := { s.ce with exh := true, ctr := 0, cur := 8, buf := Vector.replicate 8 0 },
            response := some ⟨.keystreamExhausted, []⟩ }
        else if m % 8 = 0 then
          { s with ce := { s.ce with ctr := c, cur := 8 }, response := some ⟨.ok, []⟩ }
        else
          { s with
            ce := { s.ce with
              ctr := c + 1, buf := keystreamBlock s.ce.key s.ce.nonce c,
              cur := Fin.ofNat 9 (m % 8) },
            response := some ⟨.ok, []⟩ })

/-- R178, R260: discarding n words and n raw draws end alike: both exhaust, in the same state, or neither
does and the states are output-equivalent for the engine. The same of the commands: DISCARD n and n
successive NEXT commands on a ready engine. -/
def Obligations.DiscardEqualsRepeatedDraws : Prop :=
  (∀ (c : Cfg) (e : Engine) (n : Word) (s : State), notReady e s = none →
    match discardWords c e n.toNat s with
    | .done _ t => ∃ (ws : List Word) (u : State),
        drawWords c e n.toNat s = .done ws u ∧ outputEquivalent e u t
    | .raised f t => drawWords c e n.toNat s = .raised f t) ∧
  (∀ (e : Engine) (n : Word) (s : State), notReady e s = none →
    ∃ (t u : State) (rs : List (Option Response)),
      exec (.discard e n) s = .next t ∧
      runCommands (List.replicate n.toNat (.next e)) s = some (rs, u) ∧
      ((t.response = some ⟨.ok, []⟩ ∧
          (∃ ws : List Word, rs = ws.map (fun w => some ⟨.ok, [w]⟩)) ∧
          outputEquivalent e u t) ∨
        (t.response = some ⟨.keystreamExhausted, []⟩ ∧
          some ⟨.keystreamExhausted, []⟩ ∈ rs ∧ u = t)))

/-- R179, R180: on CE a jump and a long jump are discards of 2^32 and 2^48 words; on LPE the counter
moves by the configured number of increments and the buffer is left empty and unwritten. -/
def Obligations.JumpsSkipTheirStride : Prop :=
  (∀ s : State,
    exec (.jump .ce) s = exec (.discard .ce 0x100000000) s ∧
    exec (.ljump .ce) s = exec (.discard .ce 0x1000000000000) s) ∧
  (∀ s : State, s.lpe.seeded = true → ∃ S : Limbs,
    exec (.jump .lpe) s =
      .next { s with
        ctr := S, lpe := { buf := s.lpe.buf, cur := 8, seeded := true },
        response := some ⟨.ok, []⟩ } ∧
    valLimbs S =
      (valLimbs s.ctr + valLimbs Config.cfg.lpeJumpStep * valLimbs (incOf Config.cfg)) %
        2 ^ 1024) ∧
  (∀ s : State, s.lpe.seeded = true → ∃ S : Limbs,
    exec (.ljump .lpe) s =
      .next { s with
        ctr := S, lpe := { buf := s.lpe.buf, cur := 8, seeded := true },
        response := some ⟨.ok, []⟩ } ∧
    valLimbs S =
      (valLimbs s.ctr + valLimbs Config.cfg.lpeLJumpStep * valLimbs (incOf Config.cfg)) %
        2 ^ 1024)

/-! LongPeriodEngine seeding (44_longperiod.md). -/

/-- R204, R205: one draw of 128 bytes; failure changes nothing, bytes become the limbs. That the answer is
taken from a list in the state is the model's choice (log entry 2). -/
def Obligations.LpeSeedEntLoadsTheDraw : Prop :=
  (∀ (s : State) (rest : List (Option (Vector Byte 128))), s.entropy128 = none :: rest →
    exec .lpeSeedEnt s =
      .next { s with entropy128 := rest, response := some ⟨.entropyFailure, []⟩ }) ∧
  (∀ (s : State) (b : Vector Byte 128) (rest : List (Option (Vector Byte 128))),
    s.entropy128 = some b :: rest → ∃ S : Limbs,
      exec .lpeSeedEnt s =
        .next { s with
          ctr := S, lpe := { buf := s.lpe.buf, cur := 8, seeded := true },
          entropy128 := rest, response := some ⟨.ok, []⟩ } ∧
      ∀ (i : Fin 16) (j : Fin 8), byteAt S[i] j.val = b[8 * i.val + j.val])

/-- R204, R206, R207: the operand, or the seed's expansion, is a jump distance from the zero counter. -/
def Obligations.LpeSeedsJumpFromZero : Prop :=
  (∀ (w : Limbs) (s : State), ∃ S : Limbs,
    exec (.lpeSeedSeq w) s =
      .next { s with
        ctr := S, lpe := { buf := s.lpe.buf, cur := 8, seeded := true },
        response := some ⟨.ok, []⟩ } ∧
    valLimbs S = valLimbs w * valLimbs (incOf Config.cfg) % 2 ^ 1024) ∧
  (∀ (seed : Word) (s : State), ∃ S W : Limbs,
    exec (.lpeSeedU64 seed) s =
      .next { s with
        ctr := S, lpe := { buf := s.lpe.buf, cur := 8, seeded := true },
        response := some ⟨.ok, []⟩ } ∧
    (∀ i : Fin 16, W[i] = Config.cfg.expand seed i) ∧
    valLimbs S = valLimbs W * valLimbs (incOf Config.cfg) % 2 ^ 1024)

/-- R316: while an entropy draw has no answer the command has not completed and no state has changed.
That the draws' answers are a list in the state is the model's choice (log entry 2). -/
def Obligations.UnansweredDrawsWait : Prop :=
  (∀ s : State, s.entropy128 = [] → exec .lpeSeedEnt s = .next { s with response := none }) ∧
  (∀ s : State, s.entropy64 = [] → exec .ceSeedEnt s = .next { s with response := none })

/-! CryptoEngine (45_crypto.md). -/

/-- R225, R226: zeroization leaves the CE group at zero, in every state, and touches nothing else. -/
def Obligations.CeZeroizeClearsTheEngine : Prop :=
  ∀ s : State,
    exec .ceZeroize s =
      .next { s with
        ce := { key := Vector.replicate 8 0, nonce := Vector.replicate 2 0, ctr := 0,
                buf := Vector.replicate 8 0, cur := 8, seeded := false, exh := false },
        response := some ⟨.ok, []⟩ }

/-- R227, R230 with R64 and R84: CE_KEY clears the engine and loads key, nonce and counter. -/
def Obligations.CeKeyLoadsItsOperands : Prop :=
  ∀ (key : Vector Word 4) (nonce c : Word) (s : State),
    ∃ (K : Vector Word32 8) (N : Vector Word32 2),
      (∀ w : Fin 4,
        K[2 * w.val] = key[w].extractLsb' 0 32 ∧ K[2 * w.val + 1] = key[w].extractLsb' 32 32) ∧
      N[0] = nonce.extractLsb' 0 32 ∧ N[1] = nonce.extractLsb' 32 32 ∧
      exec (.ceKey key nonce c) s =
        .next { s with
          ce := { key := K, nonce := N, ctr := c, buf := Vector.replicate 8 0, cur := 8,
                  seeded := true, exh := false },
          response := some ⟨.ok, []⟩ }

/-- R231, R232, R233: the block function over the raw seed words gives key and nonce; a 32-byte seed is
padded with zeros; the counter starts at 0. -/
def Obligations.CeSeedsDeriveByOnePermutation : Prop :=
  (∀ (sb : Vector Word 8) (s : State) (X0 : ChaChaState),
    (∀ w : Fin 8,
      X0[2 * w.val] = sb[w].extractLsb' 0 32 ∧ X0[2 * w.val + 1] = sb[w].extractLsb' 32 32) →
    ∃ (K : Vector Word32 8) (N : Vector Word32 2),
      (∀ i : Fin 8, K[i] = (chachaBlock X0)[i.val]) ∧
      N[0] = (chachaBlock X0)[8] ∧ N[1] = (chachaBlock X0)[9] ∧
      exec (.ceSeed64 sb) s =
        .next { s with
          ce := { key := K, nonce := N, ctr := 0, buf := Vector.replicate 8 0, cur := 8,
                  seeded := true, exh := false },
          response := some ⟨.ok, []⟩ }) ∧
  (∀ (sb : Vector Word 4) (s : State) (X0 : ChaChaState),
    (∀ w : Fin 4,
      X0[2 * w.val] = sb[w].extractLsb' 0 32 ∧ X0[2 * w.val + 1] = sb[w].extractLsb' 32 32) →
    (∀ i : Fin 8, X0[8 + i.val] = 0) →
    ∃ (K : Vector Word32 8) (N : Vector Word32 2),
      (∀ i : Fin 8, K[i] = (chachaBlock X0)[i.val]) ∧
      N[0] = (chachaBlock X0)[8] ∧ N[1] = (chachaBlock X0)[9] ∧
      exec (.ceSeed32 sb) s =
        .next { s with
          ce := { key := K, nonce := N, ctr := 0, buf := Vector.replicate 8 0, cur := 8,
                  seeded := true, exh := false },
          response := some ⟨.ok, []⟩ })

/-- R227, R234: one draw of 64 bytes, split into key, nonce and counter; on failure the state stays. That
the answer is taken from a list in the state is the model's choice (log entry 2). -/
def Obligations.CeSeedEntSplitsTheDraw : Prop :=
  (∀ (s : State) (rest : List (Option (Vector Byte 64))), s.entropy64 = none :: rest →
    exec .ceSeedEnt s =
      .next { s with entropy64 := rest, response := some ⟨.entropyFailure, []⟩ }) ∧
  (∀ (s : State) (b : Vector Byte 64) (rest : List (Option (Vector Byte 64))),
    s.entropy64 = some b :: rest →
    ∃ (K : Vector Word32 8) (N : Vector Word32 2) (c : Word),
      (∀ (i : Fin 8) (j : Fin 4), byteAt K[i] j.val = b[4 * i.val + j.val]) ∧
      (∀ (i : Fin 2) (j : Fin 4), byteAt N[i] j.val = b[32 + 4 * i.val + j.val]) ∧
      (∀ j : Fin 8, byteAt c j.val = b[40 + j.val]) ∧
      exec .ceSeedEnt s =
        .next { s with
          ce := { key := K, nonce := N, ctr := c, buf := Vector.replicate 8 0, cur := 8,
                  seeded := true, exh := false },
          entropy64 := rest, response := some ⟨.ok, []⟩ })

/-- R87(d), R170, R240, R241: the record CE_SAVE returns, byte for byte, and when it faults instead; no
state is written. -/
def Obligations.CeSaveReturnsTheRecord : Prop :=
  ∀ s : State, ∃ record : Vector Byte 65,
    (∀ j : Fin 8, record[j.val] = Config.cfg.serMagic[j]) ∧
    record[8] = Config.cfg.serVersion ∧
    (∀ (i : Fin 8) (j : Fin 4), record[9 + 4 * i.val + j.val] = byteAt s.ce.key[i] j.val) ∧
    (∀ (i : Fin 2) (j : Fin 4), record[41 + 4 * i.val + j.val] = byteAt s.ce.nonce[i] j.val) ∧
    (∀ j : Fin 8, record[49 + j.val] = byteAt s.ce.ctr j.val) ∧
    record[57].toNat = s.ce.cur.val ∧ (∀ j : Fin 7, record[58 + j.val] = 0) ∧
    exec .ceSave s =
      .next { s with
        response := some
          (if Config.cfg.serEn = false then ⟨.illegalCommand, []⟩
          else if s.ce.seeded = false then ⟨.notSeeded, []⟩
          else if s.ce.exh = true then ⟨.keystreamExhausted, []⟩
          else ⟨.ok, packBytes record.toList⟩) }

/-- R244 and R274: CE_RESTORE checks length, magic, version, cursor and rewind in that order; a fault
changes nothing; a sound record is loaded, its buffer regenerated from the counter before it. -/
def Obligations.CeRestoreChecksAndLoads : Prop :=
  ∀ (len : Word) (record : Vector Word 9) (s : State),
    ∃ (K : Vector Word32 8) (N : Vector Word32 2) (c : Word),
      (∀ (i : Fin 8) (j : Fin 4),
        byteAt K[i] j.val = recByte record ⟨9 + 4 * i.val + j.val, by omega⟩) ∧
      (∀ (i : Fin 2) (j : Fin 4),
        byteAt N[i] j.val = recByte record ⟨41 + 4 * i.val + j.val, by omega⟩) ∧
      (∀ j : Fin 8, byteAt c j.val = recByte record ⟨49 + j.val, by omega⟩) ∧
      exec (.ceRestore len record) s =
        .next
          (if Config.cfg.serEn = false then
            { s with response := some ⟨.illegalCommand, []⟩ }
          else if len.toNat < 65 then { s with response := some ⟨.truncated, []⟩ }
          else if ∃ j : Fin 8, recByte record ⟨j.val, by omega⟩ ≠ Config.cfg.serMagic[j] then
            { s with response := some ⟨.badMagic, []⟩ }
          else if recByte record 8 ≠ Config.cfg.serVersion then
            { s with response := some ⟨.badVersion, []⟩ }
          else if 8 < (recByte record 57).toNat then
            { s with response := some ⟨.badCursor, []⟩ }
          else if (recByte record 57).toNat < 8 ∧ c = 0 then
            { s with response := some ⟨.invalidRewind, []⟩ }
          else
            { s with
              ce := { key := K, nonce := N, ctr := c,
                      buf := if (recByte record 57).toNat < 8 then keystreamBlock K N (c - 1)
                        else Vector.replicate 8 0,
                      cur := Fin.ofNat 9 (recByte record 57).toNat,
                      seeded := true, exh := false },
              response := some ⟨.ok, []⟩ })

/-- R245: what CE_SAVE wrote, CE_RESTORE reads back to an engine with the same future, in any state of a
block with the same configuration; the rest of that state stays. -/
def Obligations.SaveThenRestoreIsTheSameEngine : Prop :=
  ∀ (c : Cfg) (s u : State) (p : Vector Word 9), c.serEn = true → StateInv s →
    saveCommand c s = { s with response := some ⟨.ok, p.toList⟩ } →
    ∃ g : CeGroup,
      restoreCommand c 65 (recordBytes p) u =
        { u with ce := g, response := some ⟨.ok, []⟩ } ∧
      ceEq { u with ce := g } s ∧ g.seeded = true ∧ g.exh = false

/-! UnbiasedSampler (46_sampler.md). -/

/-- R261, R262: equal bounds give that bound with no draw; the whole domain gives one raw draw; a first
draw that is not rejected gives the lower bound plus its candidate; the bounds come in either order. -/
def Obligations.UnbiasedReturnsAnAcceptedDraw : Prop :=
  ∀ (e : Engine) (lo hi : Word) (s : State), notReady e s = none →
    (lo = hi → exec (.unbiased e lo hi) s = .next { s with response := some ⟨.ok, [lo]⟩ }) ∧
    (∀ (a b w : Word) (t : State), (lo = a ∧ hi = b ∨ lo = b ∧ hi = a) → a < b →
      drawWord Config.cfg e s = .done w t →
      (rangeSize a b = 2 ^ 64 →
        exec (.unbiased e lo hi) s = .next { t with response := some ⟨.ok, [w]⟩ }) ∧
      (rangeSize a b < 2 ^ 64 → ¬ rejects (rangeSize a b) w →
        exec (.unbiased e lo hi) s =
          .next { t with
            response := some ⟨.ok, [a + BitVec.ofNat 64 (candidate (rangeSize a b) w)]⟩ }))

/-- R260: a raw draw does and returns what NEXT does. R261, R262, R264, R272: UNBIASED with bounds in either
order and a range below 2^64 ends with a value exactly when some number of raw draws is rejected and the
draw after them is not, and the value is that draw's; when a draw after rejected ones exhausts the engine,
or the one draw of the whole domain does, it faults and leaves the exhausted engine. -/
def Obligations.SamplerIsRejectionSampling : Prop :=
  (∀ (e : Engine) (lo hi : Word) (s : State),
    exec (.unbiased e lo hi) s = unbiasedCommand Config.cfg e lo hi s) ∧
  (∀ (e : Engine) (s : State), notReady e s = none →
    (∀ (w : Word) (t : State), drawWord Config.cfg e s = .done w t →
      t.response = s.response ∧
      exec (.next e) s = .next { t with response := some ⟨.ok, [w]⟩ }) ∧
    (∀ (f : FaultCode) (t : State), drawWord Config.cfg e s = .raised f t →
      t.response = s.response ∧ exec (.next e) s = .next { t with response := some ⟨f, []⟩ })) ∧
  (∀ (c : Cfg) (e : Engine) (a b lo hi : Word) (s : State), notReady e s = none → a < b →
    (lo = a ∧ hi = b ∨ lo = b ∧ hi = a) →
    (rangeSize a b < 2 ^ 64 → ∀ (p : List Word) (u : State),
      (unbiasedCommand c e lo hi s = .next u ∧ u.response = some ⟨.ok, p⟩ ↔
        ∃ (ws : List Word) (w : Word) (t : State),
          drawWords c e (ws.length + 1) s = .done (ws ++ [w]) t ∧
          (∀ v ∈ ws, rejects (rangeSize a b) v) ∧ ¬ rejects (rangeSize a b) w ∧
          p = [a + BitVec.ofNat 64 (candidate (rangeSize a b) w)] ∧
          u = { t with response := some ⟨.ok, p⟩ })) ∧
    (∀ (ws : List Word) (v t : State) (f : FaultCode),
      (rangeSize a b = 2 ^ 64 → ws = []) →
      drawWords c e ws.length s = .done ws v → (∀ x ∈ ws, rejects (rangeSize a b) x) →
      drawWord c e v = .raised f t →
      e = .ce ∧
      unbiasedCommand c e lo hi s =
        .next { s with
          ce := { s.ce with exh := true, ctr := 0, cur := 8, buf := Vector.replicate 8 0 },
          response := some ⟨.keystreamExhausted, []⟩ }))

/-- R264, R315: UNBIASED, which SamplerIsRejectionSampling says is `unbiasedCommand` of the block's
configuration, fails to answer exactly when no draw, however many are made, is accepted. So the bound on
redraws that makes it a total function (log entry 5) cuts no run short. -/
def Obligations.SamplerHangsExactlyWhenNothingIsAccepted : Prop :=
  ∀ (c : Cfg) (e : Engine) (a b lo hi : Word) (s : State), notReady e s = none → a < b →
    (lo = a ∧ hi = b ∨ lo = b ∧ hi = a) →
    (unbiasedCommand c e lo hi s = .fault .unbiasedNeverAccepts ↔
      rangeSize a b < 2 ^ 64 ∧
      ∀ k : Nat, ∃ (ws : List Word) (t : State),
        drawWords c e k s = .done ws t ∧ ∀ v ∈ ws, rejects (rangeSize a b) v)

/-- R261, R263: a value that UNBIASED returns lies between its bounds. -/
def Obligations.UnbiasedResultIsInRange : Prop :=
  ∀ (e : Engine) (lo hi : Word) (s t : State) (p : List Word),
    exec (.unbiased e lo hi) s = .next t → t.response = some ⟨.ok, p⟩ →
    ∃ r : Word, p = [r] ∧ min lo.toNat hi.toNat ≤ r.toNat ∧ r.toNat ≤ max lo.toNat hi.toNat

/-- R264: on CE the rejection loop is cut off by exhaustion, so UNBIASED CE always answers. -/
def Obligations.UnbiasedCeAlwaysAnswers : Prop :=
  ∀ (lo hi : Word) (s : State), ∃ t, exec (.unbiased .ce lo hi) s = .next t

/-- R263: for each value of the range exactly floor(2^64 / range) words are accepted with it as the
candidate. -/
def Obligations.AcceptedWordsAreEquallyMany : Prop :=
  ∀ range : Word, 2 ≤ range.toNat → ∀ r : Nat, r < range.toNat →
    Set.ncard {x : Word | ¬ lo64 (mul128 x range) < rejectBelow range ∧
      (hi64 (mul128 x range)).toNat = r} = 2 ^ 64 / range.toNat

/-! Rules about the whole machine. -/

/-- R86, R271: a response is the status word and the payload, and the ten fault codes have the numbers 0 to
9. R85, R86: every command that completes or faults has one response; a fault has no payload and a
completion the payload of its row; only the two entropy seedings can be without a response. -/
def Obligations.ResponsesHaveTheirRowsPayload : Prop :=
  (∀ r : Response, r.words = statusWord r.status :: r.payload) ∧
  (statusWord .ok = 0 ∧ statusWord .illegalCommand = 1 ∧ statusWord .notSeeded = 2 ∧
    statusWord .entropyFailure = 3 ∧ statusWord .keystreamExhausted = 4 ∧
    statusWord .badMagic = 5 ∧ statusWord .badVersion = 6 ∧ statusWord .badCursor = 7 ∧
    statusWord .truncated = 8 ∧ statusWord .invalidRewind = 9) ∧
  (∀ (i : Instr) (s t : State), exec i s = .next t →
    (t.response = none ∧ (i = .lpeSeedEnt ∨ i = .ceSeedEnt)) ∨
    ∃ r : Response, t.response = some r ∧ (statusWord r.status).toNat < 256 ∧
      (r.status ≠ .ok → r.payload = []) ∧ (r.status = .ok → r.payload.length = resultWords i))

/-- R272: after a fault the state is as before, but for exhaustion within a command. -/
def Obligations.FaultsChangeNothingButExhaustion : Prop :=
  ∀ (i : Instr) (s t : State) (r : Response), exec i s = .next t → t.response = some r →
    r.status ≠ .ok →
    t.ctr = s.ctr ∧ t.lpe = s.lpe ∧ t.input = s.input ∧
    (t.ce = s.ce ∨
      r.status = .keystreamExhausted ∧ s.ce.seeded = true ∧ s.ce.exh = false ∧
      t.ce = { s.ce with exh := true, ctr := 0, cur := 8, buf := Vector.replicate 8 0 })

/-- R264, R280, R315: the block goes on after every packet and every fault; the one command that can fail
to answer is UNBIASED on LPE. That the hang is a stop of the model is its choice (log entry 5). -/
def Obligations.BlockGoesOnButForTheSamplersHang : Prop :=
  ∀ s : State, goesOn s ∨
    ∃ (lo hi : Word) (len : Nat), decode s.input = .command (.unbiased .lpe lo hi) len ∧
      step s = .fault .unbiasedNeverAccepts

/-- The table under R20, R302: a command writes the groups of its own engine only, and no command writes
the command stream. -/
def Obligations.CommandsWriteOnlyTheirOwnEngine : Prop :=
  ∀ (i : Instr) (s t : State), exec i s = .next t →
    t.input = s.input ∧
    (isLpeSide i = false → t.ctr = s.ctr ∧ t.lpe = s.lpe ∧ t.entropy128 = s.entropy128) ∧
    (isCeSide i = false → t.ce = s.ce ∧ t.entropy64 = s.entropy64)

/-- The table under R20, R28, R302: what a command that is neither of CE nor STATUS does and answers does
not depend on the CryptoEngine, and what a command that is neither of LPE nor STATUS does and answers
does not depend on the counter and the LongPeriodEngine. -/
def Obligations.EnginesDoNotInterfere : Prop :=
  ∀ (i : Instr) (s u : State), i ≠ .status →
    (isCeSide i = false → s.ctr = u.ctr → s.lpe = u.lpe → s.entropy128 = u.entropy128 →
      match exec i s, exec i u with
      | .next s', .next u' =>
        s'.ctr = u'.ctr ∧ s'.lpe = u'.lpe ∧ s'.entropy128 = u'.entropy128 ∧
          s'.response = u'.response
      | .fault f, .fault g => f = g
      | .refused f, .refused g => f = g
      | _, _ => False) ∧
    (isLpeSide i = false → s.ce = u.ce → s.entropy64 = u.entropy64 →
      match exec i s, exec i u with
      | .next s', .next u' =>
        s'.ce = u'.ce ∧ s'.entropy64 = u'.entropy64 ∧ s'.response = u'.response
      | .fault f, .fault g => f = g
      | .refused f, .refused g => f = g
      | _, _ => False)

/-- R38: from states that are output-equivalent for an engine, a command of that engine gives the same
response and states that are output-equivalent again. -/
def Obligations.EquivalentEnginesAnswerAlike : Prop :=
  ∀ (e : Engine) (i : Instr) (s u : State), isEngineCommand e i = true →
    outputEquivalent e s u →
    match exec i s, exec i u with
    | .next s', .next u' => s'.response = u'.response ∧ outputEquivalent e s' u'
    | .fault f, .fault g => f = g
    | .refused f, .refused g => f = g
    | _, _ => False

/-- R31: exhaustion begins only in a command of CE, with the fault, and ends only by a CE seeding command
or CE_ZEROIZE. -/
def Obligations.ExhaustionIsSticky : Prop :=
  ∀ (i : Instr) (s t : State), exec i s = .next t →
    (s.ce.exh = true → t.ce.exh = false → isCeSeeding i = true ∨ i = .ceZeroize) ∧
    (s.ce.exh = false → t.ce.exh = true →
      isEngineCommand .ce i = true ∧ t.response = some ⟨.keystreamExhausted, []⟩)

/-- R30: a seeding command that succeeds sets its engine's SEEDED bit; nothing else sets it, and nothing
but CE_ZEROIZE clears one. -/
def Obligations.SeededBitsFollowSeeding : Prop :=
  ∀ (i : Instr) (s t : State) (p : List Word), exec i s = .next t →
    (t.response = some ⟨.ok, p⟩ → isLpeSeeding i = true → t.lpe.seeded = true) ∧
    (t.response = some ⟨.ok, p⟩ → isCeSeeding i = true → t.ce.seeded = true) ∧
    (t.lpe.seeded ≠ s.lpe.seeded → isLpeSeeding i = true ∧ t.lpe.seeded = true) ∧
    (t.ce.seeded ≠ s.ce.seeded →
      isCeSeeding i = true ∧ t.ce.seeded = true ∨ i = .ceZeroize ∧ t.ce.seeded = false)

/-- R29, R223, R224: no command but seeding and zeroization changes the key or the nonce of CE, and none of
the others takes its block counter back unless it leaves the engine exhausted, which sets the counter to 0
with the key kept. -/
def Obligations.BlockCounterGoesBackOnlyByExhaustion : Prop :=
  ∀ (i : Instr) (s t : State), exec i s = .next t → isCeSeeding i = false → i ≠ .ceZeroize →
    t.ce.key = s.ce.key ∧ t.ce.nonce = s.ce.nonce ∧
    (t.ce.exh = false → s.ce.ctr.toNat ≤ t.ce.ctr.toNat)

/-- R30, R39: the invariant holds after reset. -/
def Obligations.ResetMeetsTheInvariant : Prop := StateInv State.reset

/-- R30, R223, R224, R225: every step keeps the invariant: unseeded engines are clear, an exhausted CE is
as exhaustion leaves it, and unconsumed CE words are of the block before the counter. -/
def Obligations.StepKeepsTheInvariant : Prop :=
  ∀ s t : State, StateInv s → step s = .next t → StateInv t

/-- R279, R300: nothing the host does between steps breaks the invariant. -/
def Obligations.HostActionsKeepTheInvariant : Prop :=
  ∀ s : State, StateInv s →
    (∀ ws, StateInv (hostSend ws s)) ∧ (∀ a, StateInv (hostEntropy128 a s)) ∧
    (∀ a, StateInv (hostEntropy64 a s)) ∧ StateInv (hostReset s)
end

