-- ==== Sys2Proof/Laws/Codec.lean ====
section
/-! SUPPORT. The opcode map and the header word: no two rows share an opcode, and the fields of an
encoded header are what it was made from. -/

namespace Sys2Proof

/-- Different rows of the opcode map have different opcodes. -/
theorem opcodeTable_opcodes_differ : opcodeTable.Pairwise fun a b => a.opc ≠ b.opc := by decide

/-- Every opcode of the map fits the field `OPC`. -/
theorem opcodeTable_opcodes_fit : ∀ r ∈ opcodeTable, r.opc < 256 := by decide

/-- The map has the 25 commands of R85. -/
theorem opcodeTable_length : opcodeTable.length = 25 := rfl

@[simp] theorem engineOfBit_true : engineOfBit true = .ce := rfl
@[simp] theorem engineOfBit_false : engineOfBit false = .lpe := rfl

/-- The opcode of an encoded header. -/
theorem headerOpc_header (opc : Nat) (e : Engine) (h : opc < 256) :
    headerOpc (header opc e) = opc := by
  cases e <;> simp [headerOpc, header, BitVec.extractLsb'_toNat] <;> omega

/-- The `E` bit of an encoded header names its engine. -/
theorem engineOfBit_header (opc : Nat) (e : Engine) (h : opc < 256) :
    engineOfBit (headerE (header opc e)) = e := by
  have hb : opc.testBit 8 = false := Nat.testBit_lt_two_pow h
  cases e with
  | lpe => simp [headerE, header, BitVec.getLsbD_ofNat, hb, -BitVec.getLsbD_eq_getElem]
  | ce =>
    have hc : (opc + 256).testBit 8 = true := by
      rw [Nat.add_comm]
      have := Nat.testBit_two_pow_add_eq opc 8
      simpa [hb] using this
    simp [headerE, header, BitVec.getLsbD_ofNat, hc, -BitVec.getLsbD_eq_getElem]

/-- The reserved bits of an encoded header are zero. -/
theorem headerReserved_header (opc : Nat) (e : Engine) (h : opc < 256) :
    headerReserved (header opc e) = 0 := by
  apply BitVec.eq_of_toNat_eq
  cases e <;> simp [headerReserved, header, BitVec.extractLsb'_toNat, Nat.shiftRight_eq_div_pow] <;>
    omega

/-- Operand words read back as they were laid out. -/
theorem opWords_toList {n : Nat} (v : Vector Word n) (pre rest : List Word) :
    opWords n (pre ++ v.toList ++ rest) pre.length = v := by
  ext i hi
  simp [opWords, opWord, List.getD, List.getElem?_append]

end Sys2Proof
end

