-- ==== Sys2Proof/Laws/Run.lean ====
section
/-! SUPPORT. Runs of parts of a command: sequencing, settling and readiness, each said once. -/

namespace Sys2Proof.Machine

variable {α β : Type}

@[simp] theorem andThen_done (a : α) (s : State) (k : α → State → Run β) :
    (Run.done a s).andThen k = k a s := rfl

@[simp] theorem andThen_raised (f : FaultCode) (s : State) (k : α → State → Run β) :
    (Run.raised f s : Run α).andThen k = .raised f s := rfl

@[simp] theorem settle_done (p : List Word) (s : State) : (Run.done p s).settle = complete s p := rfl

@[simp] theorem settle_raised (f : FaultCode) (s : State) :
    (Run.raised f s : Run (List Word)).settle = raiseFault s f := rfl

/-- A sequence ends with a value exactly when both parts do. -/
theorem andThen_eq_done (r : Run α) (k : α → State → Run β) (b : β) (u : State) :
    r.andThen k = .done b u ↔ ∃ a t, r = .done a t ∧ k a t = .done b u := by
  cases r <;> simp

/-- A sequence raises a fault exactly when its first part does, or its second part after it. -/
theorem andThen_eq_raised (r : Run α) (k : α → State → Run β) (f : FaultCode) (u : State) :
    r.andThen k = .raised f u ↔ r = .raised f u ∨ ∃ a t, r = .done a t ∧ k a t = .raised f u := by
  cases r <;> simp

/-- Every settled command has a response. -/
theorem settle_response (r : Run (List Word)) :
    ∃ (f : FaultCode) (p : List Word) (s : State), r.settle = { s with response := some ⟨f, p⟩ } := by
  cases r with
  | done p s => exact ⟨.ok, p, s, rfl⟩
  | raised f s => exact ⟨f, [], s, rfl⟩

/-- What holds of a run: `D` of a value and its state, `R` of a fault and its state. -/
def Run.Holds (r : Run α) (D : α → State → Prop) (R : FaultCode → State → Prop) : Prop :=
  match r with
  | .done a t => D a t
  | .raised f t => R f t

/-- The rule for sequences. -/
theorem andThen_holds {r : Run α} {k : α → State → Run β} {D : α → State → Prop}
    {E : β → State → Prop} {R : FaultCode → State → Prop} (h : r.Holds D R)
    (hk : ∀ a t, D a t → (k a t).Holds E R) : (r.andThen k).Holds E R := by
  cases r with
  | done a t => exact hk a t h
  | raised f t => exact h

/-- What holds of a run holds in a weaker form. -/
theorem holds_mono {r : Run α} {D D' : α → State → Prop} {R R' : FaultCode → State → Prop}
    (h : r.Holds D R) (hd : ∀ a t, D a t → D' a t) (hr : ∀ f t, R f t → R' f t) :
    r.Holds D' R' := by
  cases r with
  | done a t => exact hd a t h
  | raised f t => exact hr f t h

/-- A command of an engine that is ready is its own rule. -/
theorem whenReady_of_ready (e : Engine) (s : State) (k : State → Run α) (h : notReady e s = none) :
    whenReady e s k = k s := by simp [whenReady, h]

/-- A command of an engine that is not ready is its fault, the state unchanged. -/
theorem whenReady_of_fault (e : Engine) (s : State) (k : State → Run α) (f : FaultCode)
    (h : notReady e s = some f) : whenReady e s k = .raised f s := by simp [whenReady, h]

/-- LPE is ready when it is seeded. -/
theorem notReady_lpe (s : State) :
    notReady .lpe s = if s.lpe.seeded then none else some .notSeeded := rfl

/-- CE is ready when it is seeded and not exhausted. -/
theorem notReady_ce_eq_none (s : State) :
    notReady .ce s = none ↔ s.ce.seeded = true ∧ s.ce.exh = false := by
  simp only [notReady]
  split <;> simp_all

end Sys2Proof.Machine
end

