-- ==== Sys2Proof/Laws/State.lean ====
section
/-! SUPPORT. One lemma per field per update of the state: what each update leaves in each field. -/

namespace Sys2Proof.Machine

@[simp] theorem complete_ctr (s : State) (p : List Word) : (complete s p).ctr = s.ctr := rfl
@[simp] theorem complete_lpe (s : State) (p : List Word) : (complete s p).lpe = s.lpe := rfl
@[simp] theorem complete_ce (s : State) (p : List Word) : (complete s p).ce = s.ce := rfl
@[simp] theorem complete_input (s : State) (p : List Word) : (complete s p).input = s.input := rfl
@[simp] theorem complete_entropy128 (s : State) (p : List Word) :
    (complete s p).entropy128 = s.entropy128 := rfl
@[simp] theorem complete_entropy64 (s : State) (p : List Word) :
    (complete s p).entropy64 = s.entropy64 := rfl
@[simp] theorem complete_response (s : State) (p : List Word) :
    (complete s p).response = some ⟨.ok, p⟩ := rfl
@[simp] theorem raiseFault_ctr (s : State) (f : FaultCode) : (raiseFault s f).ctr = s.ctr := rfl
@[simp] theorem raiseFault_lpe (s : State) (f : FaultCode) : (raiseFault s f).lpe = s.lpe := rfl
@[simp] theorem raiseFault_ce (s : State) (f : FaultCode) : (raiseFault s f).ce = s.ce := rfl
@[simp] theorem raiseFault_input (s : State) (f : FaultCode) :
    (raiseFault s f).input = s.input := rfl
@[simp] theorem raiseFault_entropy128 (s : State) (f : FaultCode) :
    (raiseFault s f).entropy128 = s.entropy128 := rfl
@[simp] theorem raiseFault_entropy64 (s : State) (f : FaultCode) :
    (raiseFault s f).entropy64 = s.entropy64 := rfl
@[simp] theorem raiseFault_response (s : State) (f : FaultCode) :
    (raiseFault s f).response = some ⟨f, []⟩ := rfl
@[simp] theorem awaitDraw_ctr (s : State) : (awaitDraw s).ctr = s.ctr := rfl
@[simp] theorem awaitDraw_lpe (s : State) : (awaitDraw s).lpe = s.lpe := rfl
@[simp] theorem awaitDraw_ce (s : State) : (awaitDraw s).ce = s.ce := rfl
@[simp] theorem awaitDraw_input (s : State) : (awaitDraw s).input = s.input := rfl
@[simp] theorem awaitDraw_entropy128 (s : State) : (awaitDraw s).entropy128 = s.entropy128 := rfl
@[simp] theorem awaitDraw_entropy64 (s : State) : (awaitDraw s).entropy64 = s.entropy64 := rfl
@[simp] theorem awaitDraw_response (s : State) : (awaitDraw s).response = none := rfl
@[simp] theorem seedLpe_ctr (s : State) (S : Limbs) : (seedLpe s S).ctr = S := rfl
@[simp] theorem seedLpe_lpe (s : State) (S : Limbs) :
    (seedLpe s S).lpe = { s.lpe with cur := 8, seeded := true } := rfl
@[simp] theorem seedLpe_ce (s : State) (S : Limbs) : (seedLpe s S).ce = s.ce := rfl
@[simp] theorem seedLpe_input (s : State) (S : Limbs) : (seedLpe s S).input = s.input := rfl
@[simp] theorem seedLpe_entropy128 (s : State) (S : Limbs) :
    (seedLpe s S).entropy128 = s.entropy128 := rfl
@[simp] theorem seedLpe_entropy64 (s : State) (S : Limbs) :
    (seedLpe s S).entropy64 = s.entropy64 := rfl
@[simp] theorem seedLpe_response (s : State) (S : Limbs) :
    (seedLpe s S).response = s.response := rfl
@[simp] theorem ceClear_ctr (s : State) : (ceClear s).ctr = s.ctr := rfl
@[simp] theorem ceClear_lpe (s : State) : (ceClear s).lpe = s.lpe := rfl
@[simp] theorem ceClear_ce (s : State) : (ceClear s).ce = CeGroup.cleared := rfl
@[simp] theorem ceClear_input (s : State) : (ceClear s).input = s.input := rfl
@[simp] theorem ceClear_entropy128 (s : State) : (ceClear s).entropy128 = s.entropy128 := rfl
@[simp] theorem ceClear_entropy64 (s : State) : (ceClear s).entropy64 = s.entropy64 := rfl
@[simp] theorem ceClear_response (s : State) : (ceClear s).response = s.response := rfl
@[simp] theorem ceLoad_ctr (s : State) (key : Vector Word32 8) (nonce : Vector Word32 2) (c : Word) :
    (ceLoad key nonce c s).ctr = s.ctr := rfl
@[simp] theorem ceLoad_lpe (s : State) (key : Vector Word32 8) (nonce : Vector Word32 2) (c : Word) :
    (ceLoad key nonce c s).lpe = s.lpe := rfl
@[simp] theorem ceLoad_ce (s : State) (key : Vector Word32 8) (nonce : Vector Word32 2) (c : Word) :
    (ceLoad key nonce c s).ce = { CeGroup.cleared with key := key, nonce := nonce, ctr := c, seeded := true } := rfl
@[simp] theorem ceLoad_input (s : State) (key : Vector Word32 8) (nonce : Vector Word32 2) (c : Word) :
    (ceLoad key nonce c s).input = s.input := rfl
@[simp] theorem ceLoad_entropy128 (s : State) (key : Vector Word32 8) (nonce : Vector Word32 2) (c : Word) :
    (ceLoad key nonce c s).entropy128 = s.entropy128 := rfl
@[simp] theorem ceLoad_entropy64 (s : State) (key : Vector Word32 8) (nonce : Vector Word32 2) (c : Word) :
    (ceLoad key nonce c s).entropy64 = s.entropy64 := rfl
@[simp] theorem ceLoad_response (s : State) (key : Vector Word32 8) (nonce : Vector Word32 2) (c : Word) :
    (ceLoad key nonce c s).response = s.response := rfl
@[simp] theorem setCur_lpe_ctr (s : State) (v : Fin 9) : (setCur .lpe s v).ctr = s.ctr := rfl
@[simp] theorem setCur_lpe_lpe (s : State) (v : Fin 9) :
    (setCur .lpe s v).lpe = { s.lpe with cur := v } := rfl
@[simp] theorem setCur_lpe_ce (s : State) (v : Fin 9) : (setCur .lpe s v).ce = s.ce := rfl
@[simp] theorem setCur_lpe_input (s : State) (v : Fin 9) : (setCur .lpe s v).input = s.input := rfl
@[simp] theorem setCur_lpe_entropy128 (s : State) (v : Fin 9) :
    (setCur .lpe s v).entropy128 = s.entropy128 := rfl
@[simp] theorem setCur_lpe_entropy64 (s : State) (v : Fin 9) :
    (setCur .lpe s v).entropy64 = s.entropy64 := rfl
@[simp] theorem setCur_lpe_response (s : State) (v : Fin 9) :
    (setCur .lpe s v).response = s.response := rfl
@[simp] theorem setCur_ce_ctr (s : State) (v : Fin 9) : (setCur .ce s v).ctr = s.ctr := rfl
@[simp] theorem setCur_ce_lpe (s : State) (v : Fin 9) : (setCur .ce s v).lpe = s.lpe := rfl
@[simp] theorem setCur_ce_ce (s : State) (v : Fin 9) :
    (setCur .ce s v).ce = { s.ce with cur := v } := rfl
@[simp] theorem setCur_ce_input (s : State) (v : Fin 9) : (setCur .ce s v).input = s.input := rfl
@[simp] theorem setCur_ce_entropy128 (s : State) (v : Fin 9) :
    (setCur .ce s v).entropy128 = s.entropy128 := rfl
@[simp] theorem setCur_ce_entropy64 (s : State) (v : Fin 9) :
    (setCur .ce s v).entropy64 = s.entropy64 := rfl
@[simp] theorem setCur_ce_response (s : State) (v : Fin 9) :
    (setCur .ce s v).response = s.response := rfl
@[simp] theorem setBuf_lpe_ctr (s : State) (b : Block) : (setBuf .lpe s b).ctr = s.ctr := rfl
@[simp] theorem setBuf_lpe_lpe (s : State) (b : Block) :
    (setBuf .lpe s b).lpe = { s.lpe with buf := b } := rfl
@[simp] theorem setBuf_lpe_ce (s : State) (b : Block) : (setBuf .lpe s b).ce = s.ce := rfl
@[simp] theorem setBuf_lpe_input (s : State) (b : Block) : (setBuf .lpe s b).input = s.input := rfl
@[simp] theorem setBuf_lpe_entropy128 (s : State) (b : Block) :
    (setBuf .lpe s b).entropy128 = s.entropy128 := rfl
@[simp] theorem setBuf_lpe_entropy64 (s : State) (b : Block) :
    (setBuf .lpe s b).entropy64 = s.entropy64 := rfl
@[simp] theorem setBuf_lpe_response (s : State) (b : Block) :
    (setBuf .lpe s b).response = s.response := rfl
@[simp] theorem setBuf_ce_ctr (s : State) (b : Block) : (setBuf .ce s b).ctr = s.ctr := rfl
@[simp] theorem setBuf_ce_lpe (s : State) (b : Block) : (setBuf .ce s b).lpe = s.lpe := rfl
@[simp] theorem setBuf_ce_ce (s : State) (b : Block) :
    (setBuf .ce s b).ce = { s.ce with buf := b } := rfl
@[simp] theorem setBuf_ce_input (s : State) (b : Block) : (setBuf .ce s b).input = s.input := rfl
@[simp] theorem setBuf_ce_entropy128 (s : State) (b : Block) :
    (setBuf .ce s b).entropy128 = s.entropy128 := rfl
@[simp] theorem setBuf_ce_entropy64 (s : State) (b : Block) :
    (setBuf .ce s b).entropy64 = s.entropy64 := rfl
@[simp] theorem setBuf_ce_response (s : State) (b : Block) :
    (setBuf .ce s b).response = s.response := rfl
@[simp] theorem hostSend_ctr (s : State) (ws : List Word) : (hostSend ws s).ctr = s.ctr := rfl
@[simp] theorem hostSend_lpe (s : State) (ws : List Word) : (hostSend ws s).lpe = s.lpe := rfl
@[simp] theorem hostSend_ce (s : State) (ws : List Word) : (hostSend ws s).ce = s.ce := rfl
@[simp] theorem hostSend_input (s : State) (ws : List Word) :
    (hostSend ws s).input = s.input ++ ws := rfl
@[simp] theorem hostSend_entropy128 (s : State) (ws : List Word) :
    (hostSend ws s).entropy128 = s.entropy128 := rfl
@[simp] theorem hostSend_entropy64 (s : State) (ws : List Word) :
    (hostSend ws s).entropy64 = s.entropy64 := rfl
@[simp] theorem hostSend_response (s : State) (ws : List Word) :
    (hostSend ws s).response = s.response := rfl
@[simp] theorem placeWords_ctr (s : State) (nbits w : Nat) :
    (placeWords s nbits w).ctr = s.ctr := rfl
@[simp] theorem placeWords_lpe (s : State) (nbits w : Nat) :
    (placeWords s nbits w).lpe = s.lpe := rfl
@[simp] theorem placeWords_ce (s : State) (nbits w : Nat) : (placeWords s nbits w).ce = s.ce := rfl
@[simp] theorem placeWords_input (s : State) (nbits w : Nat) :
    (placeWords s nbits w).input = tableWords nbits w := rfl
@[simp] theorem placeWords_entropy128 (s : State) (nbits w : Nat) :
    (placeWords s nbits w).entropy128 = s.entropy128 := rfl
@[simp] theorem placeWords_entropy64 (s : State) (nbits w : Nat) :
    (placeWords s nbits w).entropy64 = s.entropy64 := rfl
@[simp] theorem placeWords_response (s : State) (nbits w : Nat) :
    (placeWords s nbits w).response = s.response := rfl

/-! The registers of the selected engine after an update of either engine's registers. -/

@[simp] theorem curOf_setCur (e : Engine) (s : State) (v : Fin 9) : curOf e (setCur e s v) = v := by
  cases e <;> rfl

@[simp] theorem bufOf_setCur (e : Engine) (s : State) (v : Fin 9) :
    bufOf e (setCur e s v) = bufOf e s := by cases e <;> rfl

@[simp] theorem seededOf_setCur (e : Engine) (s : State) (v : Fin 9) :
    seededOf e (setCur e s v) = seededOf e s := by cases e <;> rfl

@[simp] theorem curOf_setBuf (e : Engine) (s : State) (b : Block) :
    curOf e (setBuf e s b) = curOf e s := by cases e <;> rfl

@[simp] theorem bufOf_setBuf (e : Engine) (s : State) (b : Block) : bufOf e (setBuf e s b) = b := by
  cases e <;> rfl

@[simp] theorem seededOf_setBuf (e : Engine) (s : State) (b : Block) :
    seededOf e (setBuf e s b) = seededOf e s := by cases e <;> rfl

@[simp] theorem notReady_setCur (e : Engine) (s : State) (v : Fin 9) :
    notReady e (setCur e s v) = notReady e s := by cases e <;> rfl

@[simp] theorem notReady_setBuf (e : Engine) (s : State) (b : Block) :
    notReady e (setBuf e s b) = notReady e s := by cases e <;> rfl

/-- A step takes a packet's words off the stream once its command has responded. -/
theorem retire_of_response (len : Nat) (s : State) (r : Response) (h : s.response = some r) :
    retire len s = { s with input := s.input.drop len } := by simp [retire, h]

/-- A command that waits keeps its packet. -/
theorem retire_of_waiting (len : Nat) (s : State) (h : s.response = none) : retire len s = s := by
  simp [retire, h]

end Sys2Proof.Machine
end

