-- ==== Sys2Proof/Laws/Engine.lean ====
section
/-! SUPPORT. The engine pattern's shared operations: for each, once, everything outside its own engine
that it keeps and the one way it can fault; and what a raw draw is. -/

namespace Sys2Proof.Machine

variable {α : Type}

/-- What a part of a command of an engine keeps: the ports, the other engine, and its own key, nonce and
SEEDED bit. -/
def keepsOutside (e : Engine) (s t : State) : Prop :=
  t.input = s.input ∧ t.entropy128 = s.entropy128 ∧ t.entropy64 = s.entropy64 ∧
    t.response = s.response ∧ t.lpe.seeded = s.lpe.seeded ∧
    match e with
    | .lpe => t.ce = s.ce
    | .ce => t.ctr = s.ctr ∧ t.lpe = s.lpe ∧ t.ce.key = s.ce.key ∧ t.ce.nonce = s.ce.nonce ∧
        t.ce.seeded = s.ce.seeded ∧ t.ce.exh = s.ce.exh

/-- The one fault of the hooks: exhaustion of CE, which leaves the state before but for the CE group. -/
def exhaustsFrom (e : Engine) (s : State) (f : FaultCode) (t : State) : Prop :=
  e = .ce ∧ f = .keystreamExhausted ∧ t = { s with ce := exhaustCe s.ce }

theorem keepsOutside_refl (e : Engine) (s : State) : keepsOutside e s s := by
  cases e <;> simp [keepsOutside]

theorem keepsOutside_trans {e : Engine} {s t u : State} (h : keepsOutside e s t)
    (h' : keepsOutside e t u) : keepsOutside e s u := by
  cases e <;> simp_all [keepsOutside]

theorem keepsOutside_setCur (e : Engine) (s : State) (v : Fin 9) :
    keepsOutside e s (setCur e s v) := by cases e <;> simp [keepsOutside]

theorem keepsOutside_setBuf (e : Engine) (s : State) (b : Block) :
    keepsOutside e s (setBuf e s b) := by cases e <;> simp [keepsOutside]

/-- What exhaustion leaves depends on the key, the nonce and the SEEDED bit only. -/
theorem exhaustCe_congr {g h : CeGroup} (hk : h.key = g.key) (hn : h.nonce = g.nonce)
    (hs : h.seeded = g.seeded) : exhaustCe h = exhaustCe g := by
  cases g; cases h; simp_all [exhaustCe]

/-- Exhaustion after a part that keeps what is outside is exhaustion from the state before it. -/
theorem exhaustsFrom_of_keeps {e : Engine} {s t u : State} {f : FaultCode}
    (h : keepsOutside e s t) (h' : exhaustsFrom e t f u) : exhaustsFrom e s f u := by
  obtain ⟨rfl, rfl, rfl⟩ := h'
  obtain ⟨h1, h2, h3, h4, -, h5, h6, h7, h8, h9, -⟩ := h
  refine ⟨rfl, rfl, ?_⟩
  rw [exhaustCe_congr h7 h8 h9]
  cases s; cases t; simp_all

/-- A part that keeps what is outside, in terms of the state some earlier part started from. -/
theorem holds_after {e : Engine} {s t : State} {r : Run α} (h : keepsOutside e s t)
    (hr : r.Holds (fun _ u => keepsOutside e t u) (exhaustsFrom e t)) :
    r.Holds (fun _ u => keepsOutside e s u) (exhaustsFrom e s) :=
  holds_mono hr (fun _ _ h' => keepsOutside_trans h h') (fun _ _ h' => exhaustsFrom_of_keeps h h')

theorem genBlock_holds (c : Cfg) (e : Engine) (s : State) :
    (genBlock c e s).Holds (fun _ t => keepsOutside e s t) (exhaustsFrom e s) := by
  cases e with
  | lpe => simp [genBlock, genBlockLpe, Run.Holds, keepsOutside]
  | ce =>
    simp only [genBlock, genBlockCe]
    split <;> simp [Run.Holds, exhaust, exhaustsFrom, keepsOutside]

theorem skipBlocks_holds (c : Cfg) (e : Engine) (m : Nat) (s : State) :
    (skipBlocks c e m s).Holds (fun _ t => keepsOutside e s t) (exhaustsFrom e s) := by
  cases e with
  | lpe => simp [skipBlocks, Run.Holds, keepsOutside]
  | ce =>
    simp only [skipBlocks, skipBlocksCe]
    split <;> simp [Run.Holds, exhaust, exhaustsFrom, keepsOutside]

theorem refill_holds (c : Cfg) (e : Engine) (s : State) :
    (refill c e s).Holds (fun _ t => keepsOutside e s t) (exhaustsFrom e s) :=
  andThen_holds (genBlock_holds c e s) fun _ t h =>
    keepsOutside_trans h
      (keepsOutside_trans (keepsOutside_setBuf e t _) (keepsOutside_setCur e _ _))

theorem drawWord_holds (c : Cfg) (e : Engine) (s : State) :
    (drawWord c e s).Holds (fun _ t => keepsOutside e s t) (exhaustsFrom e s) := by
  refine andThen_holds (D := fun _ t => keepsOutside e s t) ?_ fun _ t h =>
    keepsOutside_trans h (keepsOutside_setCur e t _)
  split
  · exact refill_holds c e s
  · exact keepsOutside_refl e s

theorem bulkBlocks_holds (c : Cfg) (e : Engine) (m : Nat) :
    ∀ (off : Nat) (out : List Byte) (s : State),
      (bulkBlocks c e m off out s).Holds (fun _ t => keepsOutside e s t) (exhaustsFrom e s) := by
  induction m with
  | zero => exact fun off out s => keepsOutside_refl e s
  | succ m ih =>
    exact fun off out s =>
      andThen_holds (genBlock_holds c e s) fun _ t h => holds_after h (ih _ _ t)

theorem bulkFill_holds (c : Cfg) (e : Engine) (n : Nat) (s : State) :
    (bulkFill c e n s).Holds (fun _ t => keepsOutside e s t) (exhaustsFrom e s) := by
  refine andThen_holds (bulkBlocks_holds c e _ _ _ s) fun out t h => ?_
  split
  · exact holds_after h (andThen_holds (genBlock_holds c e t) fun _ _ h' => h')
  · exact h

theorem discardWords_holds (c : Cfg) (e : Engine) (n : Nat) (s : State) :
    (discardWords c e n s).Holds (fun _ t => keepsOutside e s t) (exhaustsFrom e s) := by
  simp only [discardWords]
  split
  · exact keepsOutside_setCur e s _
  · refine holds_after (keepsOutside_setCur e s 8) ?_
    refine andThen_holds (D := fun _ t => keepsOutside e (setCur e s 8) t) ?_ fun _ t h => ?_
    · split
      · exact skipBlocks_holds c e _ _
      · exact keepsOutside_refl e _
    · split
      · exact holds_after h (andThen_holds (refill_holds c e t) fun _ u h' =>
          keepsOutside_trans h' (keepsOutside_setCur e u _))
      · exact h

theorem jumpEngine_holds (c : Cfg) (e : Engine) (long : Bool) (s : State) :
    (jumpEngine c e long s).Holds (fun _ t => keepsOutside e s t) (exhaustsFrom e s) := by
  cases e with
  | lpe => simp [jumpEngine, jumpLpe, Run.Holds, keepsOutside]
  | ce => exact discardWords_holds c .ce _ s

/-- A raw draw with words in the buffer: the word at the cursor, and the cursor one on. -/
theorem drawWord_buffered (c : Cfg) (e : Engine) (s : State) (h : (curOf e s).val < 8) :
    drawWord c e s =
      .done ((bufOf e s)[(curOf e s).val]) (setCur e s (curOf e s + 1)) := by
  have h8 : curOf e s ≠ 8 := by intro h'; rw [h'] at h; exact absurd h (by decide)
  have hm : (curOf e s).val % 8 = (curOf e s).val := Nat.mod_eq_of_lt h
  simp only [drawWord, if_neg h8, andThen_done, bufferWord, hm]

/-- A raw draw from an empty buffer: one block step, its word 0, and the cursor at 1. -/
theorem drawWord_empty (c : Cfg) (e : Engine) (s : State) (h : curOf e s = 8) :
    drawWord c e s =
      (genBlock c e s).andThen fun blk t => .done blk[0] (setCur e (setBuf e t blk) 1) := by
  simp only [drawWord, if_pos h, refill]
  cases genBlock c e s with
  | raised f t => rfl
  | done blk t => cases e <;> rfl

/-- The block step of CE renders with the current counter, and exhausts the engine at the last one. -/
theorem genBlock_ce (c : Cfg) (s : State) :
    genBlock c .ce s =
      if s.ce.ctr + 1 = 0 then .raised .keystreamExhausted { s with ce := exhaustCe s.ce }
      else .done (keystreamBlock s.ce.key s.ce.nonce s.ce.ctr)
        { s with ce := { s.ce with ctr := s.ce.ctr + 1 } } := rfl

/-- The block step of LPE advances the counter and renders the advanced one. -/
theorem genBlock_lpe (c : Cfg) (s : State) :
    genBlock c .lpe s =
      .done (renderLpe c (advanceByOne c s.ctr)) { s with ctr := advanceByOne c s.ctr } := rfl

end Sys2Proof.Machine
end

