-- ==== Sys2Proof/Laws/PerInstr.lean ====
section
/-! SUPPORT. Statements about every instruction, one lemma per constructor. -/

namespace Sys2Proof.Laws

/-- R82: the length of an instruction's packet is one of the eight lengths that occur, and at most that
of the longest packet. -/
def PacketLength.Statement (i : Instr) : Prop :=
  (encode i).length ∈ [1, 2, 3, 5, 7, 9, 11, 17] ∧ (encode i).length ≤ longestPacket

theorem PacketLength.status : PacketLength.Statement .status := by
  simp [Statement, encode, longestPacket]
theorem PacketLength.mix (x : Word) : PacketLength.Statement (.mix x) := by
  simp [Statement, encode, longestPacket]
theorem PacketLength.ctrAdv1 : PacketLength.Statement .ctrAdv1 := by
  simp [Statement, encode, longestPacket]
theorem PacketLength.ctrAdvn (n : Word) : PacketLength.Statement (.ctrAdvn n) := by
  simp [Statement, encode, longestPacket]
theorem PacketLength.ctrJump (stp : Limbs) : PacketLength.Statement (.ctrJump stp) := by
  simp [Statement, encode, longestPacket]
theorem PacketLength.ctrEq (w : Limbs) : PacketLength.Statement (.ctrEq w) := by
  simp [Statement, encode, longestPacket]
theorem PacketLength.ctrLoad (w : Limbs) : PacketLength.Statement (.ctrLoad w) := by
  simp [Statement, encode, longestPacket]
theorem PacketLength.ctrRead : PacketLength.Statement .ctrRead := by
  simp [Statement, encode, longestPacket]
theorem PacketLength.chacha (key : Vector Word 4) (nonce c : Word) :
    PacketLength.Statement (.chacha key nonce c) := by simp [Statement, encode, longestPacket]
theorem PacketLength.next (e : Engine) : PacketLength.Statement (.next e) := by
  simp [Statement, encode, longestPacket]
theorem PacketLength.bulk (e : Engine) (nBytes : Word) : PacketLength.Statement (.bulk e nBytes) := by
  simp [Statement, encode, longestPacket]
theorem PacketLength.discard (e : Engine) (n : Word) : PacketLength.Statement (.discard e n) := by
  simp [Statement, encode, longestPacket]
theorem PacketLength.jump (e : Engine) : PacketLength.Statement (.jump e) := by
  simp [Statement, encode, longestPacket]
theorem PacketLength.ljump (e : Engine) : PacketLength.Statement (.ljump e) := by
  simp [Statement, encode, longestPacket]
theorem PacketLength.lpeSeedEnt : PacketLength.Statement .lpeSeedEnt := by
  simp [Statement, encode, longestPacket]
theorem PacketLength.lpeSeedU64 (seed : Word) : PacketLength.Statement (.lpeSeedU64 seed) := by
  simp [Statement, encode, longestPacket]
theorem PacketLength.lpeSeedSeq (w : Limbs) : PacketLength.Statement (.lpeSeedSeq w) := by
  simp [Statement, encode, longestPacket]
theorem PacketLength.ceKey (key : Vector Word 4) (nonce c : Word) :
    PacketLength.Statement (.ceKey key nonce c) := by simp [Statement, encode, longestPacket]
theorem PacketLength.ceSeed64 (sb : Vector Word 8) : PacketLength.Statement (.ceSeed64 sb) := by
  simp [Statement, encode, longestPacket]
theorem PacketLength.ceSeed32 (sb : Vector Word 4) : PacketLength.Statement (.ceSeed32 sb) := by
  simp [Statement, encode, longestPacket]
theorem PacketLength.ceSeedEnt : PacketLength.Statement .ceSeedEnt := by
  simp [Statement, encode, longestPacket]
theorem PacketLength.ceZeroize : PacketLength.Statement .ceZeroize := by
  simp [Statement, encode, longestPacket]
theorem PacketLength.ceSave : PacketLength.Statement .ceSave := by
  simp [Statement, encode, longestPacket]
theorem PacketLength.ceRestore (len : Word) (record : Vector Word 9) :
    PacketLength.Statement (.ceRestore len record) := by simp [Statement, encode, longestPacket]
theorem PacketLength.unbiased (e : Engine) (lo hi : Word) :
    PacketLength.Statement (.unbiased e lo hi) := by simp [Statement, encode, longestPacket]

end Sys2Proof.Laws
end

