-- ==== Sys2Proof/Laws/Sampler.lean ====
section
/-! SUPPORT. The sampler's loop, said once; and that its hang is real: a configuration whose mixer sends
every word to 0 meets R8 and never lets a range that does not divide 2^64 be sampled. -/

namespace Sys2Proof.Machine

/-- The product of a draw keeps and faults as the draw does. -/
theorem drawProduct_holds (c : Cfg) (e : Engine) (range : Word) (s : State) :
    (drawProduct c e range s).Holds (fun _ t => keepsOutside e s t) (exhaustsFrom e s) :=
  andThen_holds (drawWord_holds c e s) fun _ _ h => h

/-- Whatever the loop answers keeps and faults as its draws do, and a value it answers with is not below
the threshold. -/
theorem redraw_holds (c : Cfg) (e : Engine) (range threshold : Word) (fuel : Nat) :
    ∀ (m : BitVec 128) (s : State) (r : Run (BitVec 128)),
      redraw c e range threshold fuel m s = some r →
      r.Holds (fun p t => keepsOutside e s t ∧ ¬ lo64 p < threshold) (exhaustsFrom e s) := by
  induction fuel with
  | zero =>
    intro m s r h
    simp only [redraw] at h
    split at h
    · cases h
    · cases h; exact ⟨keepsOutside_refl e s, ‹_›⟩
  | succ fuel ih =>
    intro m s r h
    simp only [redraw] at h
    split at h
    · have hp := drawProduct_holds c e range s
      cases hd : drawProduct c e range s with
      | raised f t => rw [hd] at h hp; cases h; exact hp
      | done p t =>
        rw [hd] at h hp
        exact holds_mono (ih p t r h)
          (fun _ _ h' => ⟨keepsOutside_trans hp h'.1, h'.2⟩)
          (fun _ _ h' => exhaustsFrom_of_keeps hp h')
    · cases h; exact ⟨keepsOutside_refl e s, ‹_›⟩

/-- A configuration within R8's constraints whose every round is `y ^ y`. -/
def zeroMixer : Cfg :=
  { (default : Cfg) with rotA := Vector.replicate 3 0, rotB := Vector.replicate 3 none }

theorem zeroMixer_mix (x : Word) : mix zeroMixer x = 0 := by
  have h : ∀ (r : Fin 3) (y : Word), mixRound zeroMixer r y = 0 := by
    intro r y
    have hb : rotBOf zeroMixer r = none := by
      simp [rotBOf, zeroMixer]
    have ha : rotAOf zeroMixer r = 0 := by
      simp [rotAOf, zeroMixer]
    have h0 : ∀ z : Word, z.rotateLeft 0 = z := by
      intro z
      have h64 : z >>> 64 = 0 := BitVec.ushiftRight_eq_zero (by decide)
      simp [BitVec.rotateLeft, BitVec.rotateLeftAux, h64]
    simp [mixRound, hb, ha, rotl64, h0]
  simp [mix, h, mixFinal]

/-- Under it a draw from a buffer of zeros is 0 and leaves a buffer of zeros. -/
theorem zeroMixer_draw (s : State) (h : s.lpe.buf = Vector.replicate 8 0) :
    ∃ t, drawWord zeroMixer .lpe s = .done 0 t ∧ t.lpe.buf = Vector.replicate 8 0 := by
  by_cases h8 : curOf .lpe s = 8
  · have hr : ∀ S, renderLpe zeroMixer S = Vector.replicate 8 0 := by
      intro S
      ext i hi
      simp [renderLpe, zeroMixer_mix]
    rw [drawWord_empty _ _ _ h8, genBlock_lpe, hr]
    exact ⟨_, by rfl, rfl⟩
  · have hlt : (curOf .lpe s).val < 8 := by
      have h9 := (curOf .lpe s).isLt
      have hne : (curOf .lpe s).val ≠ 8 := fun h' => h8 (Fin.ext h')
      omega
    have hw : (bufOf .lpe s)[(curOf .lpe s).val] = 0 := by simp [bufOf, h]
    refine ⟨setCur .lpe s (curOf .lpe s + 1), ?_, h⟩
    rw [drawWord_buffered _ _ _ hlt, hw]

/-- Under it no number of draws is ever enough: an UNBIASED whose first draw, 0, is rejected hangs. -/
theorem zeroMixer_redraw (range threshold : Word) (h0 : 0 < threshold) (fuel : Nat) :
    ∀ s : State, s.lpe.buf = Vector.replicate 8 0 →
      redraw zeroMixer .lpe range threshold fuel 0 s = none := by
  have hl : lo64 0 < threshold := h0
  have hm : mul128 0 range = 0 := by simp [mul128]
  induction fuel with
  | zero => intro s _; simp only [redraw, if_pos hl]
  | succ fuel ih =>
    intro s hs
    obtain ⟨t, ht, hb⟩ := zeroMixer_draw s hs
    simp only [redraw, if_pos hl, drawProduct, ht, andThen_done, hm]
    exact ih t hb

/-- The hang is reachable: UNBIASED LPE, 1, 6 on the seeded engine of that configuration. -/
theorem zeroMixer_hangs (s : State) (hs : s.lpe.buf = Vector.replicate 8 0)
    (hr : s.lpe.seeded = true) :
    unbiasedCommand zeroMixer .lpe 1 6 s = .fault .unbiasedNeverAccepts := by
  obtain ⟨t, ht, hb⟩ := zeroMixer_draw s hs
  have hm : ∀ range, mul128 0 range = 0 := by simp [mul128]
  have h6 : redraw zeroMixer .lpe 6 (rejectBelow 6) redrawBound 0 t = none :=
    zeroMixer_redraw 6 (rejectBelow 6) (by decide) redrawBound t hb
  have hp : drawProduct zeroMixer .lpe 6 s = .done 0 t := by
    simp only [drawProduct, ht, andThen_done, hm]
  have hn : notReady .lpe s = none := by simp [notReady_lpe, hr]
  have ha : acceptedProduct zeroMixer .lpe 6 s = none := by
    have h0 : lo64 0 < (6 : Word) := by decide
    simp only [acceptedProduct, hp, if_pos h0, h6]
  have h1 : sample zeroMixer .lpe 1 6 s = none := by
    have hgt : ¬ ((1 : Word) > 6) := by decide
    have hne : ¬ ((1 : Word) = 6) := by decide
    have hrange : (6 : Word) - 1 + 1 = 6 := by decide
    have h60 : ¬ ((6 : Word) = 0) := by decide
    simp only [sample, hn, if_neg hgt, sampleOrdered, if_neg hne, hrange, if_neg h60, ha,
      Option.map_none]
  simp only [unbiasedCommand, h1]

end Sys2Proof.Machine
end

