-- ==== Sys2Proof/Machine/Assembler.lean ====
section
/-! DEFINITION. The spelling of commands in the spec's examples (30_encoding.md R91): mnemonic, engine,
operands. There is no toolchain for this block; nothing in the machine depends on this file. -/

namespace Sys2Proof.Machine

/-- A hexadecimal numeral of a word. -/
def asmWord (w : Word) : String := "0x" ++ String.ofList (Nat.toDigits 16 w.toNat)

/-- Two hexadecimal digits of a byte. -/
def asmByte (b : Byte) : String :=
  String.ofList [Nat.digitChar (b.toNat / 16), Nat.digitChar (b.toNat % 16)]

/-- A byte string, byte 0 first. -/
def asmBytes (bs : List Byte) : String := "hex\"" ++ String.join (bs.map asmByte) ++ "\""

/-- A list of operands separated by commas. -/
def asmList (xs : List String) : String := ", ".intercalate xs

/-- A 1024-bit operand, limb 0 first, between braces. -/
def asmLimbs (A : Limbs) : String :=
  String.singleton (Char.ofNat 123) ++ asmList (A.toList.map asmWord)
    ++ String.singleton (Char.ofNat 125)

/-- The engine's name. -/
def asmEngine (e : Engine) : String :=
  match e with
  | .lpe => "LPE"
  | .ce => "CE"

/-- A mnemonic with its operands after it. -/
def asmCommand (mnemonic : String) (operands : List String) : String :=
  match operands with
  | [] => mnemonic
  | o :: rest => mnemonic ++ " " ++ asmList (o :: rest)

/-- The line of a command (R91). -/
def asmLine (i : Instr) : String :=
  match i with
  | .status => asmCommand "STATUS" []
  | .mix x => asmCommand "MIX" [asmWord x]
  | .ctrAdv1 => asmCommand "CTR_ADV1" []
  | .ctrAdvn n => asmCommand "CTR_ADVN" [asmWord n]
  | .ctrJump stp => asmCommand "CTR_JUMP" [asmLimbs stp]
  | .ctrEq w => asmCommand "CTR_EQ" [asmLimbs w]
  | .ctrLoad w => asmCommand "CTR_LOAD" [asmLimbs w]
  | .ctrRead => asmCommand "CTR_READ" []
  | .chacha key nonce c =>
    asmCommand "CHACHA" [asmBytes (bytesOfWords key.toList), asmBytes (leBytes nonce 8), asmWord c]
  | .next e => asmCommand "NEXT" [asmEngine e]
  | .bulk e n => asmCommand "BULK" [asmEngine e, asmWord n]
  | .discard e n => asmCommand "DISCARD" [asmEngine e, asmWord n]
  | .jump e => asmCommand "JUMP" [asmEngine e]
  | .ljump e => asmCommand "LJUMP" [asmEngine e]
  | .lpeSeedEnt => asmCommand "LPE_SEED_ENT" []
  | .lpeSeedU64 seed => asmCommand "LPE_SEED_U64" [asmWord seed]
  | .lpeSeedSeq w => asmCommand "LPE_SEED_SEQ" [asmLimbs w]
  | .ceKey key nonce c =>
    asmCommand "CE_KEY" [asmBytes (bytesOfWords key.toList), asmBytes (leBytes nonce 8), asmWord c]
  | .ceSeed64 sb => asmCommand "CE_SEED64" [asmBytes (bytesOfWords sb.toList)]
  | .ceSeed32 sb => asmCommand "CE_SEED32" [asmBytes (bytesOfWords sb.toList)]
  | .ceSeedEnt => asmCommand "CE_SEED_ENT" []
  | .ceZeroize => asmCommand "CE_ZEROIZE" []
  | .ceSave => asmCommand "CE_SAVE" []
  | .ceRestore len record =>
    asmCommand "CE_RESTORE" [asmWord len, asmBytes (bytesOfWords record.toList)]
  | .unbiased e lo hi => asmCommand "UNBIASED" [asmEngine e, asmWord lo, asmWord hi]

end Sys2Proof.Machine
end

