-- ==== Sys2Proof/Tests/Slice0.lean ====
section
/-! SUPPORT. Tests. Expected values are those of 95_test_vectors.md (cited V<n>) or written out from a
rule; the last part shows, for each statement with hypotheses, values that meet them. -/

-- Tests are elaborated one after another: each waits for the kernel, and many waiting at once take
-- a thread and its stack each.
set_option Elab.async false

namespace Sys2Proof.Tests

open Sys2Proof.Machine

/-! Small states. -/

/-- Sixteen limbs from their lowest ones; the others are zero. -/
def limbs (ws : List Word) : Limbs := Vector.ofFn fun i : Fin 16 => ws.getD i.val 0

/-- All sixteen limbs equal. -/
def allLimbs (w : Word) : Limbs := Vector.replicate 16 w

/-- A block whose first words are given. -/
def block (ws : List Word) : Block := Vector.ofFn fun i : Fin 8 => ws.getD i.val 0

/-- A seeded LPE after reset. -/
def lpe (S : Limbs) (buf : Block) (cur : Fin 9) : State :=
  { State.reset with ctr := S, lpe := { buf := buf, cur := cur, seeded := true } }

/-- A seeded CE with zero key and nonce after reset. -/
def ce (ctr : Word) (buf : Block) (cur : Fin 9) : State :=
  { State.reset with ce := { CeGroup.cleared with ctr := ctr, buf := buf, cur := cur, seeded := true } }

/-- The exhausted CE of zero key and nonce. -/
def ceExhausted : State := { State.reset with ce := exhaustCe (ce 0 (block []) 8).ce }

/-- The state of V6.2: key 00..1f, nonce 00..07, eleven words drawn from counter 7 on. -/
def ceMid : State :=
  { State.reset with
    ce := { key := #v[0x03020100, 0x07060504, 0x0B0A0908, 0x0F0E0D0C, 0x13121110, 0x17161514,
              0x1B1A1918, 0x1F1E1D1C]
            nonce := #v[0x03020100, 0x07060504], ctr := 9
            buf := block [0xCBFC37D1CDE0D97C, 0x5F5CB9DB7CB4050F, 0x322A65C322168354,
              0xE2D6BC26E31F53B2, 0xFB96A14F196AF5BB, 0xC7510F115249A5D1, 0x36B864765F863334,
              0x4A44D8B364365E68]
            cur := 3, seeded := true, exh := false } }

/-- The nine record words of V6.5. -/
def recordMid : Vector Word 9 :=
  #v[0x0052455330324543, 0x0605040302010001, 0x0E0D0C0B0A090807, 0x161514131211100F,
     0x1E1D1C1B1A191817, 0x060504030201001F, 0x0000000000000907, 0x0000000000000300, 0]

/-- The first block of zero key and nonce (V3.1). -/
def zeroBlock : List Word :=
  [0x903DF1A0ADE0B876, 0x28BD8653E56A5D40, 0x1AED8DA0B819D2BD, 0xC70D778BCCEF36A8,
   0x8D4857517C5941DA, 0x374AD8B83FE02477, 0x1CA11815F4B8436A, 0x8665EEB269B687C3]

/-- The bytes 0, 1, 2, ... as entropy. -/
def countingBytes (n : Nat) : Vector Byte n := Vector.ofFn fun i : Fin n => BitVec.ofNat 8 i.val

/-- A configuration without serialization. -/
def cfgNoSer : Cfg := { cfg0 with serEn := false }

/-- A configuration whose increment is all ones. -/
def cfgOnes : Cfg := { cfg0 with incHigh := BitVec.allOnes 63, incRest := Vector.replicate 15 (BitVec.allOnes 64) }

/-- A configuration whose increment is 3. -/
def cfgThree : Cfg := { cfg0 with incHigh := 1, incRest := Vector.replicate 15 0 }

/-- Toy A of V1.3. -/
def cfgToyA : Cfg :=
  { cfg0 with
    mulHigh := Vector.replicate 4 0, rotA := #v[1, 2, 3], rotB := #v[none, none, none], shiftPred := 3 }

/-- Toy B of V1.3. -/
def cfgToyB : Cfg :=
  { cfg0 with
    mulHigh := #v[1, 2, 3, 4], rotA := #v[1, 2, 3], rotB := #v[some 8, some 16, none], shiftPred := 31 }

/-- The next state of an outcome. -/
def nextOf (o : Host.Outcome State Fault Refusal) : Option State :=
  match o with
  | .next t => some t
  | .fault _ => none
  | .refused _ => none

/-- The words of the last response. -/
def answer (s : State) : List Word :=
  match s.response with
  | none => []
  | some r => r.words

/-! WellFormed: the check refuses what R87(d) makes illegal, and nothing else. -/

theorem test_wellFormed_refuses_save : Instr.wellFormed cfgNoSer .ceSave = false := by decide
theorem test_wellFormed_refuses_restore :
    Instr.wellFormed cfgNoSer (.ceRestore 65 recordMid) = false := by decide
theorem test_wellFormed_accepts_save : Instr.wellFormed cfg0 .ceSave = true := by decide
theorem test_wellFormed_accepts_others : Instr.wellFormed cfgNoSer .ceZeroize = true := by decide

/-! Decoding: one packet of each command, the header from R81 and R85, the operands from R84. -/

theorem test_decode_status : decode [0x01] = .command .status 1 := by decide +kernel
theorem test_decode_mix : decode [0x10, 0xAB] = .command (.mix 0xAB) 2 := by decide +kernel
theorem test_decode_ctrAdv1 : decode [0x20, 9] = .command .ctrAdv1 1 := by decide +kernel
theorem test_decode_ctrAdvn : decode [0x21, 5, 9] = .command (.ctrAdvn 5) 2 := by decide +kernel
theorem test_decode_ctrJump :
    decode [0x22, 1, 2, 3, 4, 5, 6, 7, 8, 9, 10, 11, 12, 13, 14, 15, 16, 99] =
      .command (.ctrJump #v[1, 2, 3, 4, 5, 6, 7, 8, 9, 10, 11, 12, 13, 14, 15, 16]) 17 := by
  decide +kernel
theorem test_decode_ctrEq :
    decode [0x23, 1, 2, 3, 4, 5, 6, 7, 8, 9, 10, 11, 12, 13, 14, 15, 16] =
      .command (.ctrEq #v[1, 2, 3, 4, 5, 6, 7, 8, 9, 10, 11, 12, 13, 14, 15, 16]) 17 := by
  decide +kernel
theorem test_decode_ctrLoad :
    decode [0x24, 1, 2, 3, 4, 5, 6, 7, 8, 9, 10, 11, 12, 13, 14, 15, 16] =
      .command (.ctrLoad #v[1, 2, 3, 4, 5, 6, 7, 8, 9, 10, 11, 12, 13, 14, 15, 16]) 17 := by
  decide +kernel
theorem test_decode_ctrRead : decode [0x25] = .command .ctrRead 1 := by decide +kernel
theorem test_decode_chacha :
    decode [0x30, 1, 2, 3, 4, 5, 6] = .command (.chacha #v[1, 2, 3, 4] 5 6) 7 := by decide +kernel
theorem test_decode_next :
    decode [0x40] = .command (.next .lpe) 1 ∧ decode [0x140] = .command (.next .ce) 1 := by
  decide +kernel
theorem test_decode_bulk :
    decode [0x41, 70] = .command (.bulk .lpe 70) 2 ∧ decode [0x141, 70] = .command (.bulk .ce 70) 2 := by
  decide +kernel
theorem test_decode_discard :
    decode [0x42, 6] = .command (.discard .lpe 6) 2 ∧
      decode [0x142, 6] = .command (.discard .ce 6) 2 := by decide +kernel
theorem test_decode_jump :
    decode [0x43] = .command (.jump .lpe) 1 ∧ decode [0x143] = .command (.jump .ce) 1 := by
  decide +kernel
theorem test_decode_ljump :
    decode [0x44] = .command (.ljump .lpe) 1 ∧ decode [0x144] = .command (.ljump .ce) 1 := by
  decide +kernel
theorem test_decode_lpeSeedEnt : decode [0x50] = .command .lpeSeedEnt 1 := by decide +kernel
theorem test_decode_lpeSeedU64 : decode [0x51, 7] = .command (.lpeSeedU64 7) 2 := by decide +kernel
theorem test_decode_lpeSeedSeq :
    decode [0x52, 1, 2, 3, 4, 5, 6, 7, 8, 9, 10, 11, 12, 13, 14, 15, 16] =
      .command (.lpeSeedSeq #v[1, 2, 3, 4, 5, 6, 7, 8, 9, 10, 11, 12, 13, 14, 15, 16]) 17 := by
  decide +kernel
theorem test_decode_ceKey :
    decode [0x60, 1, 2, 3, 4, 5, 6] = .command (.ceKey #v[1, 2, 3, 4] 5 6) 7 := by decide +kernel
theorem test_decode_ceSeed64 :
    decode [0x61, 1, 2, 3, 4, 5, 6, 7, 8] = .command (.ceSeed64 #v[1, 2, 3, 4, 5, 6, 7, 8]) 9 := by
  decide +kernel
theorem test_decode_ceSeed32 :
    decode [0x62, 1, 2, 3, 4] = .command (.ceSeed32 #v[1, 2, 3, 4]) 5 := by decide +kernel
theorem test_decode_ceSeedEnt : decode [0x63] = .command .ceSeedEnt 1 := by decide +kernel
theorem test_decode_ceZeroize : decode [0x64] = .command .ceZeroize 1 := by decide +kernel
theorem test_decode_ceSave : decode [0x65] = .command .ceSave 1 := by decide +kernel
theorem test_decode_ceRestore :
    decode [0x66, 65, 1, 2, 3, 4, 5, 6, 7, 8, 9] =
      .command (.ceRestore 65 #v[1, 2, 3, 4, 5, 6, 7, 8, 9]) 11 := by decide +kernel
theorem test_decode_unbiased :
    decode [0x70, 1, 6] = .command (.unbiased .lpe 1 6) 3 ∧
      decode [0x170, 1, 6] = .command (.unbiased .ce 1 6) 3 := by decide +kernel

/-- The illegal headers of V8 and their lengths. -/
theorem test_decode_illegal :
    decode [0] = .illegal .unknownOpcode 1 ∧ decode [0xFF] = .illegal .unknownOpcode 1 ∧
    decode [0x02] = .illegal .unknownOpcode 1 ∧ decode [0x45] = .illegal .unknownOpcode 1 ∧
    decode [0x1FF] = .illegal .unknownOpcode 1 ∧ decode [0x120] = .illegal .engineBit 1 ∧
    decode [0x121, 2] = .illegal .engineBit 2 ∧ decode [0x165] = .illegal .engineBit 1 ∧
    decode (0x152 :: List.replicate 16 5) = .illegal .engineBit 17 ∧
    decode [0x201] = .illegal .reservedBits 1 ∧
    decode [0x8000000000000040] = .illegal .reservedBits 1 := by decide +kernel

/-- A packet whose rest has not arrived (V8). -/
theorem test_decode_incomplete : decode (0x22 :: List.replicate 10 0) = .incomplete := by
  decide +kernel

/-- The opcode map of the decoder is that of R85. -/
theorem test_opcode_map :
    opcodeTable.map (fun r => (r.opc, r.operandWords, r.engineSelect)) = specOpcodes := by decide

/-- Encoding (V6.2's packet; P2's UNBIASED). -/
theorem test_encode :
    encode (.ceKey #v[0x0706050403020100, 0x0F0E0D0C0B0A0908, 0x1716151413121110,
        0x1F1E1D1C1B1A1918] 0x0706050403020100 7) =
      [0x60, 0x0706050403020100, 0x0F0E0D0C0B0A0908, 0x1716151413121110, 0x1F1E1D1C1B1A1918,
        0x0706050403020100, 7] ∧
    encode (.unbiased .ce 1 6) = [0x170, 1, 6] := by decide +kernel

/-- R92. -/
theorem test_pseudo_commands :
    encode pseudoCtrClear = 0x24 :: List.replicate 16 0 ∧
    encode (pseudoCeRestore #v[1, 2, 3, 4, 5, 6, 7, 8] 9) = [0x66, 65, 1, 2, 3, 4, 5, 6, 7, 8, 9] := by
  decide +kernel

/-- R91: a command as the programs of 95_test_vectors.md write it. -/
theorem test_asmLine : asmLine (.bulk .lpe 12) = "BULK LPE, 0xc" := by decide +kernel

/-! Steps. -/

/-- From reset every row of the opcode map steps to a next state, its operand words zero. -/
theorem test_step_runs_every_row :
    ∀ r ∈ specOpcodes, (nextOf (step (State.reset.withFetchWord 64 r.1))).isSome = true := by
  decide +kernel

/-- P5: an illegal packet is answered with status 1 and dropped, the words after it stay. -/
theorem test_step_illegal :
    step { State.reset with input := [0x121, 0xDEAD, 0x140] } =
      .next { State.reset with input := [0x140], response := some ⟨.illegalCommand, []⟩ } := rfl

/-- P1, P3: a command is decoded, executed and its packet consumed; NEXT CE after reset answers 2. -/
theorem test_step_command :
    (nextOf (step { State.reset with input := [0x20, 0x40] })).map State.input = some [0x40] ∧
    (nextOf (step { State.reset with input := [0x140, 0x40] })).map answer = some [2] := by
  decide +kernel

/-- R271: the ten codes as response words. -/
theorem test_fault_numbers :
    [FaultCode.ok, .illegalCommand, .notSeeded, .entropyFailure, .keystreamExhausted, .badMagic,
      .badVersion, .badCursor, .truncated, .invalidRewind].map statusWord =
      [0, 1, 2, 3, 4, 5, 6, 7, 8, 9] := by decide

/-! STATUS. -/

/-- V4.6. -/
theorem test_status :
    statusView cfg0 State.reset = 0x888 ∧ statusView cfgNoSer State.reset = 0x880 ∧
    statusView cfg0 ceMid = 0x38A ∧ statusView cfg0 (lpe (limbs []) (block []) 1) = 0x819 ∧
    statusView cfg0 ceExhausted = 0x88E := by decide +kernel

/-! MIX. -/

/-- V1.1. -/
theorem test_mix :
    mix cfg0 2 = 0x02052BBC880A97E3 ∧ mix cfg0 0x8000000000000000 = 0x9AF69C7F1E5C5234 ∧
    mix cfg0 0xDEADBEEFCAFEF00D = 0x8F5E0270F6DED3BF := by decide +kernel

/-- V1.3: rounds with one rotation. -/
theorem test_mix_one_rotation :
    mix cfgToyA 1 = 0x70 ∧ mix cfgToyA 0xFFFFFFFFFFFFFFFF = 0 ∧
    mix cfgToyB 1 = 0x1C45CC84D7 ∧ mix cfgToyB 0xFFFFFFFFFFFFFFFF = 0x15FE64A639 := by decide +kernel

/-! The counter. -/

/-- V2.1: the increment of `CFG0` is a mixer chain from its limb 0. -/
theorem test_increment :
    (incOf cfg0)[0] = 0x9E3779B97F4A7C15 ∧
    ∀ i : Fin 15, (incOf cfg0)[i.val + 1] = mix cfg0 ((incOf cfg0)[i.val]) := by decide +kernel

/-- V2.2, cases a to h. -/
theorem test_addAt :
    addAt (limbs [0xFFFFFFFFFFFFFFFF]) 0 1 = limbs [0, 1] ∧
    addAt (allLimbs 0xFFFFFFFFFFFFFFFF) 0 1 = allLimbs 0 ∧
    addAt (limbs [0xFFFFFFFFFFFFFFFF, 0xFFFFFFFFFFFFFFFF, 0xFFFFFFFFFFFFFFFF, 5]) 0 2 =
      limbs [1, 0, 0, 6] ∧
    addAt ((allLimbs 0).set 15 0xFFFFFFFFFFFFFFFF) 15 3 = (allLimbs 0).set 15 2 ∧
    addAt (allLimbs 7) 16 9 = allLimbs 7 ∧
    addAt (limbs [0, 0xFFFFFFFFFFFFFFFF, 0xFFFFFFFFFFFFFFFF]) 1 1 = limbs [0, 0, 0, 1] ∧
    addAt (limbs [0x8000000000000000]) 0 0x8000000000000000 = limbs [0, 1] ∧
    addAt (limbs [5]) 0 0 = limbs [5] := by decide +kernel

/-- V2.3. -/
theorem test_ctrAdv1 :
    advanceByOne cfg0 (allLimbs 0xFFFFFFFFFFFFFFFF) = (incOf cfg0).set 0 0x9E3779B97F4A7C14 ∧
    advanceByOne cfgOnes (limbs [1]) = limbs [] := by decide +kernel

/-- V2.4: the two toy increments. -/
theorem test_ctrAdvn :
    advanceByScalar cfgThree 0x8000000000000000 (limbs []) = limbs [0x8000000000000000, 1] ∧
    advanceByScalar cfgOnes 0xFFFFFFFFFFFFFFFF (limbs []) =
      (allLimbs 0xFFFFFFFFFFFFFFFF).set 0 1 := by decide +kernel

/-- V2.4: `CFG0`, n = 2^63, whose products straddle two limbs. -/
theorem test_ctrAdvn_cfg0 :
    (advanceByScalar cfg0 0x8000000000000000 (limbs []))[1] = 0xCF1BBCDCBFA53E0A ∧
    (advanceByScalar cfg0 0x8000000000000000 (limbs []))[15] = 0x45395C71F61DD4B0 := by
  decide +kernel

/-- V2.5: a step of 2^960, and the maximal step. -/
theorem test_ctrJump :
    bigJump cfg0 ((allLimbs 0).set 15 1) (limbs []) = (allLimbs 0).set 15 0x9E3779B97F4A7C15 ∧
    (bigJump cfg0 (allLimbs 0xFFFFFFFFFFFFFFFF) (limbs []))[0] = 0x61C8864680B583EB ∧
    (bigJump cfg0 (allLimbs 0xFFFFFFFFFFFFFFFF) (limbs []))[15] = 0x877C834AB3FDB55D := by
  decide +kernel

/-- V2.6. -/
theorem test_ctrEq :
    exec (.ctrEq (limbs [])) State.reset =
      .next { State.reset with response := some ⟨.ok, [1]⟩ } ∧
    exec (.ctrEq ((allLimbs 0).set 15 1)) State.reset =
      .next { State.reset with response := some ⟨.ok, [0]⟩ } := by
  constructor <;> rfl

/-- V2.6: CTR_LOAD, and STATUS after it. -/
theorem test_ctrLoad :
    (nextOf (exec (.ctrLoad (limbs [7])) State.reset)).map (fun t => (t.ctr, statusView cfg0 t)) =
      some (limbs [7], 0x889) := by decide +kernel

/-- R131: limb 0 first. -/
theorem test_ctrRead :
    (nextOf (exec .ctrRead (lpe (limbs [1, 2, 3]) (block []) 8))).map answer =
      some ([0, 1, 2, 3] ++ List.replicate 13 0) := by decide +kernel

/-! ChaCha. -/

/-- V3.0. -/
theorem test_quarterRound :
    let X : ChaChaState := #v[0x11111111, 0x01020304, 0x9B8D6F43, 0x01234567, 0, 0, 0, 0, 0, 0, 0, 0,
      0, 0, 0, 0]
    quarterRound X 0 1 2 3 =
      #v[0xEA2A92F4, 0xCB1CF8CE, 0x4581472E, 0x5881C4BB, 0, 0, 0, 0, 0, 0, 0, 0, 0, 0, 0, 0] := by
  decide +kernel

/-- V3.3: the initial state, counter 2^32 + 5. -/
theorem test_chachaInit :
    chachaInit ceMid.ce.key ceMid.ce.nonce 0x100000005 =
      #v[0x61707865, 0x3320646E, 0x79622D32, 0x6B206574, 0x03020100, 0x07060504, 0x0B0A0908,
         0x0F0E0D0C, 0x13121110, 0x17161514, 0x1B1A1918, 0x1F1E1D1C, 5, 1, 0x03020100,
         0x07060504] := by decide +kernel

/-- V3.1. -/
theorem test_chacha :
    (nextOf (exec (.chacha #v[0, 0, 0, 0] 0 0) State.reset)).map answer = some (0 :: zeroBlock) := by
  decide +kernel

/-- V3.2: key 00..1f, nonce 00..07, counter 1: the first and the last word. -/
theorem test_chacha_operands :
    ((nextOf (exec (.chacha #v[0x0706050403020100, 0x0F0E0D0C0B0A0908, 0x1716151413121110,
        0x1F1E1D1C1B1A1918] 0x0706050403020100 1) State.reset)).map answer).map
        (fun ws => (ws[1]?, ws[8]?)) =
      some (some 0x9435BC269A8B0038, some 0xC731E0DF880E13F7) := by decide +kernel

/-! The engine commands. -/

/-- V4.1: NEXT LPE from counter 0 and cursor 8. -/
theorem test_next_lpe :
    let t := nextCommand cfg0 .lpe (lpe (limbs []) (block []) 8)
    answer t = [0, 0x463433E31819750E] ∧ t.lpe.cur = 1 ∧ t.ctr = incOf cfg0 := by decide +kernel

/-- V6.1 and V6.7: NEXT CE from a fresh engine, and at the last counter. -/
theorem test_next_ce :
    ((nextOf (exec (.next .ce) (ce 0 (block []) 8))).map fun t => (answer t, t.ce)) =
      some ([0, 0x903DF1A0ADE0B876], (ce 1 (block zeroBlock) 1).ce) ∧
    ((nextOf (exec (.next .ce) (ce 0xFFFFFFFFFFFFFFFF (block []) 8))).map
      fun t => (answer t, t.ce)) = some ([4], ceExhausted.ce) := by decide +kernel

/-- V4.2: 70 bytes of LPE, the buffer untouched. -/
theorem test_bulk_lpe :
    let t := bulkCommand cfg0 .lpe 70 (lpe (limbs []) (block []) 8)
    answer t =
      [0, 0x463433E31819750E, 0xBC83E2B05684E42D, 0xC056326F3C486918, 0x01C6C34B2C9C56AD,
        0x8EEB806EB605CE3B, 0x8A72B8E3EC3BA961, 0x78837CB54C024AA2, 0xEED3B5FBB33648F2,
        0x00000A2F6F078542] ∧
    t.lpe.buf = block [] ∧ t.lpe.cur = 8 ∧ t.ctr[0] = 0x3C6EF372FE94F82A := by decide +kernel

/-- V6.7: 64 bytes before the last counter, and one byte more. -/
theorem test_bulk_ce :
    ((nextOf (exec (.bulk .ce 64) (ce 0xFFFFFFFFFFFFFFFE (block []) 8))).map
      fun t => ((answer t)[1]?, t.ce.ctr)) = some (some 0xF2AA02A71F6F2283, 0xFFFFFFFFFFFFFFFF) ∧
    ((nextOf (exec (.bulk .ce 65) (ce 0xFFFFFFFFFFFFFFFE (block []) 8))).map
      fun t => (answer t, t.ce)) = some ([4], ceExhausted.ce) := by decide +kernel

/-- V4.3, rows (5, 20), (3, 5) and (0, 8). -/
theorem test_discard_lpe :
    let t := discardCommand cfg0 .lpe 20 (lpe (incOf cfg0) (block []) 5)
    t.lpe.cur = 1 ∧ t.ctr = advanceByScalar cfg0 4 (limbs []) ∧ t.lpe.buf[1] = 0xD0DD62DC2E34375F ∧
    discardCommand cfg0 .lpe 5 (lpe (incOf cfg0) (block []) 3) =
      complete (lpe (incOf cfg0) (block []) 8) [] ∧
    discardCommand cfg0 .lpe 8 (lpe (limbs []) (block []) 8) =
      complete (lpe (incOf cfg0) (block []) 8) [] := by decide +kernel

/-- V6.7 and V4.4. -/
theorem test_discard_ce :
    ((nextOf (exec (.discard .ce 16) (ce 0xFFFFFFFFFFFFFFFD (block []) 8))).map
      fun t => (answer t, t.ce)) = some ([0], (ce 0xFFFFFFFFFFFFFFFF (block []) 8).ce) ∧
    ((nextOf (exec (.discard .ce 17) (ce 0xFFFFFFFFFFFFFFFD (block []) 8))).map
      fun t => (answer t, t.ce)) = some ([4], ceExhausted.ce) ∧
    ((nextOf (exec (.discard .ce 6) (ce 1 (block zeroBlock) 3))).map
      fun t => (t.ce.ctr, t.ce.cur, t.ce.buf[1])) = some (2, 1, 0x0D082D737C97BA98) := by
  decide +kernel

/-- V4.5: LPE, the configured stride of 2^512. -/
theorem test_jump_lpe :
    let t := jumpCommand cfg0 .lpe false (lpe (incOf cfg0) (block []) 3)
    t.ctr[7] = 0xBD57B7CAA24BFDEF ∧ t.ctr[8] = 0xF8AF40A96B84DA26 ∧
    t.ctr[15] = 0x35DB347FEE4E4891 ∧ t.lpe.cur = 8 := by decide +kernel

/-- V4.5: CE, three rows. -/
theorem test_jump_ce :
    ((nextOf (exec (.jump .ce) (ce 1 (block zeroBlock) 3))).map
      fun t => (t.ce.ctr, t.ce.cur, t.ce.buf[3])) = some (0x20000001, 3, 0xDA8AE17081494DF4) ∧
    ((nextOf (exec (.jump .ce) (ce 0xFFFFFFFFDFFFFFFF (block []) 8))).map
      fun t => (answer t, t.ce.ctr)) = some ([0], 0xFFFFFFFFFFFFFFFF) ∧
    ((nextOf (exec (.jump .ce) (ce 0xFFFFFFFFE0000000 (block []) 8))).map
      fun t => (answer t, t.ce)) = some ([4], ceExhausted.ce) := by decide +kernel

/-- V4.5: LPE, the configured stride of 2^768. -/
theorem test_ljump_lpe :
    let t := jumpCommand cfg0 .lpe true (lpe (limbs []) (block []) 8)
    t.ctr[11] = 0 ∧ t.ctr[12] = 0x9E3779B97F4A7C15 ∧ t.ctr[15] = 0x94F6F0E1B8C856F4 := by
  decide +kernel

/-- V4.5. -/
theorem test_ljump_ce :
    ((nextOf (exec (.ljump .ce) (ce 0 (block []) 8))).map fun t => t.ce) =
      some (ce 0x200000000000 (block []) 8).ce := by decide +kernel

/-! LPE seeding. -/

/-- V5.3: the bytes 00..7f are limbs. -/
theorem test_lpeSeedEnt :
    ((nextOf (exec .lpeSeedEnt
        { State.reset with entropy128 := [some (countingBytes 128)] })).map
      fun t => (t.ctr[0], t.ctr[15], t.lpe.cur, t.lpe.seeded)) =
      some (0x0706050403020100, 0x7F7E7D7C7B7A7978, 8, true) := by decide +kernel

/-- V5.3: a draw that fails. -/
theorem test_lpeSeedEnt_fails :
    exec .lpeSeedEnt { State.reset with entropy128 := [none] } =
      .next { State.reset with response := some ⟨.entropyFailure, []⟩ } := rfl

/-- V5.1: seed 1 and the sequence 1..16 give one counter. -/
theorem test_lpeSeedU64 :
    let t := seedByJump cfg0 (expandSeed cfg0 1) State.reset
    t.ctr[0] = 0x9E3779B97F4A7C15 ∧ t.ctr[1] = 0xB12D6C802E544181 ∧
    t.ctr[15] = 0xA1422A8FD67E90DE := by decide +kernel

/-- V5.1, from a counter that is not zero (V5.2). -/
theorem test_lpeSeedSeq :
    let t := seedByJump cfg0 (limbs [1, 2, 3, 4, 5, 6, 7, 8, 9, 10, 11, 12, 13, 14, 15, 16])
      (lpe (limbs [7]) (block []) 3)
    t.ctr[0] = 0x9E3779B97F4A7C15 ∧ t.ctr[15] = 0xA1422A8FD67E90DE ∧ t.lpe.cur = 8 := by
  decide +kernel

/-! CE. -/

/-- V6.2: the words of key and nonce. -/
theorem test_ceKey :
    ((nextOf (exec (.ceKey #v[0x0706050403020100, 0x0F0E0D0C0B0A0908, 0x1716151413121110,
        0x1F1E1D1C1B1A1918] 0x0706050403020100 7) State.reset)).map
      fun t => (t.ce.key, t.ce.nonce, t.ce.ctr, t.ce.cur)) =
      some (ceMid.ce.key, ceMid.ce.nonce, 7, 8) := by decide +kernel

/-- V6.3. -/
theorem test_ceSeed64 :
    ((nextOf (exec (.ceSeed64 #v[0x0706050403020100, 0x0F0E0D0C0B0A0908, 0x1716151413121110,
        0x1F1E1D1C1B1A1918, 0x2726252423222120, 0x2F2E2D2C2B2A2928, 0x3736353433323130,
        0x3F3E3D3C3B3A3938]) State.reset)).map fun t => (t.ce.key, t.ce.nonce, t.ce.ctr)) =
      some (#v[0x8622215A, 0x2F4C3EFF, 0xC036013D, 0x10B46400, 0x8F279BA2, 0x76F4D3B9, 0x1C5FC52D,
        0x541BC5E5], #v[0x5EE66E8F, 0xEE0E7067], 0) := by decide +kernel

/-- V6.4. -/
theorem test_ceSeed32 :
    ((nextOf (exec (.ceSeed32 #v[0x0706050403020100, 0x0F0E0D0C0B0A0908, 0x1716151413121110,
        0x1F1E1D1C1B1A1918]) State.reset)).map fun t => (t.ce.key, t.ce.nonce, t.ce.ctr)) =
      some (#v[0xB52CB9E5, 0x02D62B81, 0x904970BF, 0xE2EBDCAB, 0xA8299706, 0x9752512B, 0x0098416F,
        0xF7A2D741], #v[0x180F89D6, 0x59087F52], 0) := by decide +kernel

/-- V6.8. -/
theorem test_ceSeedEnt :
    ((nextOf (exec .ceSeedEnt { State.reset with entropy64 := [some (countingBytes 64)] })).map
      fun t => (t.ce.key, t.ce.nonce, t.ce.ctr, t.ce.seeded, t.entropy64.length)) =
      some (ceMid.ce.key, #v[0x23222120, 0x27262524], 0x2F2E2D2C2B2A2928, true, 0) := by
  decide +kernel

/-- V6.9. -/
theorem test_ceZeroize :
    exec .ceZeroize ceMid = .next { State.reset with response := some ⟨.ok, []⟩ } ∧
    exec .ceZeroize ceExhausted = .next { State.reset with response := some ⟨.ok, []⟩ } := by
  constructor <;> rfl

/-- V6.5. -/
theorem test_ceSave :
    saveCommand cfg0 ceMid = { ceMid with response := some ⟨.ok, recordMid.toList⟩ } ∧
    answer (saveCommand cfg0 ceExhausted) = [4] ∧ answer (saveCommand cfg0 State.reset) = [2] ∧
    answer (saveCommand cfgNoSer ceMid) = [1] := by decide +kernel

/-- V6.6: a sound record. -/
theorem test_ceRestore :
    restoreCommand cfg0 65 (recordBytes recordMid) State.reset =
      { State.reset with ce := ceMid.ce, response := some ⟨.ok, []⟩ } := by decide +kernel

/-- V6.6: the records that fault, and the order of the checks. -/
theorem test_ceRestore_faults :
    let r := fun (len : Word) (record : Vector Word 9) =>
      restoreCommand cfg0 len (recordBytes record) ceMid
    r 64 recordMid = raiseFault ceMid .truncated ∧
    r 65 (recordMid.set 0 0x0152455330324543) = raiseFault ceMid .badMagic ∧
    r 65 (recordMid.set 1 0x0605040302010002) = raiseFault ceMid .badVersion ∧
    r 65 (recordMid.set 7 0x0900) = raiseFault ceMid .badCursor ∧
    r 65 (recordMid.set 6 0x07) = raiseFault ceMid .invalidRewind ∧
    r 65 ((recordMid.set 6 0x07).set 7 0xC800) = raiseFault ceMid .badCursor ∧
    r 65 ((recordMid.set 1 0x0605040302010002).set 7 0x0900) = raiseFault ceMid .badVersion ∧
    answer (r 65 ((recordMid.set 6 0x07).set 7 0x0800)) = [0] := by decide +kernel

/-! UNBIASED. -/

/-- V7: the words the engine is made to deliver stand in its buffer. -/
theorem test_unbiased :
    let draw := fun (ws : List Word) (lo hi : Word) =>
      (nextOf (exec (.unbiased .ce lo hi) (ce 1 (block ws) 0))).map fun t => (answer t, t.ce.cur)
    draw [0x8000000000000000, 0xC000000000000001] 0xA 0xF = some ([0, 0xE], 2) ∧
    draw [0x2AAAAAAAAAAAAAAB, 0x2AAAAAAAAAAAAAAC] 0xA 0xF = some ([0, 0xB], 2) ∧
    draw [0xFFFFFFFFFFFFFFFF] 0xF 0xA = some ([0, 0xF], 1) ∧
    draw [0x1234] 0xFFFFFFFFFFFFFFFF 0 = some ([0, 0x1234], 1) ∧
    draw [] 7 7 = some ([0, 7], 0) := by decide +kernel

/-- V7: the widest ranges that are not the whole domain. -/
theorem test_unbiased_wide :
    let draw := fun (ws : List Word) (lo hi : Word) =>
      (nextOf (exec (.unbiased .ce lo hi) (ce 1 (block ws) 0))).map fun t => (answer t, t.ce.cur)
    draw [0, 0xFFFFFFFFFFFFFFFF] 0 0x8000000000000000 = some ([0, 0x8000000000000000], 2) ∧
    draw [0, 1] 1 0xFFFFFFFFFFFFFFFF = some ([0, 1], 2) ∧
    draw [0x5555555555555556] 0x64 0x66 = some ([0, 0x65], 1) ∧
    draw [3] 5 0xFFFFFFFFFFFFFFFE = some ([0, 7], 1) := by decide +kernel

/-! The hypotheses of the statements: values that meet all of them together, clause by clause. -/

theorem witness_EncodeInvertsDecode :
    decode [0x66, 65, 1, 2, 3, 4, 5, 6, 7, 8, 9, 0x01] =
      .command (.ceRestore 65 #v[1, 2, 3, 4, 5, 6, 7, 8, 9]) 11 := by decide +kernel

/-- Clause 1 of IllegalPacketsChangeNothing, at the opcode after the map's first and at the last one. -/
theorem witness_IllegalPackets_opcode :
    (∀ row ∈ specOpcodes, (0x02 : Word).toNat % 256 ≠ row.1) ∧
    (∀ row ∈ specOpcodes, (0x1FF : Word).toNat % 256 ≠ row.1) ∧
    { State.reset with input := [0x02, 0x40] }.input = (0x02 : Word) :: [0x40] := by decide +kernel

/-- Clause 2, at the lowest and highest reserved bit, and at the engine bit. -/
theorem witness_IllegalPackets_header :
    ((0x01, 0, false) ∈ specOpcodes ∧ (0x201 : Word).toNat % 256 = 0x01 ∧
      (0x201 : Word).toNat / 512 ≠ 0) ∧
    ((0x40, 0, true) ∈ specOpcodes ∧ (0x8000000000000040 : Word).toNat % 256 = 0x40 ∧
      (0x8000000000000040 : Word).toNat / 512 ≠ 0) ∧
    ((0x21, 1, false) ∈ specOpcodes ∧ (0x121 : Word).toNat % 256 = 0x21 ∧
      ([0xDEAD] : List Word).length = 1 ∧ (0x121 : Word).getLsbD 8 = true) := by decide +kernel

theorem witness_IllegalPackets_noSerialization : cfgNoSer.serEn = false := rfl

/-- Clause 5, with and without an engine select. -/
theorem witness_IllegalPackets_legal :
    ((0x70, 2, true) ∈ specOpcodes ∧ (0x170 : Word).toNat % 256 = 0x70 ∧
      (0x170 : Word).toNat / 512 = 0) ∧
    ((0x01, 0, false) ∈ specOpcodes ∧ (0x01 : Word).toNat % 256 = 0x01 ∧
      (0x01 : Word).toNat / 512 = 0 ∧ (0x01 : Word).getLsbD 8 = false) := by decide +kernel

theorem witness_IncompletePacketsWait :
    State.reset.input = [] ∧ (0x22, 16, false) ∈ specOpcodes ∧
    (0x22 : Word).toNat % 256 = 0x22 ∧ (List.replicate 15 (0 : Word)).length < 16 := by
  decide +kernel

theorem witness_StepExecutesDecodedCommand :
    decode { State.reset with input := [0x140, 0x01] }.input = .command (.next .ce) 1 := by
  decide +kernel

theorem witness_AddAtAddsModuloN :
    addAt ((allLimbs 0).set 15 0xFFFFFFFFFFFFFFFF) 15 1 = allLimbs 0 ∧ 15 < 16 := by decide +kernel

/-- Clause 2 at the largest scalar; clause 3 at a sum that wraps to 0. -/
theorem witness_JumpsComposeBySum :
    ((limbs [0xFFFFFFFFFFFFFFFF])[0] = 0xFFFFFFFFFFFFFFFF ∧
      ∀ i : Fin 16, i ≠ 0 → (limbs [0xFFFFFFFFFFFFFFFF])[i] = 0) ∧
    valLimbs (limbs []) = (valLimbs (allLimbs 0xFFFFFFFFFFFFFFFF) + valLimbs (limbs [1])) % 2 ^ 1024 := by
  decide +kernel

theorem witness_QuarterRoundFollowsItsSequence :
    ([0, 4, 8, 12] : List (Fin 16)).Nodup ∧ ([3, 4, 9, 14] : List (Fin 16)).Nodup := by decide

/-- Clause 1 for both engines after reset, clause 2 after exhaustion. -/
theorem witness_UnreadyEngineCommandsFault :
    isEngineCommand .lpe (.bulk .lpe 0) = true ∧ seededOf .lpe State.reset = false ∧
    isEngineCommand .ce (.unbiased .ce 7 7) = true ∧ seededOf .ce State.reset = false ∧
    ceExhausted.ce.seeded = true ∧ ceExhausted.ce.exh = true := by decide +kernel

/-- Both clauses, at cursors 0 and 7. -/
theorem witness_NextDeliversTheBufferedWord :
    ((lpe (limbs [1]) (block [1]) 7).lpe.cur.val < 8 ∧
      (lpe (limbs [1]) (block [1]) 7).lpe.seeded = true) ∧
    ((ce 1 (block zeroBlock) 0).ce.cur.val < 8 ∧ (ce 1 (block zeroBlock) 0).ce.seeded = true ∧
      (ce 1 (block zeroBlock) 0).ce.exh = false) := by decide +kernel

/-- The three clauses, the last two at the two last counters. -/
theorem witness_NextRefillsAnEmptyBuffer :
    ((lpe (limbs []) (block []) 8).lpe.seeded = true ∧
      (lpe (limbs []) (block []) 8).lpe.cur = 8) ∧
    ((ce 0xFFFFFFFFFFFFFFFE (block []) 8).ce.seeded = true ∧
      (ce 0xFFFFFFFFFFFFFFFE (block []) 8).ce.exh = false ∧
      (ce 0xFFFFFFFFFFFFFFFE (block []) 8).ce.cur = 8 ∧
      (ce 0xFFFFFFFFFFFFFFFE (block []) 8).ce.ctr ≠ 0xFFFFFFFFFFFFFFFF) ∧
    ((ce 0xFFFFFFFFFFFFFFFF (block []) 8).ce.seeded = true ∧
      (ce 0xFFFFFFFFFFFFFFFF (block []) 8).ce.exh = false ∧
      (ce 0xFFFFFFFFFFFFFFFF (block []) 8).ce.cur = 8 ∧
      (ce 0xFFFFFFFFFFFFFFFF (block []) 8).ce.ctr = 0xFFFFFFFFFFFFFFFF) := by decide +kernel

theorem witness_BulkLpeReturnsTheNextBlocks : (lpe (limbs []) (block []) 3).lpe.seeded = true := rfl

/-- Both clauses, at the last byte that fits and at the first that does not. -/
theorem witness_BulkCeReturnsTheNextBlocks :
    let s := ce 0xFFFFFFFFFFFFFFFE (block []) 8
    s.ce.seeded = true ∧ s.ce.exh = false ∧
    s.ce.ctr.toNat + ((64 : Word).toNat + 63) / 64 < 2 ^ 64 ∧
    2 ^ 64 ≤ s.ce.ctr.toNat + ((65 : Word).toNat + 63) / 64 := by decide +kernel

/-- Both outcomes of the bulk fill, and of the commands. -/
theorem witness_BulkBytesAreNextWords :
    curOf .ce (ce 0xFFFFFFFFFFFFFFFE (block []) 8) = 8 ∧
    bulkFill cfg0 .ce 0 (ce 0 (block []) 8) = .done [] (ce 0 (block []) 8) ∧
    bulkFill cfg0 .ce 1 (ce 0xFFFFFFFFFFFFFFFF (block []) 8) =
      .raised .keystreamExhausted ceExhausted ∧
    notReady .ce (ce 0 (block []) 8) = none ∧
    runCommands [.next .ce, .next .ce] (ce 0 (block []) 8) =
      some ([some ⟨.ok, [0x903DF1A0ADE0B876]⟩, some ⟨.ok, [0x28BD8653E56A5D40]⟩],
        { ce 1 (block zeroBlock) 2 with response := some ⟨.ok, [0x28BD8653E56A5D40]⟩ }) ∧
    (nextOf (exec (.bulk .ce 9) (ce 0 (block []) 8))).map (fun t => (answer t, t.ce.ctr, t.ce.cur)) =
      some ([0, 0x903DF1A0ADE0B876, 0x40], 1, 8) := by decide +kernel

/-- The three cases, at their boundaries. -/
theorem witness_DiscardLpeSkipsExactly :
    let s := lpe (limbs []) (block []) 3
    s.lpe.seeded = true ∧ (5 : Word).toNat ≤ 8 - s.lpe.cur.val ∧
    ¬ (13 : Word).toNat ≤ 8 - s.lpe.cur.val ∧ ((13 : Word).toNat - (8 - s.lpe.cur.val)) % 8 = 0 ∧
    ¬ (6 : Word).toNat ≤ 8 - s.lpe.cur.val ∧
    ((6 : Word).toNat - (8 - s.lpe.cur.val)) % 8 ≠ 0 := by decide +kernel

/-- The four cases, at the last counters (V6.7). -/
theorem witness_DiscardCeSkipsExactly :
    let s := ce 0xFFFFFFFFFFFFFFFD (block []) 8
    s.ce.seeded = true ∧ s.ce.exh = false ∧ (0 : Word).toNat ≤ 8 - s.ce.cur.val ∧
    s.ce.ctr.toNat + ((16 : Word).toNat + 7) / 8 < 2 ^ 64 ∧ (16 : Word).toNat % 8 = 0 ∧
    s.ce.ctr.toNat + ((9 : Word).toNat + 7) / 8 < 2 ^ 64 ∧ (9 : Word).toNat % 8 ≠ 0 ∧
    2 ^ 64 ≤ s.ce.ctr.toNat + ((17 : Word).toNat + 7) / 8 := by decide +kernel

/-- Both outcomes of the discard, and of the commands: two NEXT at the last counter both fault. -/
theorem witness_DiscardEqualsRepeatedDraws :
    notReady .ce (ce 0xFFFFFFFFFFFFFFFF (block []) 8) = none ∧
    discardWords cfg0 .ce 1 (ce 0xFFFFFFFFFFFFFFFF (block []) 8) =
      .raised .keystreamExhausted ceExhausted ∧
    runCommands [.next .ce, .next .ce] (ce 0xFFFFFFFFFFFFFFFF (block []) 8) =
      some ([some ⟨.keystreamExhausted, []⟩, some ⟨.keystreamExhausted, []⟩],
        { ceExhausted with response := some ⟨.keystreamExhausted, []⟩ }) ∧
    notReady .lpe (lpe (limbs []) (block []) 3) = none ∧
    discardWords cfg0 .lpe 5 (lpe (limbs []) (block []) 3) =
      .done () (lpe (limbs []) (block []) 8) := by decide +kernel

theorem witness_JumpsSkipTheirStride : (lpe (limbs [1]) (block []) 0).lpe.seeded = true := rfl

theorem witness_LpeSeedEntLoadsTheDraw :
    { State.reset with entropy128 := [none] }.entropy128 = none :: [] ∧
    { State.reset with entropy128 := [some (countingBytes 128)] }.entropy128 =
      some (countingBytes 128) :: [] := ⟨rfl, rfl⟩

theorem witness_UnansweredDrawsWait :
    State.reset.entropy128 = [] ∧ State.reset.entropy64 = [] := ⟨rfl, rfl⟩

/-- Both clauses: seed words that are the low and high halves of the operand words. -/
theorem witness_CeSeedsDeriveByOnePermutation :
    (∀ w : Fin 8,
      (#v[1, 2, 3, 4, 5, 6, 7, 8, 9, 10, 11, 12, 13, 14, 15, 16] : ChaChaState)[2 * w.val] =
        (#v[0x200000001, 0x400000003, 0x600000005, 0x800000007, 0xA00000009, 0xC0000000B,
          0xE0000000D, 0x100000000F] : Vector Word 8)[w].extractLsb' 0 32 ∧
      (#v[1, 2, 3, 4, 5, 6, 7, 8, 9, 10, 11, 12, 13, 14, 15, 16] : ChaChaState)[2 * w.val + 1] =
        (#v[0x200000001, 0x400000003, 0x600000005, 0x800000007, 0xA00000009, 0xC0000000B,
          0xE0000000D, 0x100000000F] : Vector Word 8)[w].extractLsb' 32 32) ∧
    (∀ w : Fin 4,
      (#v[1, 2, 3, 4, 5, 6, 7, 8, 0, 0, 0, 0, 0, 0, 0, 0] : ChaChaState)[2 * w.val] =
        (#v[0x200000001, 0x400000003, 0x600000005, 0x800000007] : Vector Word 4)[w].extractLsb' 0 32 ∧
      (#v[1, 2, 3, 4, 5, 6, 7, 8, 0, 0, 0, 0, 0, 0, 0, 0] : ChaChaState)[2 * w.val + 1] =
        (#v[0x200000001, 0x400000003, 0x600000005, 0x800000007] :
          Vector Word 4)[w].extractLsb' 32 32) ∧
    (∀ i : Fin 8,
      (#v[1, 2, 3, 4, 5, 6, 7, 8, 0, 0, 0, 0, 0, 0, 0, 0] : ChaChaState)[8 + i.val] = 0) := by
  decide +kernel

theorem witness_CeSeedEntSplitsTheDraw :
    { State.reset with entropy64 := [none] }.entropy64 = none :: [] ∧
    { State.reset with entropy64 := [some (countingBytes 64)] }.entropy64 =
      some (countingBytes 64) :: [] := ⟨rfl, rfl⟩

/-- The invariant holds in the middle of a keystream, and after exhaustion. -/
theorem ceMid_inv : StateInv ceMid := by
  unfold StateInv lpeUnseededLaw ceUnseededLaw ceExhaustedLaw ceBufferLaw
  decide +kernel

theorem ceExhausted_inv : StateInv ceExhausted := by
  unfold StateInv lpeUnseededLaw ceUnseededLaw ceExhaustedLaw ceBufferLaw
  decide +kernel

theorem witness_SaveThenRestoreIsTheSameEngine :
    cfg0.serEn = true ∧ StateInv ceMid ∧
    saveCommand cfg0 ceMid = { ceMid with response := some ⟨.ok, recordMid.toList⟩ } :=
  ⟨rfl, ceMid_inv, test_ceSave.1⟩

/-- Clause 1, and clause 2 in its two cases, with swapped bounds and at the largest range. -/
theorem witness_UnbiasedReturnsAnAcceptedDraw :
    let s := ce 1 (block [0xFFFFFFFFFFFFFFFF]) 0
    let t := ce 1 (block [0xFFFFFFFFFFFFFFFF]) 1
    notReady .ce s = none ∧ drawWord Config.cfg .ce s = .done 0xFFFFFFFFFFFFFFFF t ∧
    (0xA : Word) < 0xF ∧ rangeSize 0xA 0xF < 2 ^ 64 ∧
    ¬ 0xFFFFFFFFFFFFFFFF * rangeSize 0xA 0xF % 2 ^ 64 < 2 ^ 64 % rangeSize 0xA 0xF ∧
    (0 : Word) < 0xFFFFFFFFFFFFFFFF ∧ rangeSize 0 0xFFFFFFFFFFFFFFFF = 2 ^ 64 ∧
    rangeSize 0 0xFFFFFFFFFFFFFFFE < 2 ^ 64 := by decide +kernel

/-- Both sides hold: V7's example, one draw rejected and the next one taken, with the bounds in either
order. -/
theorem witness_SamplerIsRejectionSampling :
    let s := ce 1 (block [0x8000000000000000, 0xC000000000000001]) 0
    let t := ce 1 (block [0x8000000000000000, 0xC000000000000001]) 2
    notReady .ce s = none ∧ (0xA : Word) < 0xF ∧ rangeSize 0xA 0xF < 2 ^ 64 ∧
    nextOf (unbiasedCommand cfg0 .ce 0xA 0xF s) = some { t with response := some ⟨.ok, [0xE]⟩ } ∧
    nextOf (unbiasedCommand cfg0 .ce 0xF 0xA s) = some { t with response := some ⟨.ok, [0xE]⟩ } ∧
    drawWords cfg0 .ce 2 s = .done [0x8000000000000000, 0xC000000000000001] t ∧
    0x8000000000000000 * 6 % 2 ^ 64 < 2 ^ 64 % 6 ∧
    ¬ 0xC000000000000001 * 6 % 2 ^ 64 < 2 ^ 64 % 6 := by decide +kernel

/-- A draw that exhausts the engine, after a rejected one and over the whole domain; and a raw draw with
either outcome (R260). -/
theorem witness_SamplerIsRejectionSampling_exhaustion :
    let s := ce 0xFFFFFFFFFFFFFFFF (block [0, 0, 0, 0, 0, 0, 0, 0x8000000000000000]) 7
    let v := ce 0xFFFFFFFFFFFFFFFF (block [0, 0, 0, 0, 0, 0, 0, 0x8000000000000000]) 8
    let u := { ceExhausted with response := some ⟨.keystreamExhausted, []⟩ }
    notReady .ce s = none ∧ drawWords cfg0 .ce 1 s = .done [0x8000000000000000] v ∧
    drawWord Config.cfg .ce s = .done 0x8000000000000000 v ∧
    drawWord cfg0 .ce v = .raised .keystreamExhausted ceExhausted ∧
    nextOf (unbiasedCommand cfg0 .ce 0xA 0xF s) = some u ∧
    notReady .ce v = none ∧ drawWords cfg0 .ce 0 v = .done [] v ∧
    drawWord Config.cfg .ce v = .raised .keystreamExhausted ceExhausted ∧
    rangeSize 0 0xFFFFFFFFFFFFFFFF = 2 ^ 64 ∧
    nextOf (unbiasedCommand cfg0 .ce 0xFFFFFFFFFFFFFFFF 0 v) = some u := by decide +kernel

/-- The left side holds under the configuration whose mixer is zero. -/
theorem witness_SamplerHangsExactlyWhenNothingIsAccepted :
    notReady .lpe (lpe (limbs []) (block []) 8) = none ∧ (1 : Word) < 6 ∧
    unbiasedCommand zeroMixer .lpe 1 6 (lpe (limbs []) (block []) 8) =
      .fault .unbiasedNeverAccepts :=
  ⟨rfl, by decide, zeroMixer_hangs _ (by decide +kernel) rfl⟩

theorem witness_UnbiasedResultIsInRange :
    exec (.unbiased .ce 7 7) (ce 0 (block []) 8) =
      .next { ce 0 (block []) 8 with response := some ⟨.ok, [7]⟩ } := rfl

/-- At the smallest and the largest range. -/
theorem witness_AcceptedWordsAreEquallyMany :
    2 ≤ (2 : Word).toNat ∧ 1 < (2 : Word).toNat ∧ 2 ≤ (0xFFFFFFFFFFFFFFFF : Word).toNat ∧
    0xFFFFFFFFFFFFFFFE < (0xFFFFFFFFFFFFFFFF : Word).toNat := by decide

/-- A completion, a fault and a wait. -/
theorem witness_ResponsesHaveTheirRowsPayload :
    exec .ctrRead State.reset =
      .next { State.reset with response := some ⟨.ok, State.reset.ctr.toList⟩ } ∧
    exec (.next .ce) State.reset =
      .next { State.reset with response := some ⟨.notSeeded, []⟩ } ∧
    exec .ceSeedEnt State.reset = .next State.reset := ⟨rfl, rfl, rfl⟩

/-- A fault that changes nothing, and exhaustion. -/
theorem witness_FaultsChangeNothingButExhaustion :
    exec (.next .lpe) State.reset =
      .next { State.reset with response := some ⟨.notSeeded, []⟩ } ∧
    (nextOf (exec (.next .ce) (ce 0xFFFFFFFFFFFFFFFF (block []) 8))) =
      some { ceExhausted with response := some ⟨.keystreamExhausted, []⟩ } :=
  ⟨rfl, by decide +kernel⟩

/-- A command of each side and one of neither. -/
theorem witness_CommandsWriteOnlyTheirOwnEngine :
    exec .ctrRead State.reset =
      .next { State.reset with response := some ⟨.ok, State.reset.ctr.toList⟩ } ∧
    isLpeSide .ctrRead = true ∧ isCeSide .ctrRead = false ∧
    isLpeSide .ceZeroize = false ∧ isCeSide .ceZeroize = true ∧
    isLpeSide (.mix 1) = false ∧ isCeSide (.mix 1) = false :=
  ⟨rfl, rfl, rfl, rfl, rfl, rfl, rfl⟩

/-- Two states that differ in the CE only, and two that differ in the LPE only. -/
theorem witness_EnginesDoNotInterfere :
    (isCeSide (.next .lpe) = false ∧ ceMid.ctr = ceExhausted.ctr ∧ ceMid.lpe = ceExhausted.lpe ∧
      ceMid.entropy128 = ceExhausted.entropy128 ∧ ceMid.ce ≠ ceExhausted.ce) ∧
    (isLpeSide (.next .ce) = false ∧ State.reset.ce = (lpe (limbs [1]) (block []) 3).ce ∧
      State.reset.entropy64 = (lpe (limbs [1]) (block []) 3).entropy64 ∧
      State.reset.lpe ≠ (lpe (limbs [1]) (block []) 3).lpe) := by
  refine ⟨⟨rfl, rfl, rfl, rfl, ?_⟩, ⟨rfl, rfl, rfl, ?_⟩⟩ <;> decide +kernel

/-- Two states equivalent but not equal, for each engine: buffers that differ below the cursor. -/
theorem witness_EquivalentEnginesAnswerAlike :
    isEngineCommand .lpe (.discard .lpe 9) = true ∧
    (lpeEq (lpe (limbs [5]) (block [1, 2]) 2) (lpe (limbs [5]) (block [3, 4]) 2) ∧
      (lpe (limbs [5]) (block [1, 2]) 2).lpe.seeded = (lpe (limbs [5]) (block [3, 4]) 2).lpe.seeded) ∧
    lpe (limbs [5]) (block [1, 2]) 2 ≠ lpe (limbs [5]) (block [3, 4]) 2 ∧
    isEngineCommand .ce (.jump .ce) = true ∧
    (ceEq (ce 5 (block [1, 2]) 2) (ce 5 (block [3, 4]) 2) ∧
      (ce 5 (block [1, 2]) 2).ce.seeded = (ce 5 (block [3, 4]) 2).ce.seeded ∧
      (ce 5 (block [1, 2]) 2).ce.exh = (ce 5 (block [3, 4]) 2).ce.exh) ∧
    ce 5 (block [1, 2]) 2 ≠ ce 5 (block [3, 4]) 2 := by decide +kernel

/-- Exhaustion ends, and begins. -/
theorem witness_ExhaustionIsSticky :
    (ceExhausted.ce.exh = true ∧
      exec .ceZeroize ceExhausted = .next { State.reset with response := some ⟨.ok, []⟩ } ∧
      State.reset.ce.exh = false) ∧
    ((ce 0xFFFFFFFFFFFFFFFF (block []) 8).ce.exh = false ∧
      nextOf (exec (.next .ce) (ce 0xFFFFFFFFFFFFFFFF (block []) 8)) =
        some { ceExhausted with response := some ⟨.keystreamExhausted, []⟩ }) :=
  ⟨⟨rfl, rfl, rfl⟩, rfl, by decide +kernel⟩

/-- A seeding of each engine, and a zeroization. -/
theorem witness_SeededBitsFollowSeeding :
    (exec (.ctrLoad (limbs [7])) State.reset =
      .next { lpe (limbs [7]) (Vector.replicate 8 0) 8 with response := some ⟨.ok, []⟩ } ∧
      isLpeSeeding (.ctrLoad (limbs [7])) = true) ∧
    ((nextOf (exec (.ceKey #v[0, 0, 0, 0] 0 5) State.reset)) =
      some { ce 5 (Vector.replicate 8 0) 8 with response := some ⟨.ok, []⟩ } ∧
      isCeSeeding (.ceKey #v[0, 0, 0, 0] 0 5) = true) ∧
    (ceMid.ce.seeded = true ∧
      exec .ceZeroize ceMid = .next { State.reset with response := some ⟨.ok, []⟩ }) := by
  refine ⟨⟨rfl, rfl⟩, ⟨?_, rfl⟩, rfl, rfl⟩
  decide +kernel

theorem witness_BlockCounterGoesBackOnlyByExhaustion :
    isCeSeeding (.discard .ce 16) = false ∧ (Instr.discard .ce 16) ≠ .ceZeroize ∧
    nextOf (exec (.discard .ce 16) (ce 0xFFFFFFFFFFFFFFFD (block []) 8)) =
      some { ce 0xFFFFFFFFFFFFFFFF (block []) 8 with response := some ⟨.ok, []⟩ } := by
  decide +kernel

/-- A step of a state in the middle of a keystream that changes the CE group. -/
theorem witness_StepKeepsTheInvariant :
    StateInv { ceMid with input := [0x64] } ∧
    step { ceMid with input := [0x64] } =
      .next { State.reset with response := some ⟨.ok, []⟩ } :=
  ⟨ceMid_inv, rfl⟩

theorem witness_HostActionsKeepTheInvariant : StateInv ceExhausted := ceExhausted_inv

end Sys2Proof.Tests
end

