-- ==== Sys2Proof/Proofs/CounterValue.lean ====
section
/-! SUPPORT. What the counter's operations do to the integer the limbs stand for (41_counter.md R122, R124,
R126, R128), as congruences modulo 2^1024: the engines' block steps and jumps rest on these. -/

namespace Sys2Proof.EngineProofs

open Sys2Proof.Machine

/-- The counter's modulus `N` (R24). Named, so that no tactic computes the power. -/
def modulus : Nat := 2 ^ 1024

theorem modulus_eq : modulus = 2 ^ 1024 := rfl

theorem toNat_one : (1 : Word).toNat = 1 := rfl

/-! The integer of a list of limbs. -/

/-- Writing one limb exchanges its share of the value. -/
theorem limbsValue_set (ws : List Word) (x : Word) :
    ∀ (j : Nat) (h : j < ws.length),
      limbsValue (ws.set j x) + ws[j].toNat * 2 ^ (64 * j) =
        limbsValue ws + x.toNat * 2 ^ (64 * j) := by
  induction ws with
  | nil => intro j h; simp at h
  | cons w ws ih =>
    intro j h
    cases j with
    | zero => simp only [List.set_cons_zero, List.getElem_cons_zero, limbsValue]; omega
    | succ j =>
      have hj := ih j (by simpa using h)
      have hp : 2 ^ (64 * (j + 1)) = 2 ^ 64 * 2 ^ (64 * j) := by rw [← pow_add]; congr 1; omega
      simp only [List.set_cons_succ, List.getElem_cons_succ, limbsValue, hp]
      linear_combination 2 ^ 64 * hj

theorem limbsValue_lt (ws : List Word) : limbsValue ws < 2 ^ (64 * ws.length) := by
  induction ws with
  | nil => simp [limbsValue]
  | cons w ws ih =>
    have hp : 2 ^ (64 * (w :: ws).length) = 2 ^ 64 * 2 ^ (64 * ws.length) := by
      rw [← pow_add, List.length_cons]; congr 1; omega
    have hw := w.isLt
    rw [hp, limbsValue]
    calc w.toNat + 2 ^ 64 * limbsValue ws < 2 ^ 64 * (limbsValue ws + 1) := by omega
      _ ≤ 2 ^ 64 * 2 ^ (64 * ws.length) := Nat.mul_le_mul_left _ ih

/-- Lists of limbs of one length are their values. -/
theorem limbsValue_injective (ws : List Word) :
    ∀ vs : List Word, ws.length = vs.length → limbsValue ws = limbsValue vs → ws = vs := by
  induction ws with
  | nil => intro vs hl _; exact (List.eq_nil_of_length_eq_zero hl.symm).symm
  | cons w ws ih =>
    intro vs hl hv
    cases vs with
    | nil => simp at hl
    | cons v vs =>
      simp only [limbsValue] at hv
      have hw := w.isLt
      have hx := v.isLt
      have hwv : w = v := BitVec.eq_of_toNat_eq (by omega)
      have hr : limbsValue ws = limbsValue vs := by omega
      rw [hwv, ih vs (by simpa using hl) hr]

/-- The value as a sum over the limbs. -/
theorem limbsValue_eq_sum {n : Nat} (ws : List Word) (h : ws.length = n) :
    limbsValue ws = ∑ i : Fin n, ws[i.val].toNat * 2 ^ (64 * i.val) := by
  subst h
  induction ws with
  | nil => simp [limbsValue]
  | cons w ws ih =>
    have hp : ∀ j : Nat, 2 ^ (64 * (j + 1)) = 2 ^ 64 * 2 ^ (64 * j) := by
      intro j; rw [← pow_add]; congr 1; omega
    rw [limbsValue, ih, Finset.mul_sum]
    simp only [List.length_cons]
    rw [Fin.sum_univ_succ]
    simp [hp, mul_left_comm]

/-! The integer of sixteen limbs. -/

theorem valLimbs_lt (A : Limbs) : valLimbs A < modulus := by
  have h := limbsValue_lt A.toList
  have he : 64 * A.toList.length = 1024 := by rw [Vector.length_toList]
  rwa [he, ← modulus_eq] at h

theorem valLimbs_injective {A B : Limbs} (h : valLimbs A = valLimbs B) : A = B :=
  Vector.toList_inj.mp (limbsValue_injective _ _ (by simp) h)

/-- Counters of congruent values are equal. -/
theorem eq_of_valLimbs_modEq {A B : Limbs} (h : valLimbs A ≡ valLimbs B [MOD modulus]) : A = B :=
  valLimbs_injective (Nat.ModEq.eq_of_lt_of_lt h (valLimbs_lt A) (valLimbs_lt B))

/-- A congruence fixes the value of a counter. -/
theorem valLimbs_eq_mod {A : Limbs} {k : Nat} (h : valLimbs A ≡ k [MOD modulus]) :
    valLimbs A = k % 2 ^ 1024 := by
  rw [← modulus_eq, ← h, Nat.mod_eq_of_lt (valLimbs_lt A)]

theorem valLimbs_eq_sum (A : Limbs) :
    valLimbs A = ((List.finRange 16).map fun i : Fin 16 => A[i].toNat * 2 ^ (64 * i.val)).sum := by
  rw [← List.ofFn_eq_map, List.sum_ofFn]
  exact limbsValue_eq_sum (n := 16) A.toList (by simp)

theorem valLimbs_set (S : Limbs) (j : Nat) (h : j < 16) (x : Word) :
    valLimbs (S.set j x) + S[j].toNat * 2 ^ (64 * j) = valLimbs S + x.toNat * 2 ^ (64 * j) := by
  have hs := limbsValue_set S.toList x j (by simpa using h)
  rwa [← Vector.toList_set, Vector.getElem_toList] at hs

/-- What is added at limb 16 or above is lost. -/
theorem mul_pow_modEq_zero (a j : Nat) (h : 16 ≤ j) : a * 2 ^ (64 * j) ≡ 0 [MOD modulus] := by
  have hd : modulus ∣ 2 ^ (64 * j) := pow_dvd_pow 2 (by omega)
  exact (Nat.modEq_zero_iff_dvd).mpr (hd.mul_left a)

/-! The carry primitive (R122). -/

theorem valLimbs_carryFrom (fuel : Nat) :
    ∀ (S : Limbs) (j : Nat), fuel + j = 16 →
      valLimbs (carryFrom fuel S j) ≡ valLimbs S + 2 ^ (64 * j) [MOD modulus] := by
  induction fuel with
  | zero =>
    intro S j hj
    have h0 := mul_pow_modEq_zero 1 j (by omega)
    rw [one_mul] at h0
    exact (h0.symm.add_left (valLimbs S))
  | succ fuel ih =>
    intro S j hj
    have hj16 : j < 16 := by omega
    have hs := valLimbs_set S j hj16 (S[j] + 1)
    simp only [carryFrom, dif_pos hj16]
    split
    next hx =>
      have hn : (S[j] + 1).toNat = S[j].toNat + 1 := by
        have hne : (S[j] + 1).toNat ≠ 0 := fun h0 => hx (BitVec.eq_of_toNat_eq h0)
        rw [BitVec.toNat_add, toNat_one] at hne ⊢
        have := S[j].isLt
        omega
      have hv : valLimbs (S.set j (S[j] + 1)) = valLimbs S + 2 ^ (64 * j) := by
        rw [hn, Nat.add_mul, one_mul] at hs; omega
      rw [hv]
    next hx =>
      have h0 : S[j] + 1 = 0 := not_not.mp hx
      have hn : S[j].toNat = 2 ^ 64 - 1 := by
        have h0' : (S[j] + 1).toNat = 0 := congrArg BitVec.toNat h0
        rw [BitVec.toNat_add, toNat_one] at h0'
        have := S[j].isLt
        omega
      have hp : 2 ^ (64 * (j + 1)) = 2 ^ 64 * 2 ^ (64 * j) := by
        rw [← pow_add]; congr 1; omega
      have hv : valLimbs (S.set j (S[j] + 1)) + 2 ^ (64 * (j + 1)) = valLimbs S + 2 ^ (64 * j) := by
        have hz : (S[j] + 1).toNat = 0 := congrArg BitVec.toNat h0
        rw [hz, hn] at hs
        rw [hp]; omega
      rw [← hv]
      exact ih _ (j + 1) (by omega)

theorem valLimbs_addAt (S : Limbs) (i : Nat) (d : Word) :
    valLimbs (addAt S i d) ≡ valLimbs S + d.toNat * 2 ^ (64 * i) [MOD modulus] := by
  unfold addAt
  split
  next hi =>
    have hs := valLimbs_set S i hi (S[i] + d)
    have ha : (S[i] + d).toNat = (S[i].toNat + d.toNat) % 2 ^ 64 := BitVec.toNat_add ..
    have hS := S[i].isLt
    have hd := d.isLt
    dsimp only
    split
    next hlt =>
      have hlt' : (S[i] + d).toNat < d.toNat := hlt
      have hn : (S[i] + d).toNat + 2 ^ 64 = S[i].toNat + d.toNat := by omega
      have hp : 2 ^ (64 * (i + 1)) = 2 ^ 64 * 2 ^ (64 * i) := by
        rw [← pow_add]; congr 1; omega
      have hn' := congrArg (· * 2 ^ (64 * i)) hn
      simp only [Nat.add_mul] at hn'
      have hv : valLimbs (S.set i (S[i] + d)) + 2 ^ (64 * (i + 1)) =
          valLimbs S + d.toNat * 2 ^ (64 * i) := by rw [hp]; omega
      rw [← hv]
      exact valLimbs_carryFrom _ _ (i + 1) (by omega)
    next hge =>
      have hge' : ¬ (S[i] + d).toNat < d.toNat := hge
      have hn : (S[i] + d).toNat = S[i].toNat + d.toNat := by omega
      have hv : valLimbs (S.set i (S[i] + d)) = valLimbs S + d.toNat * 2 ^ (64 * i) := by
        rw [hn, Nat.add_mul] at hs; omega
      rw [hv]
  next hi => exact ((mul_pow_modEq_zero d.toNat i (by omega)).symm.add_left (valLimbs S))

/-- The two halves of a product are the exact product of R16. -/
theorem lo64_add_hi64 (a b : Word) :
    (lo64 (mul128 a b)).toNat + 2 ^ 64 * (hi64 (mul128 a b)).toNat = a.toNat * b.toNat := by
  have ha := a.isLt
  have hb := b.isLt
  have hab : a.toNat * b.toNat < 2 ^ 128 := by
    calc a.toNat * b.toNat < 2 ^ 64 * 2 ^ 64 := Nat.mul_lt_mul'' ha hb
      _ = 2 ^ 128 := by norm_num
  have hm : (mul128 a b).toNat = a.toNat * b.toNat := by
    rw [mul128, BitVec.toNat_mul, BitVec.toNat_setWidth_of_le (by decide),
      BitVec.toNat_setWidth_of_le (by decide), Nat.mod_eq_of_lt hab]
  simp only [lo64, hi64, BitVec.extractLsb'_toNat, hm, Nat.shiftRight_eq_div_pow]
  omega

theorem valLimbs_addProductAt (S : Limbs) (i : Nat) (a b : Word) :
    valLimbs (addProductAt S i (mul128 a b)) ≡
      valLimbs S + a.toNat * b.toNat * 2 ^ (64 * i) [MOD modulus] := by
  have hp : 2 ^ (64 * (i + 1)) = 2 ^ 64 * 2 ^ (64 * i) := by rw [← pow_add]; congr 1; omega
  have hlo := valLimbs_addAt S i (lo64 (mul128 a b))
  have hhi := valLimbs_addAt (addAt S i (lo64 (mul128 a b))) (i + 1) (hi64 (mul128 a b))
  refine (hhi.trans (hlo.add_right _)).trans (congrArg (· % modulus) ?_)
  rw [← lo64_add_hi64, hp]
  ring

/-! The three advances (R124, R126, R128). -/

/-- A loop whose every pass adds an amount adds their sum. -/
theorem valLimbs_foldl {f : Limbs → Fin 16 → Limbs} {g : Fin 16 → Nat}
    (h : ∀ S i, valLimbs (f S i) ≡ valLimbs S + g i [MOD modulus]) (l : List (Fin 16)) :
    ∀ S, valLimbs (l.foldl f S) ≡ valLimbs S + (l.map g).sum [MOD modulus] := by
  induction l with
  | nil => exact fun S => Nat.ModEq.refl _
  | cons i l ih =>
    intro S
    rw [List.foldl_cons, List.map_cons, List.sum_cons, ← Nat.add_assoc]
    exact (ih (f S i)).trans ((h S i).add_right _)

theorem valLimbs_advanceByOne (c : Cfg) (S : Limbs) :
    valLimbs (advanceByOne c S) ≡ valLimbs S + valLimbs (incOf c) [MOD modulus] := by
  have hpass : ∀ (S : Limbs) (i : Fin 16), valLimbs (addAt S i.val (incOf c)[i]) ≡
      valLimbs S + (incOf c)[i].toNat * 2 ^ (64 * i.val) [MOD modulus] :=
    fun S i => valLimbs_addAt S i.val _
  rw [valLimbs_eq_sum (incOf c)]
  exact valLimbs_foldl hpass _ S

theorem valLimbs_advanceByScalar (c : Cfg) (n : Word) (S : Limbs) :
    valLimbs (advanceByScalar c n S) ≡ valLimbs S + n.toNat * valLimbs (incOf c) [MOD modulus] := by
  rw [valLimbs_eq_sum (incOf c), ← List.sum_map_mul_left]
  refine (valLimbs_foldl (fun S i => valLimbs_addProductAt S i.val (incOf c)[i] n) _ S).trans
    (congrArg (· % modulus) ?_)
  simp only [Nat.mul_comm, Nat.mul_left_comm]

/-- One partial product of the convolution; one that would stand above limb 15 is a multiple of `N`. -/
theorem valLimbs_partialProduct (S : Limbs) (i j : Nat) (a b : Word) :
    valLimbs (if i + j < 16 then addProductAt S (i + j) (mul128 a b) else S) ≡
      valLimbs S + b.toNat * 2 ^ (64 * i) * (a.toNat * 2 ^ (64 * j)) [MOD modulus] := by
  have hg : b.toNat * 2 ^ (64 * i) * (a.toNat * 2 ^ (64 * j)) =
      a.toNat * b.toNat * 2 ^ (64 * (i + j)) := by rw [Nat.mul_add, pow_add]; ring
  rw [hg]
  split
  · exact valLimbs_addProductAt S _ a b
  · exact (mul_pow_modEq_zero (a.toNat * b.toNat) (i + j) (by omega)).symm.add_left (valLimbs S)

theorem valLimbs_jumpRow (c : Cfg) (stp S : Limbs) (i : Fin 16) :
    valLimbs (jumpRow c stp S i) ≡
      valLimbs S + stp[i].toNat * 2 ^ (64 * i.val) * valLimbs (incOf c) [MOD modulus] := by
  rw [valLimbs_eq_sum (incOf c), ← List.sum_map_mul_left]
  exact valLimbs_foldl (fun S j => valLimbs_partialProduct S i.val j.val (incOf c)[j] stp[i]) _ S

theorem valLimbs_bigJump (c : Cfg) (stp S : Limbs) :
    valLimbs (bigJump c stp S) ≡
      valLimbs S + valLimbs stp * valLimbs (incOf c) [MOD modulus] := by
  rw [valLimbs_eq_sum stp, ← List.sum_map_mul_right]
  exact valLimbs_foldl (fun S i => valLimbs_jumpRow c stp S i) _ S

theorem valLimbs_iterate_advanceByOne (c : Cfg) (k : Nat) (S : Limbs) :
    valLimbs ((advanceByOne c)^[k] S) ≡ valLimbs S + k * valLimbs (incOf c) [MOD modulus] := by
  induction k with
  | zero => simp [Nat.ModEq.refl]
  | succ k ih =>
    rw [Function.iterate_succ_apply', Nat.succ_mul, ← Nat.add_assoc]
    exact (valLimbs_advanceByOne c _).trans (ih.add_right _)

/-- R126: the fast multi-block advance is that many single advances. -/
theorem advanceByScalar_eq_iterate (c : Cfg) (m : Nat) (h : m < 2 ^ 64) (S : Limbs) :
    advanceByScalar c (BitVec.ofNat 64 m) S = (advanceByOne c)^[m] S := by
  have hm : (BitVec.ofNat 64 m).toNat = m := by rw [BitVec.toNat_ofNat, Nat.mod_eq_of_lt h]
  have hs := valLimbs_advanceByScalar c (BitVec.ofNat 64 m) S
  rw [hm] at hs
  exact eq_of_valLimbs_modEq (hs.trans (valLimbs_iterate_advanceByOne c m S).symm)

end Sys2Proof.EngineProofs
end

