-- ==== Sys2Proof/Proofs/OutputBytes.lean ====
section
/-! SUPPORT. The output byte string of BULK (20_memory.md R63, R65, R66; 43_engine.md R175): what the writes
of whole blocks and of a last partial chunk append, and which byte of which block stands at an index. -/

namespace Sys2Proof.EngineProofs

open Sys2Proof.Machine

/-! Lists of pieces of one length. -/

/-- Index `q` of pieces of length `L` one after another is index `q mod L` of piece `q div L`. -/
theorem getElem?_flatMap_of_length {α β : Type} (g : α → List β) (L : Nat) (hL : 0 < L)
    (hg : ∀ a, (g a).length = L) (l : List α) :
    ∀ q : Nat, (l.flatMap g)[q]? = l[q / L]?.bind fun a => (g a)[q % L]? := by
  induction l with
  | nil => simp
  | cons a l ih =>
    intro q
    rw [List.flatMap_cons]
    by_cases hq : q < L
    · rw [List.getElem?_append_left (by rw [hg]; exact hq), Nat.div_eq_of_lt hq, Nat.mod_eq_of_lt hq]
      rfl
    · obtain ⟨p, rfl⟩ : ∃ p, q = p + L := ⟨q - L, by omega⟩
      rw [List.getElem?_append_right (by rw [hg]; omega), hg, Nat.add_sub_cancel, ih,
        Nat.add_div_right p hL, Nat.add_mod_right]
      rfl

theorem length_flatMap_of_length {α β : Type} (g : α → List β) (L : Nat)
    (hg : ∀ a, (g a).length = L) (l : List α) : (l.flatMap g).length = L * l.length := by
  simp [List.length_flatMap, hg, Nat.mul_comm]

/-! Bytes of words and blocks (R63, R65). -/

@[simp] theorem length_leBytes {w : Nat} (v : BitVec w) (n : Nat) : (leBytes v n).length = n := by
  simp [leBytes]

theorem getElem?_leBytes {w : Nat} (v : BitVec w) {n j : Nat} (h : j < n) :
    (leBytes v n)[j]? = some (byteAt v j) := by
  simp [leBytes, h]

theorem length_bytesOfWords (ws : List Word) : (bytesOfWords ws).length = 8 * ws.length :=
  length_flatMap_of_length _ 8 (fun w => length_leBytes w 8) ws

@[simp] theorem length_blockBytes (b : Block) : (blockBytes b).length = 64 := by
  simp [blockBytes, length_bytesOfWords]

theorem bytesOfWords_append (vs ws : List Word) :
    bytesOfWords (vs ++ ws) = bytesOfWords vs ++ bytesOfWords ws := List.flatMap_append

/-- The first words carry the first bytes. -/
theorem bytesOfWords_take (ws : List Word) (k : Nat) :
    bytesOfWords (ws.take k) = (bytesOfWords ws).take (8 * k) := by
  by_cases hk : k ≤ ws.length
  · conv_rhs => rw [← List.take_append_drop k ws, bytesOfWords_append]
    rw [List.take_left' (by rw [length_bytesOfWords, List.length_take]; omega)]
  · rw [List.take_of_length_le (by omega),
      List.take_of_length_le (by rw [length_bytesOfWords]; omega)]

/-- The bytes of blocks one after another are the bytes of their words. -/
theorem bytesOfWords_flatMap_toList (bs : List Block) :
    bytesOfWords (bs.flatMap Vector.toList) = bs.flatMap blockBytes := List.flatMap_assoc

/-- Byte `q` of a block as the rules name it (R63). -/
theorem getElem?_blockBytes (b : Block) {q : Nat} (h : q < 64) :
    (blockBytes b)[q]? = some (byteAt (b[q / 8]'(by omega)) (q % 8)) := by
  rw [blockBytes, bytesOfWords,
    getElem?_flatMap_of_length _ 8 (by omega) (fun w => length_leBytes w 8)]
  have hq : q / 8 < b.toList.length := by simp; omega
  rw [List.getElem?_eq_getElem hq, Vector.getElem_toList]
  exact getElem?_leBytes _ (Nat.mod_lt q (by omega))

theorem map_blockByte_finRange (b : Block) : (List.finRange 64).map (blockByte b) = blockBytes b := by
  refine List.ext_getElem? fun q => ?_
  by_cases hq : q < 64
  · rw [getElem?_blockBytes b hq]
    simp [hq, blockByte]
  · rw [List.getElem?_eq_none (by simpa using hq), List.getElem?_eq_none (by simpa using hq)]

/-- Byte `q` of the first `n` bytes of the blocks `f 0, f 1, …`. -/
theorem getElem_take_blocks (f : Nat → Block) (m n q : Nat)
    (h : q < ((((List.range m).map f).flatMap blockBytes).take n).length) :
    ((((List.range m).map f).flatMap blockBytes).take n)[q] =
      byteAt ((f (q / 64))[q % 64 / 8]'(by omega)) (q % 8) := by
  have hlen := length_flatMap_of_length blockBytes 64 length_blockBytes ((List.range m).map f)
  rw [List.length_take, hlen, List.length_map, List.length_range] at h
  have hq : q / 64 < m := by omega
  refine Option.some.inj ?_
  rw [← List.getElem?_eq_getElem, List.getElem?_take_of_lt (by omega),
    getElem?_flatMap_of_length _ 64 (by omega) length_blockBytes]
  have hb := getElem?_blockBytes (f (q / 64)) (Nat.mod_lt q (by omega : 64 > 0))
  rw [Nat.mod_mod_of_dvd q (by decide : 8 ∣ 64)] at hb
  simpa [hq] using hb

/-- The first `n` bytes of `ceil(n/64)` blocks are `n` bytes. -/
theorem length_take_blocks (f : Nat → Block) (n : Nat) :
    ((((List.range ((n + 63) / 64)).map f).flatMap blockBytes).take n).length = n := by
  rw [List.length_take, length_flatMap_of_length blockBytes 64 length_blockBytes, List.length_map,
    List.length_range]
  omega

/-! Writes at the end of the output (R66). -/

theorem outWrite_at_end (out : List Byte) {off : Nat} (n : Nat) (v : Word) (h : out.length = off) :
    outWrite out off n v = out ++ leBytes v n := by
  subst h
  simp [outWrite]

/-- Eight-byte writes one after another. -/
theorem foldl_outWrite_words (n : Nat) :
    ∀ (v : Fin n → Word) (out : List Byte),
      (List.finRange n).foldl (fun o k => outWrite o (out.length + 8 * k.val) 8 (v k)) out =
        out ++ bytesOfWords ((List.finRange n).map v) := by
  induction n with
  | zero => simp [bytesOfWords]
  | succ n ih =>
    intro v out
    have hi := ih (fun k => v k.castSucc) out
    simp only [List.finRange_succ_last, List.foldl_append, List.foldl_map, List.foldl_cons,
      List.foldl_nil, Fin.val_castSucc, Fin.val_last, hi, List.map_append, List.map_map,
      List.map_cons, List.map_nil, bytesOfWords_append]
    rw [outWrite_at_end _ 8 _ (by simp [length_bytesOfWords]), List.append_assoc]
    simp [bytesOfWords, Function.comp_def]

/-- One-byte writes one after another, of the first `r`. -/
theorem foldl_outWrite_bytes (r n : Nat) :
    ∀ (v : Fin n → Byte) (out : List Byte),
      (List.finRange n).foldl
          (fun o q => if q.val < r then outWrite o (out.length + q.val) 1 ((v q).setWidth 64) else o)
          out =
        out ++ ((List.finRange n).map v).take r := by
  have hbyte : ∀ b : Byte, leBytes (b.setWidth 64) 1 = [b] := by
    intro b
    simp only [leBytes, List.range_one, List.map_cons, List.map_nil, byteAt]
    congr 1
    exact BitVec.eq_of_toNat_eq (by simp; omega)
  induction n with
  | zero => simp
  | succ n ih =>
    intro v out
    have hi := ih (fun k => v k.castSucc) out
    simp only [List.finRange_succ_last, List.foldl_append, List.foldl_map, List.foldl_cons,
      List.foldl_nil, Fin.val_castSucc, Fin.val_last, hi, List.map_append, List.map_map,
      List.map_cons, List.map_nil]
    split
    next hr =>
      rw [List.take_of_length_le (by simp; omega), List.take_of_length_le (by simp; omega),
        outWrite_at_end _ 1 _ (by simp), hbyte, List.append_assoc]
      rfl
    next hr =>
      rw [List.take_append_of_le_length (by simp; omega)]
      rfl

theorem outWriteBlock_at_end (out : List Byte) (off : Nat) (b : Block) (h : out.length = off) :
    outWriteBlock out off b = out ++ blockBytes b := by
  subst h
  have hb : (List.finRange 8).map (fun k => b[k]) = b.toList :=
    List.ext_getElem (by simp) (by simp)
  rw [outWriteBlock, foldl_outWrite_words 8 (fun k => b[k]) out, hb, blockBytes]

theorem outWritePrefix_at_end (out : List Byte) (off r : Nat) (b : Block) (h : out.length = off) :
    outWritePrefix out off r b = out ++ (blockBytes b).take r := by
  subst h
  rw [outWritePrefix, foldl_outWrite_bytes r 64 (blockByte b) out, map_blockByte_finRange]

end Sys2Proof.EngineProofs
end

