-- ==== Sys2Proof/Proofs/BlockSteps.lean ====
section
/-! SUPPORT. Block steps in a row, the common content of BULK, DISCARD and successive draws (43_engine.md R174):
what they deliver in each engine, and how the bulk fill and the skip are made of them. -/

namespace Sys2Proof.EngineProofs

open Sys2Proof.Machine

variable {α β γ : Type}

theorem andThen_assoc (r : Run α) (k : α → State → Run β) (l : β → State → Run γ) :
    (r.andThen k).andThen l = r.andThen fun a s => (k a s).andThen l := by
  cases r <;> rfl

theorem andThen_pure (r : Run α) : (r.andThen fun a t => .done a t) = r := by cases r <;> rfl

/-- `m` block steps in a row (R171), with the blocks they deliver in order. -/
def genBlocks (c : Cfg) (e : Engine) (m : Nat) (s : State) : Run (List Block) :=
  match m with
  | 0 => .done [] s
  | m + 1 =>
    (genBlock c e s).andThen fun blk t =>
      (genBlocks c e m t).andThen fun blks u => .done (blk :: blks) u

@[simp] theorem genBlocks_zero (c : Cfg) (e : Engine) (s : State) :
    genBlocks c e 0 s = .done [] s := rfl

theorem genBlocks_succ (c : Cfg) (e : Engine) (m : Nat) (s : State) :
    genBlocks c e (m + 1) s =
      (genBlock c e s).andThen fun blk t =>
        (genBlocks c e m t).andThen fun blks u => .done (blk :: blks) u := rfl

/-- The last of the block steps, taken apart from the ones before it. -/
theorem genBlocks_succ_last (c : Cfg) (e : Engine) (m : Nat) :
    ∀ s : State, genBlocks c e (m + 1) s =
      (genBlocks c e m s).andThen fun blks t =>
        (genBlock c e t).andThen fun blk u => .done (blks ++ [blk]) u := by
  induction m with
  | zero => intro s; rw [genBlocks_succ]; rfl
  | succ m ih =>
    intro s
    rw [genBlocks_succ, genBlocks_succ]
    simp only [ih, andThen_assoc, andThen_done]
    rfl

/-- LPE renders the blocks of the advanced counters and never faults (R174, R201). -/
theorem genBlocks_lpe (c : Cfg) (m : Nat) (s : State) :
    genBlocks c .lpe m s =
      .done ((List.range m).map fun b => renderLpe c ((advanceByOne c)^[b + 1] s.ctr))
        { s with ctr := (advanceByOne c)^[m] s.ctr } := by
  induction m with
  | zero => rfl
  | succ m ih =>
    rw [genBlocks_succ_last, ih, andThen_done, genBlock_lpe, andThen_done, List.range_succ,
      List.map_append, List.map_singleton]
    simp only [Function.iterate_succ_apply']

theorem toNat_add_ofNat (w : Word) (m : Nat) (h : w.toNat + m < 2 ^ 64) :
    (w + BitVec.ofNat 64 m).toNat = w.toNat + m := by
  rw [BitVec.toNat_add, BitVec.toNat_ofNat]; omega

theorem add_ofNat_succ (w : Word) (m : Nat) :
    w + BitVec.ofNat 64 m + 1 = w + BitVec.ofNat 64 (m + 1) := by
  rw [BitVec.ofNat_add, BitVec.add_assoc]; rfl

/-- One more block step from `w` wraps the counter exactly at its last value (R221). -/
theorem add_one_eq_zero_iff (w : Word) : w + 1 = 0 ↔ 2 ^ 64 ≤ w.toNat + 1 := by
  have hw := w.isLt
  constructor
  · intro h
    have h0 : (w + 1).toNat = 0 := congrArg BitVec.toNat h
    rw [BitVec.toNat_add, toNat_one] at h0
    omega
  · intro h
    refine BitVec.eq_of_toNat_eq ?_
    rw [BitVec.toNat_add, toNat_one, show w.toNat + 1 = 2 ^ 64 by omega]
    rfl

/-- CE renders the blocks of the counters from the present one on, and is exhausted exactly when the block
steps wrap the counter (R174, R221, R223). -/
theorem genBlocks_ce (c : Cfg) (m : Nat) (s : State) :
    genBlocks c .ce m s =
      if s.ce.ctr.toNat + m < 2 ^ 64 then
        .done ((List.range m).map fun b =>
            keystreamBlock s.ce.key s.ce.nonce (s.ce.ctr + BitVec.ofNat 64 b))
          { s with ce := { s.ce with ctr := s.ce.ctr + BitVec.ofNat 64 m } }
      else .raised .keystreamExhausted { s with ce := exhaustCe s.ce } := by
  induction m with
  | zero => rw [if_pos (by have := s.ce.ctr.isLt; omega)]; simp
  | succ m ih =>
    rw [genBlocks_succ_last, ih]
    by_cases hm : s.ce.ctr.toNat + m < 2 ^ 64
    · have hlast := add_one_eq_zero_iff (s.ce.ctr + BitVec.ofNat 64 m)
      rw [toNat_add_ofNat _ _ hm] at hlast
      rw [if_pos hm, andThen_done, genBlock_ce]
      by_cases hw : s.ce.ctr.toNat + (m + 1) < 2 ^ 64
      · rw [if_neg (by rw [hlast]; omega), if_pos hw, andThen_done, List.range_succ,
          List.map_append, List.map_singleton, add_ofNat_succ]
      · rw [if_pos (hlast.mpr (by omega)), if_neg hw]
        rfl
    · rw [if_neg hm, if_neg (by omega)]
      rfl

theorem genBlock_ce_last (c : Cfg) (s : State) (h : s.ce.ctr + 1 = 0) :
    genBlock c .ce s = .raised .keystreamExhausted { s with ce := exhaustCe s.ce } := by
  rw [genBlock_ce, if_pos h]

theorem genBlock_ce_more (c : Cfg) (s : State) (h : ¬ s.ce.ctr + 1 = 0) :
    genBlock c .ce s =
      .done (keystreamBlock s.ce.key s.ce.nonce s.ce.ctr)
        { s with ce := { s.ce with ctr := s.ce.ctr + 1 } } := by
  rw [genBlock_ce, if_neg h]

/-! Block steps neither read nor write the buffer and the cursor. -/

theorem genBlock_setBuf (c : Cfg) (e : Engine) (s : State) (b : Block) :
    genBlock c e (setBuf e s b) =
      (genBlock c e s).andThen fun blk t => .done blk (setBuf e t b) := by
  cases e with
  | lpe =>
    simp only [genBlock_lpe, andThen_done, setBuf_lpe_ctr]
    generalize advanceByOne c s.ctr = S
    rfl
  | ce =>
    by_cases h : s.ce.ctr + 1 = 0
    · rw [genBlock_ce_last c s h, genBlock_ce_last c (setBuf .ce s b) h]; rfl
    · rw [genBlock_ce_more c s h, genBlock_ce_more c (setBuf .ce s b) h]; rfl

theorem genBlock_setCur (c : Cfg) (e : Engine) (s : State) (v : Fin 9) :
    genBlock c e (setCur e s v) =
      (genBlock c e s).andThen fun blk t => .done blk (setCur e t v) := by
  cases e with
  | lpe =>
    simp only [genBlock_lpe, andThen_done, setCur_lpe_ctr]
    generalize advanceByOne c s.ctr = S
    rfl
  | ce =>
    by_cases h : s.ce.ctr + 1 = 0
    · rw [genBlock_ce_last c s h, genBlock_ce_last c (setCur .ce s v) h]; rfl
    · rw [genBlock_ce_more c s h, genBlock_ce_more c (setCur .ce s v) h]; rfl

theorem genBlocks_setBuf (c : Cfg) (e : Engine) (m : Nat) (b : Block) :
    ∀ s : State, genBlocks c e m (setBuf e s b) =
      (genBlocks c e m s).andThen fun blks t => .done blks (setBuf e t b) := by
  induction m with
  | zero => exact fun s => rfl
  | succ m ih =>
    intro s
    simp only [genBlocks_succ, genBlock_setBuf, andThen_assoc, andThen_done, ih]

/-- A block step that delivers leaves the buffer and the cursor. -/
theorem genBlock_done {c : Cfg} {e : Engine} {s t : State} {blk : Block}
    (h : genBlock c e s = .done blk t) : bufOf e t = bufOf e s ∧ curOf e t = curOf e s := by
  cases e with
  | lpe => rw [genBlock_lpe] at h; cases h; simp [bufOf, curOf]
  | ce =>
    rw [genBlock_ce] at h
    split at h
    · cases h
    · cases h; exact ⟨rfl, rfl⟩

theorem genBlocks_done {c : Cfg} {e : Engine} {m : Nat} {s t : State} {blks : List Block}
    (h : genBlocks c e m s = .done blks t) :
    blks.length = m ∧ bufOf e t = bufOf e s ∧ curOf e t = curOf e s := by
  cases e with
  | lpe => rw [genBlocks_lpe] at h; cases h; simp [bufOf, curOf]
  | ce =>
    rw [genBlocks_ce] at h
    split at h
    · cases h; simp [bufOf, curOf]
    · cases h

/-! The bulk fill (R175). -/

/-- The whole-block loop appends the bytes of its blocks. -/
theorem bulkBlocks_eq (c : Cfg) (e : Engine) (m : Nat) :
    ∀ (out : List Byte) (off : Nat) (s : State), out.length = off →
      bulkBlocks c e m off out s =
        (genBlocks c e m s).andThen fun blks t => .done (out ++ blks.flatMap blockBytes) t := by
  induction m with
  | zero => intro out off s h; simp [bulkBlocks]
  | succ m ih =>
    intro out off s h
    simp only [bulkBlocks, genBlocks_succ, andThen_assoc, andThen_done]
    congr 1
    funext blk t
    rw [ih _ _ _ (by rw [outWriteBlock_at_end _ _ _ h]; simp [h]), outWriteBlock_at_end _ _ _ h]
    simp only [List.flatMap_cons, List.append_assoc]

/-- The bulk fill is `ceil(n/64)` block steps and the first `n` bytes of their blocks. -/
theorem bulkFill_eq (c : Cfg) (e : Engine) (n : Nat) (s : State) :
    bulkFill c e n s =
      (genBlocks c e ((n + 63) / 64) s).andThen fun blks t =>
        .done ((blks.flatMap blockBytes).take n) t := by
  have hlen := length_flatMap_of_length blockBytes 64 length_blockBytes
  rw [bulkFill, bulkBlocks_eq c e _ [] 0 s rfl, andThen_assoc]
  simp only [andThen_done, List.nil_append]
  by_cases hr : n % 64 > 0
  · rw [show (n + 63) / 64 = n / 64 + 1 by omega, genBlocks_succ_last, andThen_assoc]
    cases hb : genBlocks c e (n / 64) s with
    | raised f t => rfl
    | done blks t =>
      have hl := (genBlocks_done hb).1
      simp only [andThen_done, if_pos hr, andThen_assoc]
      congr 1
      funext blk u
      rw [outWritePrefix_at_end _ _ _ _ (by rw [hlen, hl]), List.flatMap_append,
        List.flatMap_singleton, List.take_append,
        List.take_of_length_le (l := blks.flatMap blockBytes) (by rw [hlen, hl]; omega), hlen, hl,
        show n - 64 * (n / 64) = n % 64 by omega]
  · rw [show (n + 63) / 64 = n / 64 by omega]
    cases hb : genBlocks c e (n / 64) s with
    | raised f t => rfl
    | done blks t =>
      have hl := (genBlocks_done hb).1
      simp only [andThen_done, if_neg hr]
      rw [List.take_of_length_le (by rw [hlen, hl]; omega)]

/-! Discarding (R177). -/

/-- The fast multi-block advance is that many block steps with the blocks dropped (R202, R222). -/
theorem skipBlocks_eq (c : Cfg) (e : Engine) (m : Nat) (h : m < 2 ^ 64) (s : State) :
    skipBlocks c e m s = (genBlocks c e m s).andThen fun _ t => .done () t := by
  cases e with
  | lpe => rw [genBlocks_lpe, andThen_done, skipBlocks, advanceByScalar_eq_iterate c m h]
  | ce =>
    rw [genBlocks_ce]
    simp only [skipBlocks, skipBlocksCe, exhaust]
    by_cases hm : s.ce.ctr.toNat + m < 2 ^ 64
    · rw [if_neg (by omega), if_pos hm]; rfl
    · rw [if_pos (by omega), if_neg hm]; rfl

/-- A discard within the buffer moves the cursor only. -/
theorem discardWords_within (c : Cfg) (e : Engine) (n : Nat) (s : State)
    (h : n ≤ 8 - (curOf e s).val) :
    discardWords c e n s = .done () (setCur e s (Fin.ofNat 9 ((curOf e s).val + n))) := by
  simp only [discardWords, if_pos h]

/-- A discard beyond the buffer is the block steps of the whole blocks, and one more block step, stored in
the buffer, when words of one more block are skipped. -/
theorem discardWords_beyond (c : Cfg) (e : Engine) (n m : Nat) (s : State) (hn : n < 2 ^ 64)
    (h : ¬ n ≤ 8 - (curOf e s).val) (hm : n - (8 - (curOf e s).val) = m) :
    discardWords c e n s =
      (genBlocks c e (m / 8) (setCur e s 8)).andThen fun _ t =>
        if m % 8 > 0 then
          (genBlock c e t).andThen fun blk u =>
            .done () (setCur e (setBuf e u blk) (Fin.ofNat 9 (m % 8)))
        else .done () t := by
  have hskip :
      (if m / 8 > 0 then skipBlocks c e (m / 8) (setCur e s 8) else .done () (setCur e s 8)) =
      (genBlocks c e (m / 8) (setCur e s 8)).andThen fun _ t => .done () t := by
    split
    next => exact skipBlocks_eq c e (m / 8) (by omega) _
    next h0 => rw [show m / 8 = 0 by omega]; rfl
  have hrefill : ∀ t,
      ((refill c e t).andThen fun _ u => Run.done () (setCur e u (Fin.ofNat 9 (m % 8)))) =
      (genBlock c e t).andThen fun blk u =>
        .done () (setCur e (setBuf e u blk) (Fin.ofNat 9 (m % 8))) := by
    intro t
    simp only [refill, andThen_assoc, andThen_done]
    cases e <;> rfl
  simp only [discardWords, if_neg h, hm, hskip, hrefill, andThen_assoc, andThen_done]

end Sys2Proof.EngineProofs
end

