-- ==== Sys2Proof/Proofs/EngineCommands.lean ====
section
/-! PROOFS. The engine commands one by one (43_engine.md R170 to R180): the statements on readiness, NEXT, BULK,
DISCARD and the jumps. -/

namespace Sys2Proof.EngineProofs

open Sys2Proof.Machine

/-! The arms of the dispatch that give the engine commands their meanings. -/

theorem exec_next (e : Engine) (s : State) :
    exec (.next e) s = .next (nextCommand Config.cfg e s) := rfl

theorem exec_bulk (e : Engine) (n : Word) (s : State) :
    exec (.bulk e n) s = .next (bulkCommand Config.cfg e n s) := rfl

theorem exec_discard (e : Engine) (n : Word) (s : State) :
    exec (.discard e n) s = .next (discardCommand Config.cfg e n s) := rfl

theorem exec_jump (e : Engine) (s : State) :
    exec (.jump e) s = .next (jumpCommand Config.cfg e false s) := rfl

theorem exec_ljump (e : Engine) (s : State) :
    exec (.ljump e) s = .next (jumpCommand Config.cfg e true s) := rfl

theorem exec_unbiased (e : Engine) (lo hi : Word) (s : State) :
    exec (.unbiased e lo hi) s = unbiasedCommand Config.cfg e lo hi s := rfl

/-! Readiness (R170). -/

theorem notReady_of_unseeded (e : Engine) (s : State) (h : seededOf e s = false) :
    notReady e s = some .notSeeded := by
  cases e with
  | lpe => simp [notReady_lpe, show s.lpe.seeded = false from h]
  | ce => simp [notReady, show s.ce.seeded = false from h]

theorem notReady_ce_of_exhausted (s : State) (hs : s.ce.seeded = true) (hx : s.ce.exh = true) :
    notReady .ce s = some .keystreamExhausted := by simp [notReady, hs, hx]

theorem notReady_lpe_of_seeded (s : State) (h : s.lpe.seeded = true) : notReady .lpe s = none := by
  simp [notReady_lpe, h]

theorem notReady_ce_of_seeded (s : State) (hs : s.ce.seeded = true) (hx : s.ce.exh = false) :
    notReady .ce s = none := (notReady_ce_eq_none s).mpr ⟨hs, hx⟩

/-- Every engine command of an engine that is not ready is its fault. -/
theorem exec_of_notReady (e : Engine) (i : Instr) (s : State) (f : FaultCode)
    (hi : isEngineCommand e i = true) (hf : notReady e s = some f) :
    exec i s = .next (raiseFault s f) := by
  have hfault : ∀ k : State → Run (List Word), (whenReady e s k).settle = raiseFault s f := by
    intro k
    rw [whenReady_of_fault e s k f hf, settle_raised]
  cases i <;> simp only [isEngineCommand, beq_iff_eq, Bool.false_eq_true] at hi
  case next => rw [hi, exec_next, nextCommand, hfault]
  case bulk => rw [hi, exec_bulk, bulkCommand, hfault]
  case discard => rw [hi, exec_discard, discardCommand, hfault]
  case jump => rw [hi, exec_jump, jumpCommand, hfault]
  case ljump => rw [hi, exec_ljump, jumpCommand, hfault]
  case unbiased =>
    simp only [hi, exec_unbiased, unbiasedCommand, sample, hf, andThen_raised, settle_raised]

/-- Settles O22: the readiness check is the first thing each engine command does. -/
theorem unreadyEngineCommandsFault : Obligations.UnreadyEngineCommandsFault := by
  unfold Obligations.UnreadyEngineCommandsFault
  intro e i s hi
  refine ⟨fun hs => exec_of_notReady e i s _ hi (notReady_of_unseeded e s hs), ?_⟩
  rintro rfl hs hx
  exact exec_of_notReady .ce i s _ hi (notReady_ce_of_exhausted s hs hx)

/-! The commands of a ready engine: their own rules, settled. -/

theorem exec_next_of_ready (e : Engine) (s : State) (h : notReady e s = none) :
    exec (.next e) s =
      .next ((drawWord Config.cfg e s).andThen fun w t => .done [w] t).settle := by
  rw [exec_next, nextCommand, whenReady_of_ready _ _ _ h]

theorem exec_bulk_of_ready (e : Engine) (n : Word) (s : State) (h : notReady e s = none) :
    exec (.bulk e n) s =
      .next ((genBlocks Config.cfg e ((n.toNat + 63) / 64) s).andThen fun blks t =>
        .done (packBytes ((blks.flatMap blockBytes).take n.toNat)) (setCur e t 8)).settle := by
  rw [exec_bulk, bulkCommand, whenReady_of_ready _ _ _ h, bulkFill_eq, andThen_assoc]
  rfl

theorem exec_discard_of_ready (e : Engine) (n : Word) (s : State) (h : notReady e s = none) :
    exec (.discard e n) s =
      .next ((discardWords Config.cfg e n.toNat s).andThen fun _ t => .done [] t).settle := by
  rw [exec_discard, discardCommand, whenReady_of_ready _ _ _ h]

/-! NEXT (R173). -/

/-- Below cursor 8, moving the cursor on by one does not wrap it. -/
theorem cursor_add_one (v : Fin 9) (h : v.val < 8) : v + 1 = ⟨v.val + 1, by omega⟩ := by
  refine Fin.ext ?_
  have h1 : (1 : Fin 9).val = 1 := rfl
  rw [Fin.val_add, h1, Nat.mod_eq_of_lt (by omega)]

theorem drawWord_below_eight (c : Cfg) (e : Engine) (s : State) (h : (curOf e s).val < 8) :
    drawWord c e s =
      .done ((bufOf e s)[(curOf e s).val]) (setCur e s ⟨(curOf e s).val + 1, by omega⟩) := by
  rw [drawWord_buffered c e s h, cursor_add_one _ h]

/-- Settles O23: a draw with words in the buffer, in each engine. -/
theorem nextDeliversTheBufferedWord : Obligations.NextDeliversTheBufferedWord := by
  unfold Obligations.NextDeliversTheBufferedWord
  constructor
  · intro s h hs
    rw [exec_next_of_ready _ _ (notReady_lpe_of_seeded s hs), drawWord_below_eight _ .lpe s h, ← hs]
    rfl
  · intro s h hs hx
    rw [exec_next_of_ready _ _ (notReady_ce_of_seeded s hs hx), drawWord_below_eight _ .ce s h]
    rfl

/-- Settles O24: a draw from an empty buffer is one block step, in each engine's own order. -/
theorem nextRefillsAnEmptyBuffer : Obligations.NextRefillsAnEmptyBuffer := by
  unfold Obligations.NextRefillsAnEmptyBuffer
  refine ⟨?_, ?_, ?_⟩
  · intro s hs hc
    refine ⟨advanceByOne Config.cfg s.ctr, renderLpe Config.cfg (advanceByOne Config.cfg s.ctr), ?_,
      valLimbs_eq_mod (valLimbs_advanceByOne _ _), ?_⟩
    · rw [exec_next_of_ready _ _ (notReady_lpe_of_seeded s hs), drawWord_empty _ .lpe s hc,
        genBlock_lpe, ← hs]
      generalize advanceByOne Config.cfg s.ctr = S
      rfl
    · intro k
      simp [renderLpe]
  · intro s hs hx hc hlast
    have hmore : ¬ s.ce.ctr + 1 = 0 := by
      intro h0
      exact hlast (by bv_omega)
    rw [exec_next_of_ready _ _ (notReady_ce_of_seeded s hs hx), drawWord_empty _ .ce s hc,
      genBlock_ce_more _ s hmore]
    rfl
  · intro s hs hx hc hlast
    have h0 : s.ce.ctr + 1 = 0 := by rw [hlast]; rfl
    rw [exec_next_of_ready _ _ (notReady_ce_of_seeded s hs hx), drawWord_empty _ .ce s hc,
      genBlock_ce_last _ s h0]
    rfl

/-! BULK (R175). -/

/-- Settles O25: the bulk fill as block steps of LPE, which never fault. -/
theorem bulkLpeReturnsTheNextBlocks : Obligations.BulkLpeReturnsTheNextBlocks := by
  unfold Obligations.BulkLpeReturnsTheNextBlocks
  intro n s hs
  refine ⟨_, length_take_blocks
      (fun b => renderLpe Config.cfg ((advanceByOne Config.cfg)^[b + 1] s.ctr)) n.toNat,
    fun q h => getElem_take_blocks _ _ _ q h, ?_⟩
  rw [exec_bulk_of_ready _ _ _ (notReady_lpe_of_seeded s hs), genBlocks_lpe, ← hs]
  generalize (advanceByOne Config.cfg)^[(n.toNat + 63) / 64] s.ctr = S
  rfl

/-- Settles O26: the bulk fill as block steps of CE, which all succeed or exhaust the engine. -/
theorem bulkCeReturnsTheNextBlocks : Obligations.BulkCeReturnsTheNextBlocks := by
  unfold Obligations.BulkCeReturnsTheNextBlocks
  intro n s hs hx
  have hready := notReady_ce_of_seeded s hs hx
  constructor
  · intro hfits
    refine ⟨_, length_take_blocks
        (fun b => keystreamBlock s.ce.key s.ce.nonce (s.ce.ctr + BitVec.ofNat 64 b)) n.toNat,
      fun q h => getElem_take_blocks _ _ _ q h, ?_⟩
    rw [exec_bulk_of_ready _ _ _ hready, genBlocks_ce, if_pos hfits]
    rfl
  · intro hwraps
    rw [exec_bulk_of_ready _ _ _ hready, genBlocks_ce, if_neg (by omega)]
    rfl

/-! DISCARD (R177). -/

/-- Settles O28, by the three cases of the discard. -/
theorem discardLpeSkipsExactly : Obligations.DiscardLpeSkipsExactly := by
  unfold Obligations.DiscardLpeSkipsExactly
  intro n s hs left m S
  rw [exec_discard_of_ready _ _ _ (notReady_lpe_of_seeded s hs)]
  by_cases hn : n.toNat ≤ left
  · rw [if_pos hn, discardWords_within _ .lpe _ s hn, ← hs]
    rfl
  · rw [if_neg hn, discardWords_beyond _ .lpe n.toNat m s n.isLt hn rfl, genBlocks_lpe, andThen_done,
      setCur_lpe_ctr]
    by_cases hm : m % 8 = 0
    · rw [if_pos hm, if_neg (by omega), ← hs]
      dsimp only [S]
      generalize (advanceByOne Config.cfg)^[m / 8] s.ctr = T
      rfl
    · rw [if_neg hm, if_pos (by omega), genBlock_lpe, ← hs]
      dsimp only [S]
      generalize (advanceByOne Config.cfg)^[m / 8] s.ctr = T
      generalize advanceByOne Config.cfg T = U
      rfl

/-- Settles O29, by the cases of the discard: the block steps of the whole blocks may wrap the counter, or
the one more block step may. -/
theorem discardCeSkipsExactly : Obligations.DiscardCeSkipsExactly := by
  unfold Obligations.DiscardCeSkipsExactly
  intro n s hs hx left m c
  rw [exec_discard_of_ready _ _ _ (notReady_ce_of_seeded s hs hx)]
  by_cases hn : n.toNat ≤ left
  · rw [if_pos hn, discardWords_within _ .ce _ s hn]
    rfl
  rw [if_neg hn, discardWords_beyond _ .ce n.toNat m s n.isLt hn rfl, genBlocks_ce, setCur_ce_ce]
  by_cases hskip : s.ce.ctr.toNat + m / 8 < 2 ^ 64
  · rw [if_pos hskip, andThen_done]
    by_cases hm : m % 8 = 0
    · rw [if_neg (by omega : ¬ m % 8 > 0), if_neg (by omega), if_pos hm]
      rfl
    · have hlast := add_one_eq_zero_iff c
      rw [toNat_add_ofNat _ _ hskip] at hlast
      rw [if_pos (by omega : m % 8 > 0), if_neg hm]
      by_cases hwraps : c + 1 = 0
      · rw [if_pos (by rw [hlast] at hwraps; omega), genBlock_ce_last _ _ hwraps]
        rfl
      · rw [if_neg (by rw [hlast] at hwraps; omega), genBlock_ce_more _ _ hwraps]
        rfl
  · rw [if_neg hskip, if_pos (by omega)]
    rfl

/-! JUMP and LJUMP (R179, R180). -/

/-- A CE jump is the discard of its number of words. -/
theorem jumpCommand_ce (c : Cfg) (long : Bool) (n : Word) (h : n.toNat = ceJumpWords long)
    (s : State) : jumpCommand c .ce long s = discardCommand c .ce n s := by
  rw [jumpCommand, discardCommand, h]
  rfl

theorem jumpCommand_lpe (c : Cfg) (long : Bool) (s : State) (hs : s.lpe.seeded = true) :
    jumpCommand c .lpe long s =
      { s with
        ctr := bigJump c (jumpStepOf c long) s.ctr,
        lpe := { buf := s.lpe.buf, cur := 8, seeded := true },
        response := some ⟨.ok, []⟩ } := by
  rw [jumpCommand, whenReady_of_ready _ _ _ (notReady_lpe_of_seeded s hs), jumpEngine, jumpLpe, ← hs]
  generalize bigJump c (jumpStepOf c long) s.ctr = S
  rfl

/-- Settles O31: the CE jumps are discards, the LPE jumps the big-integer jump of CTR_JUMP. -/
theorem jumpsSkipTheirStride : Obligations.JumpsSkipTheirStride := by
  unfold Obligations.JumpsSkipTheirStride
  refine ⟨fun s => ⟨?_, ?_⟩, fun s hs => ⟨_, ?_, valLimbs_eq_mod (valLimbs_bigJump _ _ _)⟩,
    fun s hs => ⟨_, ?_, valLimbs_eq_mod (valLimbs_bigJump _ _ _)⟩⟩
  · rw [exec_jump, exec_discard, jumpCommand_ce _ false 0x100000000 (by decide)]
  · rw [exec_ljump, exec_discard, jumpCommand_ce _ true 0x1000000000000 (by decide)]
  · rw [exec_jump, jumpCommand_lpe _ false s hs]; rfl
  · rw [exec_ljump, jumpCommand_lpe _ true s hs]; rfl

end Sys2Proof.EngineProofs
end

