-- ==== Sys2Proof/Proofs/SuccessiveDraws.lean ====
section
/-! SUPPORT. Successive raw draws (43_engine.md R173, R174, R260): within the buffer, over block steps from an
empty buffer, and as NEXT commands. -/

namespace Sys2Proof.EngineProofs

open Sys2Proof.Machine

variable {α β : Type}

theorem drawWords_succ (c : Cfg) (e : Engine) (k : Nat) (s : State) :
    drawWords c e (k + 1) s =
      (drawWord c e s).andThen fun w t =>
        (drawWords c e k t).andThen fun ws u => .done (w :: ws) u := rfl

/-- Draws are draws, then more draws. -/
theorem drawWords_add (c : Cfg) (e : Engine) (a b : Nat) :
    ∀ s : State, drawWords c e (a + b) s =
      (drawWords c e a s).andThen fun ws t =>
        (drawWords c e b t).andThen fun vs u => .done (ws ++ vs) u := by
  induction a with
  | zero => intro s; rw [Nat.zero_add]; exact (andThen_pure _).symm
  | succ a ih =>
    intro s
    rw [show a + 1 + b = a + b + 1 by omega, drawWords_succ, drawWords_succ]
    simp only [ih, andThen_assoc, andThen_done, List.cons_append]

theorem drawWords_holds (c : Cfg) (e : Engine) (k : Nat) :
    ∀ s : State, (drawWords c e k s).Holds (fun _ t => keepsOutside e s t) (exhaustsFrom e s) := by
  induction k with
  | zero => exact fun s => keepsOutside_refl e s
  | succ k ih =>
    exact fun s => andThen_holds (drawWord_holds c e s) fun w t h =>
      holds_after h (andThen_holds (ih t) fun _ _ h' => h')

/-! Draws and block steps. -/

theorem setCur_setCur (e : Engine) (s : State) (v w : Fin 9) :
    setCur e (setCur e s v) w = setCur e s w := by cases e <;> rfl

theorem setBuf_setBuf (e : Engine) (s : State) (a b : Block) :
    setBuf e (setBuf e s a) b = setBuf e s b := by cases e <;> rfl

theorem setCur_curOf (e : Engine) (s : State) : setCur e s (curOf e s) = s := by cases e <;> rfl

theorem setBuf_bufOf (e : Engine) (s : State) : setBuf e s (bufOf e s) = s := by cases e <;> rfl

/-- Draws within the buffer return its words from the cursor on and move the cursor only. -/
theorem drawWords_within (c : Cfg) (e : Engine) (k : Nat) :
    ∀ s : State, (curOf e s).val + k ≤ 8 →
      drawWords c e k s =
        .done (((bufOf e s).toList.drop (curOf e s).val).take k)
          (setCur e s (Fin.ofNat 9 ((curOf e s).val + k))) := by
  induction k with
  | zero =>
    intro s _
    have hv : Fin.ofNat 9 ((curOf e s).val + 0) = curOf e s :=
      Fin.ext (Nat.mod_eq_of_lt (curOf e s).isLt)
    rw [hv, setCur_curOf, List.take_zero]
    rfl
  | succ k ih =>
    intro s h
    have hlt : (curOf e s).val < (bufOf e s).toList.length := by simp; omega
    rw [drawWords_succ, drawWord_below_eight c e s (by omega), andThen_done,
      ih _ (by rw [curOf_setCur]; simp only; omega), andThen_done, curOf_setCur, bufOf_setCur,
      setCur_setCur, List.drop_eq_getElem_cons hlt, List.take_succ_cons, Vector.getElem_toList,
      Nat.add_assoc, Nat.add_comm 1 k]

/-- Draws from an empty buffer of up to eight words are one block step. -/
theorem drawWords_oneBlock (c : Cfg) (e : Engine) (k : Nat) (s : State) (h : curOf e s = 8)
    (hpos : 0 < k) (hk : k ≤ 8) :
    drawWords c e k s =
      (genBlock c e s).andThen fun blk t =>
        .done (blk.toList.take k) (setCur e (setBuf e t blk) (Fin.ofNat 9 k)) := by
  obtain ⟨j, rfl⟩ : ∃ j, k = j + 1 := ⟨k - 1, by omega⟩
  rw [drawWords_succ, drawWord_empty c e s h, andThen_assoc]
  congr 1
  funext blk t
  have h1 : ((1 : Fin 9) : Nat) = 1 := rfl
  have hlt : 0 < blk.toList.length := by simp
  rw [andThen_done, drawWords_within c e j _ (by rw [curOf_setCur, h1]; omega), andThen_done,
    curOf_setCur, bufOf_setCur, bufOf_setBuf, setCur_setCur, h1, Nat.add_comm 1 j]
  conv_rhs => rw [← List.drop_zero (l := blk.toList), List.drop_eq_getElem_cons hlt,
    List.take_succ_cons, Vector.getElem_toList]

/-- Draws from an empty buffer are `m = ceil(k/8)` block steps; they return the first `k` words of the blocks
and leave the last block in the buffer, the cursor behind the last word drawn. -/
theorem drawWords_empty (c : Cfg) (e : Engine) (m : Nat) :
    ∀ (k : Nat) (s : State), curOf e s = 8 → k ≤ 8 * m → 8 * m < k + 8 →
      drawWords c e k s =
        (genBlocks c e m s).andThen fun blks t =>
          .done ((blks.flatMap Vector.toList).take k)
            (setCur e (setBuf e t (blks.getLastD (bufOf e s))) (Fin.ofNat 9 (k + 8 - 8 * m))) := by
  induction m with
  | zero =>
    intro k s h hk _
    obtain rfl : k = 0 := by omega
    have h8 : Fin.ofNat 9 (0 + 8 - 8 * 0) = curOf e s := h.symm
    rw [genBlocks_zero, andThen_done, List.getLastD_nil, setBuf_bufOf, h8, setCur_curOf,
      List.take_zero]
    rfl
  | succ m ih =>
    intro k s h hk hlt
    rw [genBlocks_succ, andThen_assoc]
    by_cases hk8 : k ≤ 8
    · obtain rfl : m = 0 := by omega
      rw [drawWords_oneBlock c e k s h (by omega) hk8]
      simp
    · obtain ⟨j, rfl⟩ : ∃ j, k = 8 + j := ⟨k - 8, by omega⟩
      rw [drawWords_add, drawWords_oneBlock c e 8 s h (by omega) (by omega), andThen_assoc]
      cases hb : genBlock c e s with
      | raised f t => rfl
      | done blk t =>
        have ht : curOf e t = 8 := (genBlock_done hb).2.trans h
        have hcur : setCur e (setBuf e t blk) (Fin.ofNat 9 8) = setBuf e t blk := by
          have h8 : Fin.ofNat 9 8 = curOf e (setBuf e t blk) := by rw [curOf_setBuf, ht]; rfl
          rw [h8, setCur_curOf]
        rw [andThen_done, andThen_done, andThen_done, hcur,
          ih j (setBuf e t blk) (by rw [curOf_setBuf, ht]) (by omega) (by omega),
          genBlocks_setBuf]
        simp only [andThen_assoc, andThen_done, bufOf_setBuf, setBuf_setBuf]
        congr 1
        funext blks u
        rw [List.flatMap_cons, List.take_append, Vector.length_toList,
          List.take_of_length_le (l := blk.toList) (i := 8 + j) (by simp),
          List.take_of_length_le (l := blk.toList) (i := 8) (by simp),
          List.getLastD_cons, show 8 + j - 8 = j by omega,
          show 8 + j + 8 - 8 * (m + 1) = j + 8 - 8 * m by omega]

/-! The last response has no part in a draw. -/

/-- The same run with another response standing in its states. -/
def respond (r : Option Response) (x : Run α) : Run α :=
  match x with
  | .done a t => .done a { t with response := r }
  | .raised f t => .raised f { t with response := r }

theorem respond_andThen (r : Option Response) (x : Run α) (k : α → State → Run β)
    (hk : ∀ a t, k a { t with response := r } = respond r (k a t)) :
    (respond r x).andThen k = respond r (x.andThen k) := by
  cases x with
  | done a t => exact hk a t
  | raised f t => rfl

theorem genBlock_respond (c : Cfg) (e : Engine) (s : State) (r : Option Response) :
    genBlock c e { s with response := r } = respond r (genBlock c e s) := by
  cases e with
  | lpe => simp only [genBlock_lpe, respond]
  | ce =>
    by_cases h : s.ce.ctr + 1 = 0
    · rw [genBlock_ce_last c s h, genBlock_ce_last c { s with response := r } h]; rfl
    · rw [genBlock_ce_more c s h, genBlock_ce_more c { s with response := r } h]; rfl

theorem drawWord_respond (c : Cfg) (e : Engine) (s : State) (r : Option Response) :
    drawWord c e { s with response := r } = respond r (drawWord c e s) := by
  have hcur : curOf e { s with response := r } = curOf e s := by cases e <;> rfl
  have hbuf : bufOf e { s with response := r } = bufOf e s := by cases e <;> rfl
  by_cases h8 : curOf e s = 8
  · rw [drawWord_empty c e _ h8, drawWord_empty c e _ (hcur.trans h8), genBlock_respond]
    exact respond_andThen r _ _ fun blk t => by cases e <;> rfl
  · have hlt : (curOf e s).val < 8 := by
      have := (curOf e s).isLt
      have hne : (curOf e s).val ≠ 8 := fun h' => h8 (Fin.ext h')
      omega
    rw [drawWord_below_eight c e s hlt, drawWord_below_eight c e _ (by rw [hcur]; exact hlt)]
    cases e <;> rfl

theorem drawWords_respond (c : Cfg) (e : Engine) (r : Option Response) (k : Nat) :
    ∀ s : State, drawWords c e k { s with response := r } = respond r (drawWords c e k s) := by
  induction k with
  | zero => exact fun s => rfl
  | succ k ih =>
    intro s
    rw [drawWords_succ, drawWords_succ, drawWord_respond]
    refine respond_andThen r _ _ fun w t => ?_
    rw [ih]
    exact respond_andThen r _ _ fun ws u => rfl

/-! Successive NEXT commands. -/

/-- The response of a NEXT that returns a word (R86, R173). -/
abbrev wordResponse (w : Word) : Option Response := some ⟨.ok, [w]⟩

/-- The response of a command that keystream exhaustion ends (R86, R223). -/
abbrev exhaustedResponse : Option Response := some ⟨.keystreamExhausted, []⟩

theorem runCommands_cons {i : Instr} {s t : State} (is : List Instr) (h : exec i s = .next t) :
    runCommands (i :: is) s = (runCommands is t).map fun r => (t.response :: r.1, r.2) := by
  simp only [runCommands, h]

/-- A part of a command that keeps what is outside its engine keeps it ready. -/
theorem notReady_of_keepsOutside {e : Engine} {s t : State} (h : keepsOutside e s t) :
    notReady e t = notReady e s := by
  cases e with
  | lpe =>
    obtain ⟨-, -, -, -, hseeded, -⟩ := h
    rw [notReady_lpe, notReady_lpe, hseeded]
  | ce =>
    obtain ⟨-, -, -, -, -, -, -, -, -, hseeded, hexh⟩ := h
    simp only [notReady, hseeded, hexh]

/-- NEXT commands of an exhausted engine all fault, the state unchanged. -/
theorem runCommands_next_exhausted (k : Nat) (s : State)
    (h : notReady .ce s = some .keystreamExhausted) :
    ∃ rs, runCommands (List.replicate k (.next .ce)) (raiseFault s .keystreamExhausted) =
      some (rs, raiseFault s .keystreamExhausted) := by
  induction k with
  | zero => exact ⟨[], rfl⟩
  | succ k ih =>
    obtain ⟨rs, hrs⟩ := ih
    have hexec := exec_of_notReady .ce (.next .ce) (raiseFault s .keystreamExhausted)
      .keystreamExhausted rfl h
    refine ⟨exhaustedResponse :: rs, ?_⟩
    rw [List.replicate_succ, runCommands_cons _ hexec]
    exact congrArg (Option.map _) hrs

/-- Successive NEXT commands on a ready engine are successive raw draws: each returns its word, or the draw
that exhausts the engine faults, and then all later ones do. -/
theorem runCommands_next (e : Engine) (k : Nat) :
    ∀ s : State, notReady e s = none →
      match drawWords Config.cfg e k s with
      | .done ws t => ∃ r, runCommands (List.replicate k (.next e)) s =
          some (ws.map wordResponse, { t with response := r })
      | .raised _ t => ∃ rs, exhaustedResponse ∈ rs ∧
          runCommands (List.replicate k (.next e)) s =
            some (rs, raiseFault t .keystreamExhausted) := by
  induction k with
  | zero => exact fun s _ => ⟨s.response, rfl⟩
  | succ k ih =>
    intro s hs
    have hexec := exec_next_of_ready e s hs
    have hkeep := drawWord_holds Config.cfg e s
    rw [drawWords_succ]
    cases hd : drawWord Config.cfg e s with
    | raised f t =>
      rw [hd] at hexec hkeep
      obtain ⟨rfl, rfl, rfl⟩ := hkeep
      have hseeded : s.ce.seeded = true := ((notReady_ce_eq_none s).mp hs).1
      obtain ⟨rs, hrs⟩ := runCommands_next_exhausted k { s with ce := exhaustCe s.ce }
        (notReady_ce_of_exhausted _ hseeded rfl)
      refine ⟨exhaustedResponse :: rs, List.mem_cons_self, ?_⟩
      rw [List.replicate_succ, runCommands_cons _ hexec]
      exact congrArg (Option.map _) hrs
    | done w t =>
      rw [hd] at hexec hkeep
      have hready : notReady e (complete t [w]) = none := by
        rw [show notReady e (complete t [w]) = notReady e t by cases e <;> rfl,
          notReady_of_keepsOutside hkeep, hs]
      have hrest := ih (complete t [w]) hready
      have hdraws : drawWords Config.cfg e k (complete t [w]) =
          respond (wordResponse w) (drawWords Config.cfg e k t) := drawWords_respond _ _ _ _ t
      rw [hdraws] at hrest
      rw [andThen_done, List.replicate_succ, runCommands_cons _ hexec]
      cases hk : drawWords Config.cfg e k t with
      | done ws u =>
        rw [hk] at hrest
        obtain ⟨r, hr⟩ := hrest
        exact ⟨r, congrArg (Option.map _) hr⟩
      | raised f u =>
        rw [hk] at hrest
        obtain ⟨rs, hmem, hrs⟩ := hrest
        exact ⟨wordResponse w :: rs, List.mem_cons_of_mem _ hmem, congrArg (Option.map _) hrs⟩

end Sys2Proof.EngineProofs
end

