-- ==== Sys2Proof/Proofs/EngineEquivalences.lean ====
section
/-! PROOFS. The two equivalences of the pattern: bulk bytes are successive words (43_engine.md R176), and a
discard is successive draws (R178). -/

namespace Sys2Proof.EngineProofs

open Sys2Proof.Machine

/-! BULK and NEXT (R176). -/

/-- The first `n` bytes of blocks are the first `n` bytes of their first `ceil(n/8)` words. -/
theorem take_blockBytes_eq (blks : List Block) (n : Nat) :
    (blks.flatMap blockBytes).take n =
      (bytesOfWords ((blks.flatMap Vector.toList).take ((n + 7) / 8))).take n := by
  rw [bytesOfWords_take, List.take_take, bytesOfWords_flatMap_toList,
    Nat.min_eq_left (by omega : n ≤ 8 * ((n + 7) / 8))]

/-- The draws of the words of `n` bytes, over the block steps of the bulk fill. -/
theorem drawWords_of_bytes (c : Cfg) (e : Engine) (n : Nat) (s : State) (h : curOf e s = 8) :
    drawWords c e ((n + 7) / 8) s =
      (genBlocks c e ((n + 63) / 64) s).andThen fun blks t =>
        .done ((blks.flatMap Vector.toList).take ((n + 7) / 8))
          (setCur e (setBuf e t (blks.getLastD (bufOf e s)))
            (Fin.ofNat 9 ((n + 7) / 8 + 8 - 8 * ((n + 63) / 64)))) :=
  drawWords_empty c e _ _ s h (by omega) (by omega)

/-- Buffer and cursor are outside the counters. -/
theorem counters_setCur_setBuf (e : Engine) (s : State) (b : Block) (v : Fin 9) :
    (setCur e (setBuf e s b) v).ctr = s.ctr ∧ (setCur e (setBuf e s b) v).ce.ctr = s.ce.ctr := by
  cases e <;> exact ⟨rfl, rfl⟩

theorem counters_setCur (e : Engine) (s : State) (v : Fin 9) :
    (setCur e s v).ctr = s.ctr ∧ (setCur e s v).ce.ctr = s.ce.ctr := by
  cases e <;> exact ⟨rfl, rfl⟩

/-- Settles O27: the bulk fill and the draws make the same block steps. -/
theorem bulkBytesAreNextWords : Obligations.BulkBytesAreNextWords := by
  unfold Obligations.BulkBytesAreNextWords
  constructor
  · intro c e n s h
    have hdraws := drawWords_of_bytes c e n s h
    rw [bulkFill_eq]
    cases hb : genBlocks c e ((n + 63) / 64) s with
    | raised f t => rw [hb] at hdraws; exact hdraws
    | done blks t =>
      rw [hb] at hdraws
      obtain ⟨hctr, hce⟩ := counters_setCur_setBuf e t (blks.getLastD (bufOf e s))
        (Fin.ofNat 9 ((n + 7) / 8 + 8 - 8 * ((n + 63) / 64)))
      exact ⟨_, _, hdraws, take_blockBytes_eq blks n, hctr, hce⟩
  · intro e n s hready h
    have hdraws := drawWords_of_bytes Config.cfg e n.toNat s h
    have hbulk := exec_bulk_of_ready e n s hready
    have hnext := runCommands_next e ((n.toNat + 7) / 8) s hready
    have hfault := drawWords_holds Config.cfg e ((n.toNat + 7) / 8) s
    cases hb : genBlocks Config.cfg e ((n.toNat + 63) / 64) s with
    | raised f t =>
      rw [hb] at hdraws hbulk
      rw [hdraws] at hnext hfault
      obtain ⟨-, rfl, -⟩ := hfault
      obtain ⟨rs, hmem, hrs⟩ := hnext
      exact ⟨_, _, rs, hbulk, hrs, Or.inr ⟨rfl, hmem, rfl⟩⟩
    | done blks t =>
      rw [hb] at hdraws hbulk
      rw [hdraws] at hnext
      obtain ⟨r, hr⟩ := hnext
      obtain ⟨hctr, hce⟩ := counters_setCur_setBuf e t (blks.getLastD (bufOf e s))
        (Fin.ofNat 9 ((n.toNat + 7) / 8 + 8 - 8 * ((n.toNat + 63) / 64)))
      obtain ⟨hctr', hce'⟩ := counters_setCur e t 8
      refine ⟨_, _, _, hbulk, hr, Or.inl ⟨_, rfl, ?_, hctr.trans hctr'.symm, hce.trans hce'.symm,
        curOf_setCur e t 8⟩⟩
      rw [← take_blockBytes_eq]
      rfl

/-! DISCARD and NEXT (R178). -/

theorem ctrEq_self (A : Limbs) : ctrEq A A = true := by simp [ctrEq]

/-- Another buffer is output-equivalent when no word is pending, and so is the same buffer (R36 to R38). -/
theorem outputEquivalent_setBuf (e : Engine) (s : State) (b : Block)
    (h : curOf e s = 8 ∨ b = bufOf e s) : outputEquivalent e (setBuf e s b) s := by
  have hpending : pendingWordsEq (curOf e s) b (bufOf e s) := by
    intro k hk
    rcases h with h8 | rfl
    · have h9 : (curOf e s).val = 8 := congrArg Fin.val h8
      omega
    · rfl
  cases e with
  | lpe => exact ⟨⟨ctrEq_self _, rfl, hpending⟩, rfl⟩
  | ce => exact ⟨⟨rfl, rfl, rfl, rfl, hpending⟩, rfl, rfl⟩

/-- What the draws of discarded words leave: the discard's state, but for a stale buffer at cursor 8. -/
def DrawnAsDiscarded (c : Cfg) (e : Engine) (n : Nat) (s : State) (r : Run Unit) : Prop :=
  match r with
  | .done _ t => ∃ (ws : List Word) (b : Block),
      drawWords c e n s = .done ws (setBuf e t b) ∧ (curOf e t = 8 ∨ b = bufOf e t)
  | .raised f t => drawWords c e n s = .raised f t

theorem drawnAsDiscarded_of_eq {c : Cfg} {e : Engine} {n : Nat} {s t : State} {ws : List Word}
    (h : drawWords c e n s = .done ws t) : DrawnAsDiscarded c e n s (.done () t) :=
  ⟨ws, bufOf e t, by rw [setBuf_bufOf]; exact h, Or.inr rfl⟩

theorem discardWords_drawn_within (c : Cfg) (e : Engine) (n : Nat) (s : State)
    (h : n ≤ 8 - (curOf e s).val) : DrawnAsDiscarded c e n s (discardWords c e n s) := by
  have hdraws := drawWords_within c e n s (by have := (curOf e s).isLt; omega)
  rw [discardWords_within c e n s h]
  exact drawnAsDiscarded_of_eq hdraws

/-- The draws beyond the buffer are the draws of what is left in it, then draws from an empty buffer. -/
theorem drawWords_beyond (c : Cfg) (e : Engine) (n m : Nat) (s : State)
    (h : ¬ n ≤ 8 - (curOf e s).val) (hm : n - (8 - (curOf e s).val) = m) :
    ∃ vs, drawWords c e n s =
      (drawWords c e m (setCur e s 8)).andThen fun ws u => .done (vs ++ ws) u := by
  have hcur := (curOf e s).isLt
  refine ⟨((bufOf e s).toList.drop (curOf e s).val).take (8 - (curOf e s).val), ?_⟩
  rw [show n = (8 - (curOf e s).val) + m by omega, drawWords_add,
    drawWords_within c e _ s (by omega), andThen_done,
    show (curOf e s).val + (8 - (curOf e s).val) = 8 by omega]
  rfl

theorem discardWords_drawn_beyond (c : Cfg) (e : Engine) (n : Nat) (s : State) (hn : n < 2 ^ 64)
    (h : ¬ n ≤ 8 - (curOf e s).val) : DrawnAsDiscarded c e n s (discardWords c e n s) := by
  obtain ⟨m, hm⟩ : ∃ m, n - (8 - (curOf e s).val) = m := ⟨_, rfl⟩
  obtain ⟨vs, hdraws⟩ := drawWords_beyond c e n m s h hm
  rw [drawWords_empty c e ((m + 7) / 8) m (setCur e s 8) (curOf_setCur e s 8) (by omega) (by omega)]
    at hdraws
  rw [discardWords_beyond c e n m s hn h hm]
  by_cases hr : m % 8 > 0
  · simp only [if_pos hr]
    rw [show (m + 7) / 8 = m / 8 + 1 by omega, genBlocks_succ_last] at hdraws
    cases hb : genBlocks c e (m / 8) (setCur e s 8) with
    | raised f t => rw [hb] at hdraws; exact hdraws
    | done blks t =>
      rw [hb, andThen_done] at hdraws
      rw [andThen_done]
      cases hg : genBlock c e t with
      | raised f u => rw [hg] at hdraws; exact hdraws
      | done blk u =>
        rw [hg] at hdraws
        simp only [andThen_done, List.getLastD_concat,
          show m + 8 - 8 * (m / 8 + 1) = m % 8 by omega] at hdraws
        exact drawnAsDiscarded_of_eq hdraws
  · simp only [if_neg hr]
    rw [show (m + 7) / 8 = m / 8 by omega, show m + 8 - 8 * (m / 8) = 8 by omega] at hdraws
    cases hb : genBlocks c e (m / 8) (setCur e s 8) with
    | raised f t => rw [hb] at hdraws; exact hdraws
    | done blks t =>
      rw [hb] at hdraws
      have ht : curOf e t = 8 := (genBlocks_done hb).2.2.trans (curOf_setCur e s 8)
      have hcur : ∀ b, setCur e (setBuf e t b) (Fin.ofNat 9 8) = setBuf e t b := by
        intro b
        have h8 : Fin.ofNat 9 8 = curOf e (setBuf e t b) := by rw [curOf_setBuf, ht]; rfl
        rw [h8, setCur_curOf]
      simp only [andThen_done, hcur] at hdraws
      exact ⟨_, _, hdraws, Or.inl ht⟩

theorem discardWords_drawn (c : Cfg) (e : Engine) (n : Nat) (s : State) (hn : n < 2 ^ 64) :
    DrawnAsDiscarded c e n s (discardWords c e n s) := by
  by_cases h : n ≤ 8 - (curOf e s).val
  · exact discardWords_drawn_within c e n s h
  · exact discardWords_drawn_beyond c e n s hn h

/-- Settles O30: what the draws leave is output-equivalent to what the discard leaves, and NEXT commands are
draws. -/
theorem discardEqualsRepeatedDraws : Obligations.DiscardEqualsRepeatedDraws := by
  unfold Obligations.DiscardEqualsRepeatedDraws
  constructor
  · intro c e n s _
    have hdrawn := discardWords_drawn c e n.toNat s n.isLt
    cases hd : discardWords c e n.toNat s with
    | raised f t => rw [hd] at hdrawn; exact hdrawn
    | done a t =>
      rw [hd] at hdrawn
      obtain ⟨ws, b, hdraws, hb⟩ := hdrawn
      exact ⟨ws, _, hdraws, outputEquivalent_setBuf e t b hb⟩
  · intro e n s hready
    have hdrawn := discardWords_drawn Config.cfg e n.toNat s n.isLt
    have hdiscard := exec_discard_of_ready e n s hready
    have hnext := runCommands_next e n.toNat s hready
    have hfault := discardWords_holds Config.cfg e n.toNat s
    cases hd : discardWords Config.cfg e n.toNat s with
    | raised f t =>
      rw [hd] at hdrawn hdiscard hfault
      obtain ⟨-, rfl, -⟩ := hfault
      rw [show drawWords Config.cfg e n.toNat s = .raised .keystreamExhausted t from hdrawn] at hnext
      obtain ⟨rs, hmem, hrs⟩ := hnext
      exact ⟨_, _, rs, hdiscard, hrs, Or.inr ⟨rfl, hmem, rfl⟩⟩
    | done a t =>
      rw [hd] at hdrawn hdiscard
      obtain ⟨ws, b, hdraws, hb⟩ := hdrawn
      rw [hdraws] at hnext
      obtain ⟨r, hr⟩ := hnext
      refine ⟨_, _, _, hdiscard, hr, Or.inl ⟨rfl, ⟨ws, rfl⟩, ?_⟩⟩
      have hequiv := outputEquivalent_setBuf e t b hb
      cases e <;> exact hequiv

end Sys2Proof.EngineProofs
end

