-- ==== Sys2Proof/Proofs/ResetAndHostActions.lean ====
section
/-! PROOFS. What happens between commands and while one waits (60_exceptions.md R279, 70_reset_and_hazards.md
R300, R316): reset, the host's other actions, and entropy draws. -/

-- Elaborated one after another, as in the tests: each proof elaborated at once takes a thread and its stack.
set_option Elab.async false

namespace Sys2Proof.FaultProofs

open Sys2Proof.Machine

/-! Reset (R300). -/

@[simp] theorem hostReset_lpe (s : State) : (hostReset s).lpe = LpeGroup.cleared := rfl

@[simp] theorem hostReset_ce (s : State) : (hostReset s).ce = CeGroup.cleared := rfl

/-- Settles O9: the reset event takes the reset state but for the collaborator's answers, and the reset
state holds the values of R39's table. -/
theorem hostResetRestoresArchitecturalState : Obligations.HostResetRestoresArchitecturalState := by
  unfold Obligations.HostResetRestoresArchitecturalState
  intro s
  rfl

/-! The invariant under the host's actions (R279). -/

/-- The invariant speaks of the two engine groups only. -/
theorem stateInv_congr {s t : State} (hl : t.lpe = s.lpe) (hc : t.ce = s.ce) (h : StateInv s) :
    StateInv t := by
  rw [StateInv, hl, hc]
  exact h

/-- Two cleared engines meet the invariant: neither is exhausted and neither has words left. -/
theorem stateInv_of_cleared {s : State} (hl : s.lpe = LpeGroup.cleared) (hc : s.ce = CeGroup.cleared) :
    StateInv s := by
  have hexhausted : ceExhaustedLaw CeGroup.cleared := fun hx => absurd hx Bool.false_ne_true
  have hbuffer : ceBufferLaw CeGroup.cleared := fun _ hcur => absurd hcur (by decide)
  rw [StateInv, hl, hc]
  exact ⟨fun _ => rfl, fun _ => rfl, hexhausted, hbuffer⟩

/-- Settles O59: the ports are outside the invariant, and reset clears both engines. -/
theorem hostActionsKeepTheInvariant : Obligations.HostActionsKeepTheInvariant := by
  unfold Obligations.HostActionsKeepTheInvariant
  intro s hs
  exact ⟨fun ws => stateInv_congr (hostSend_lpe s ws) (hostSend_ce s ws) hs,
    fun a => stateInv_congr rfl rfl hs, fun a => stateInv_congr rfl rfl hs,
    stateInv_of_cleared (hostReset_lpe s) (hostReset_ce s)⟩

/-! Entropy draws (R73, R316): a seeding from entropy by the answer its draw has. -/

theorem exec_lpeSeedEnt_unanswered (s : State) (h : s.entropy128 = []) :
    exec .lpeSeedEnt s = .next (awaitDraw s) := by
  show execLpeSeedEnt s = _
  rw [execLpeSeedEnt, h]

theorem exec_lpeSeedEnt_failed (s : State) (rest : List (Option (Vector Byte 128)))
    (h : s.entropy128 = none :: rest) :
    exec .lpeSeedEnt s = .next (raiseFault { s with entropy128 := rest } .entropyFailure) := by
  show execLpeSeedEnt s = _
  rw [execLpeSeedEnt, h]

theorem exec_lpeSeedEnt_drawn (s : State) (b : Vector Byte 128)
    (rest : List (Option (Vector Byte 128))) (h : s.entropy128 = some b :: rest) :
    exec .lpeSeedEnt s =
      .next (complete (seedLpe { s with entropy128 := rest } (limbsOfEntropy b)) []) := by
  show execLpeSeedEnt s = _
  rw [execLpeSeedEnt, h]

theorem exec_ceSeedEnt_unanswered (s : State) (h : s.entropy64 = []) :
    exec .ceSeedEnt s = .next (awaitDraw s) := by
  show execCeSeedEnt s = _
  rw [execCeSeedEnt, h]

theorem exec_ceSeedEnt_failed (s : State) (rest : List (Option (Vector Byte 64)))
    (h : s.entropy64 = none :: rest) :
    exec .ceSeedEnt s = .next (raiseFault { s with entropy64 := rest } .entropyFailure) := by
  show execCeSeedEnt s = _
  rw [execCeSeedEnt, h]

theorem exec_ceSeedEnt_drawn (s : State) (b : Vector Byte 64)
    (rest : List (Option (Vector Byte 64))) (h : s.entropy64 = some b :: rest) :
    exec .ceSeedEnt s = .next (complete (ceSeedEntropy b { s with entropy64 := rest }) []) := by
  show execCeSeedEnt s = _
  rw [execCeSeedEnt, h]

/-- Settles O34: an unanswered draw clears the response and nothing else. -/
theorem unansweredDrawsWait : Obligations.UnansweredDrawsWait := by
  unfold Obligations.UnansweredDrawsWait
  exact ⟨exec_lpeSeedEnt_unanswered, exec_ceSeedEnt_unanswered⟩

end Sys2Proof.FaultProofs
end

