-- ==== Sys2Proof/Proofs/StateAfterFaults.lean ====
section
/-! PROOFS. The state after a fault (60_exceptions.md R272): what a fault leaves is said once, shown of every
part of a command that can raise one, and carried to the commands. -/

-- Elaborated one after another, as in the tests: each proof elaborated at once takes a thread and its stack.
set_option Elab.async false

namespace Sys2Proof.FaultProofs

open Sys2Proof.Machine

variable {α : Type}

/-- What the fault `f` of a command begun in `s` leaves as `t` (R272). -/
def faultLeaves (s : State) (f : FaultCode) (t : State) : Prop :=
  t.ctr = s.ctr ∧ t.lpe = s.lpe ∧ t.input = s.input ∧
    (t.ce = s.ce ∨
      f = .keystreamExhausted ∧ s.ce.seeded = true ∧ s.ce.exh = false ∧ t.ce = exhaustCe s.ce)

/-- Whatever fault the outcome of a command begun in `s` reports, it leaves the state as R272 says. -/
def faultsLeaveState (s : State) (o : Host.Outcome State Fault Refusal) : Prop :=
  ∀ (t : State) (r : Response), o = .next t → t.response = some r → r.status ≠ .ok →
    faultLeaves s r.status t

/-! What each fault leaves. -/

theorem faultLeaves_refl (s : State) (f : FaultCode) : faultLeaves s f s :=
  ⟨rfl, rfl, rfl, Or.inl rfl⟩

/-- Exhaustion raised in a command of a ready engine leaves what R272 allows. -/
theorem faultLeaves_of_exhaustsFrom {e : Engine} {s t : State} {f : FaultCode}
    (hready : notReady e s = none) (h : exhaustsFrom e s f t) : faultLeaves s f t := by
  obtain ⟨rfl, rfl, rfl⟩ := h
  obtain ⟨hseeded, hexh⟩ := (notReady_ce_eq_none s).mp hready
  exact ⟨rfl, rfl, rfl, Or.inr ⟨rfl, hseeded, hexh, rfl⟩⟩

/-! The ways a command ends. -/

theorem faultsLeaveState_complete (s u : State) (p : List Word) :
    faultsLeaveState s (.next (complete u p)) := by
  rintro t r ⟨rfl⟩ hr hfault
  cases hr
  exact absurd rfl hfault

theorem faultsLeaveState_awaitDraw (s u : State) : faultsLeaveState s (.next (awaitDraw u)) := by
  rintro t r ⟨rfl⟩ hr
  cases hr

theorem faultsLeaveState_raiseFault {s u : State} {f : FaultCode} (h : faultLeaves s f u) :
    faultsLeaveState s (.next (raiseFault u f)) := by
  rintro t r ⟨rfl⟩ hr -
  cases hr
  exact h

theorem faultsLeaveState_settle {s : State} {r : Run (List Word)}
    (h : r.Holds (fun _ _ => True) (faultLeaves s)) : faultsLeaveState s (.next r.settle) := by
  cases r with
  | done p t => exact faultsLeaveState_complete s t p
  | raised f t => exact faultsLeaveState_raiseFault h

/-! The engine commands: a fault of readiness changes nothing, and the one fault of a command's own rule is
exhaustion, which begins from a ready engine. -/

/-- A command of an engine, from what its own rule keeps and how it faults. -/
theorem faultsLeaveState_whenReady (e : Engine) (s : State) (k : State → Run α)
    (result : α → State → Run (List Word)) (D : α → State → Prop)
    (hk : (k s).Holds D (exhaustsFrom e s)) (hresult : ∀ a t, ∃ p u, result a t = .done p u) :
    faultsLeaveState s (.next (whenReady e s fun s => (k s).andThen result).settle) := by
  refine faultsLeaveState_settle ?_
  cases hready : notReady e s with
  | some f =>
    rw [whenReady_of_fault e s _ f hready]
    exact faultLeaves_refl s f
  | none =>
    rw [whenReady_of_ready e s _ hready]
    refine andThen_holds
      (holds_mono hk (fun _ _ h => h) fun _ _ h => faultLeaves_of_exhaustsFrom hready h) ?_
    intro a t _
    obtain ⟨p, u, hdone⟩ := hresult a t
    rw [hdone]
    trivial

theorem faultsLeaveState_jumpCommand (c : Cfg) (e : Engine) (long : Bool) (s : State) :
    faultsLeaveState s (.next (jumpCommand c e long s)) :=
  faultsLeaveState_whenReady e s _ _ _ (jumpEngine_holds c e long s) fun _ t => ⟨_, t, rfl⟩

/-! UNBIASED (R261): its draws are the only part that faults. -/

theorem acceptedProduct_holds (c : Cfg) (e : Engine) (range : Word) (s : State)
    (r : Run (BitVec 128)) (h : acceptedProduct c e range s = some r) :
    r.Holds (fun _ t => keepsOutside e s t) (exhaustsFrom e s) := by
  have hdraw := drawProduct_holds c e range s
  rw [acceptedProduct] at h
  cases hd : drawProduct c e range s with
  | raised f t =>
    rw [hd] at h hdraw
    cases h
    exact hdraw
  | done m t =>
    simp only [hd] at h
    rw [hd] at hdraw
    split at h
    case isTrue =>
      exact holds_after hdraw
        (holds_mono (redraw_holds _ _ _ _ _ _ _ _ h) (fun _ _ hk => hk.1) fun _ _ hx => hx)
    case isFalse =>
      cases h
      exact hdraw

theorem sampleOrdered_holds (c : Cfg) (e : Engine) (lo hi : Word) (s : State) (r : Run Word)
    (h : sampleOrdered c e lo hi s = some r) :
    r.Holds (fun _ t => keepsOutside e s t) (exhaustsFrom e s) := by
  simp only [sampleOrdered] at h
  split at h
  case isTrue =>
    cases h
    exact keepsOutside_refl e s
  case isFalse =>
    split at h
    case isTrue =>
      cases h
      exact drawWord_holds c e s
    case isFalse =>
      obtain ⟨p, hp, rfl⟩ := Option.map_eq_some_iff.mp h
      exact andThen_holds (acceptedProduct_holds c e _ s p hp) fun _ _ hk => hk

theorem sample_holds (c : Cfg) (e : Engine) (lo hi : Word) (s : State) (r : Run Word)
    (h : sample c e lo hi s = some r) : r.Holds (fun _ _ => True) (faultLeaves s) := by
  rw [sample] at h
  cases hready : notReady e s with
  | some f =>
    rw [hready] at h
    cases h
    exact faultLeaves_refl s f
  | none =>
    rw [hready] at h
    have hordered : ∃ a b, sampleOrdered c e a b s = some r := by
      by_cases hswap : lo > hi
      · exact ⟨hi, lo, by rwa [if_pos hswap] at h⟩
      · exact ⟨lo, hi, by rwa [if_neg hswap] at h⟩
    obtain ⟨a, b, hab⟩ := hordered
    exact holds_mono (sampleOrdered_holds c e a b s r hab) (fun _ _ _ => trivial)
      fun _ _ hx => faultLeaves_of_exhaustsFrom hready hx

theorem faultsLeaveState_unbiasedCommand (c : Cfg) (e : Engine) (lo hi : Word) (s : State) :
    faultsLeaveState s (unbiasedCommand c e lo hi s) := by
  rw [unbiasedCommand]
  cases hsample : sample c e lo hi s with
  | none => exact fun t _ h => nomatch h
  | some r =>
    exact faultsLeaveState_settle
      (andThen_holds (sample_holds c e lo hi s r hsample) fun _ _ _ => trivial)

/-! Serialization (R240, R244): its checks come before anything is written. -/

theorem faultsLeaveState_saveCommand (c : Cfg) (s : State) :
    faultsLeaveState s (.next (saveCommand c s)) := by
  rw [saveCommand]
  split
  case isTrue =>
    exact faultsLeaveState_whenReady .ce s (fun s => .done () s)
      (fun _ s => .done (packBytes (saveRecord c s.ce)) s) (fun _ _ => True) trivial
      fun _ t => ⟨_, t, rfl⟩
  case isFalse => exact faultsLeaveState_raiseFault (faultLeaves_refl s _)

theorem faultsLeaveState_restoreCommand (c : Cfg) (len : Word) (record : List Byte) (s : State) :
    faultsLeaveState s (.next (restoreCommand c len record s)) := by
  rw [restoreCommand]
  split
  case isTrue =>
    cases recordFault c len record with
    | some f => exact faultsLeaveState_raiseFault (faultLeaves_refl s f)
    | none => exact faultsLeaveState_complete s _ []
  case isFalse => exact faultsLeaveState_raiseFault (faultLeaves_refl s _)

/-! Seeding from entropy (R205, R234): a failed draw leaves everything but the collaborator's answers. -/

theorem faultsLeaveState_lpeSeedEnt (s : State) : faultsLeaveState s (exec .lpeSeedEnt s) := by
  match h : s.entropy128 with
  | [] =>
    rw [exec_lpeSeedEnt_unanswered s h]
    exact faultsLeaveState_awaitDraw s s
  | none :: rest =>
    rw [exec_lpeSeedEnt_failed s rest h]
    exact faultsLeaveState_raiseFault ⟨rfl, rfl, rfl, Or.inl rfl⟩
  | some b :: rest =>
    rw [exec_lpeSeedEnt_drawn s b rest h]
    exact faultsLeaveState_complete s _ _

theorem faultsLeaveState_ceSeedEnt (s : State) : faultsLeaveState s (exec .ceSeedEnt s) := by
  match h : s.entropy64 with
  | [] =>
    rw [exec_ceSeedEnt_unanswered s h]
    exact faultsLeaveState_awaitDraw s s
  | none :: rest =>
    rw [exec_ceSeedEnt_failed s rest h]
    exact faultsLeaveState_raiseFault ⟨rfl, rfl, rfl, Or.inl rfl⟩
  | some b :: rest =>
    rw [exec_ceSeedEnt_drawn s b rest h]
    exact faultsLeaveState_complete s _ _

/-! Every command. -/

theorem exec_faultsLeaveState (i : Instr) (s : State) : faultsLeaveState s (exec i s) := by
  cases i with
  | status | mix | chacha => exact faultsLeaveState_complete s s _
  | ctrEq | ctrRead => exact faultsLeaveState_complete s s _
  | ctrAdv1 | ctrAdvn | ctrJump | ctrLoad => exact faultsLeaveState_complete s _ []
  | lpeSeedU64 | lpeSeedSeq => exact faultsLeaveState_complete s _ []
  | ceKey | ceSeed64 | ceSeed32 | ceZeroize => exact faultsLeaveState_complete s _ []
  | next e =>
    exact faultsLeaveState_whenReady e s _ _ _ (drawWord_holds _ e s) fun _ t => ⟨_, t, rfl⟩
  | bulk e n =>
    exact faultsLeaveState_whenReady e s _ _ _ (bulkFill_holds _ e n.toNat s)
      fun _ t => ⟨_, setCur e t 8, rfl⟩
  | discard e n =>
    exact faultsLeaveState_whenReady e s _ _ _ (discardWords_holds _ e n.toNat s)
      fun _ t => ⟨_, t, rfl⟩
  | jump e => exact faultsLeaveState_jumpCommand _ e false s
  | ljump e => exact faultsLeaveState_jumpCommand _ e true s
  | unbiased e lo hi => exact faultsLeaveState_unbiasedCommand _ e lo hi s
  | lpeSeedEnt => exact faultsLeaveState_lpeSeedEnt s
  | ceSeedEnt => exact faultsLeaveState_ceSeedEnt s
  | ceSave => exact faultsLeaveState_saveCommand _ s
  | ceRestore len record => exact faultsLeaveState_restoreCommand _ len _ s

/-- Settles O49: every command that faults leaves what R272 says, and exhaustion's writes are R223's. -/
theorem faultsChangeNothingButExhaustion : Obligations.FaultsChangeNothingButExhaustion := by
  unfold Obligations.FaultsChangeNothingButExhaustion
  intro i s t r hexec hr hfault
  exact exec_faultsLeaveState i s t r hexec hr hfault

end Sys2Proof.FaultProofs
end

