-- ==== Sys2Proof/Proofs/ByteStrings.lean ====
section
/-! SUPPORT. Byte strings through their bytes (20_memory.md R62 to R67): a value is its bytes, and a byte past
the end of a string is zero, so that each reading and each packing is said byte by byte. -/

-- Elaborated one after another, as in the tests: each proof elaborated at once takes a thread and its stack.
set_option Elab.async false

namespace Sys2Proof.BlockProofs

open Sys2Proof.Machine Sys2Proof.EngineProofs

/-- Byte `q` of a byte string, zero past its end (R65, R67). -/
def byteOf (bs : List Byte) (q : Nat) : Byte := bs.getD q 0

theorem byteOf_eq_getElem {bs : List Byte} {q : Nat} (h : q < bs.length) : byteOf bs q = bs[q] :=
  List.getD_eq_getElem _ _ h

theorem byteOf_of_getElem? {bs : List Byte} {q : Nat} {b : Byte} (h : bs[q]? = some b) :
    byteOf bs q = b := by
  rw [byteOf, List.getD_eq_getElem?_getD, h, Option.getD_some]

theorem byteOf_past_end {bs : List Byte} {q : Nat} (h : bs.length ≤ q) : byteOf bs q = 0 :=
  List.getD_eq_default _ _ h

/-- Byte strings of one length are their bytes. -/
theorem eq_of_byteOf_eq {as bs : List Byte} (hlen : as.length = bs.length)
    (h : ∀ q, byteOf as q = byteOf bs q) : as = bs := by
  refine List.ext_getElem hlen fun q ha hb => ?_
  rw [← byteOf_eq_getElem ha, ← byteOf_eq_getElem hb, h]

/-- Bytes `off .. off+n-1` are the string's own. -/
theorem byteOf_bytesAt (bs : List Byte) (off : Nat) {n k : Nat} (h : k < n) :
    byteOf (bytesAt bs off n) k = byteOf bs (off + k) := by
  simp [byteOf, bytesAt, List.getElem?_take_of_lt h]

theorem length_bytesAt {bs : List Byte} {off n : Nat} (h : off + n ≤ bs.length) :
    (bytesAt bs off n).length = n := by
  simp [bytesAt]; omega

theorem bytesAt_one {bs : List Byte} {off : Nat} (h : off < bs.length) :
    bytesAt bs off 1 = [byteOf bs off] := by
  rw [bytesAt, byteOf_eq_getElem h, List.drop_eq_getElem_cons h]
  rfl

theorem byteOf_append_left (bs post : List Byte) {k : Nat} (h : k < bs.length) :
    byteOf (bs ++ post) k = byteOf bs k := by
  simp [byteOf, List.getElem?_append_left h]

/-- A field that stands between two others is read at its place. -/
theorem byteOf_append_right (pre bs : List Byte) {off : Nat} (h : pre.length = off) (k : Nat) :
    byteOf (pre ++ bs) (off + k) = byteOf bs k := by
  subst h
  simp [byteOf, List.getElem?_append_right]

/-- Zeros after a byte string are the bytes past its end. -/
theorem byteOf_append_zeros (bs : List Byte) (n q : Nat) :
    byteOf (bs ++ List.replicate n 0) q = byteOf bs q := by
  by_cases hq : q < bs.length
  · exact byteOf_append_left _ _ hq
  · rw [byteOf_past_end (Nat.le_of_not_lt hq), byteOf, List.getD_eq_getElem?_getD,
      List.getElem?_append_right (Nat.le_of_not_lt hq), List.getElem?_replicate]
    split <;> rfl

/-! Bytes of values. -/

/-- A value of `n` bytes is its bytes. -/
theorem eq_of_byteAt_eq {n : Nat} {a b : BitVec (8 * n)}
    (h : ∀ j, j < n → byteAt a j = byteAt b j) : a = b := by
  refine BitVec.eq_of_getLsbD_eq fun k hk => ?_
  have hbit := congrArg (BitVec.getLsbD · (k % 8)) (h (k / 8) (by omega))
  have hmod : k % 8 < 8 := Nat.mod_lt k (by omega)
  simpa [byteAt, BitVec.getLsbD_extractLsb', hmod, Nat.div_add_mod,
    -BitVec.getLsbD_eq_getElem] using hbit

theorem word_eq_of_byteAt_eq {a b : Word} (h : ∀ j : Fin 8, byteAt a j.val = byteAt b j.val) :
    a = b := eq_of_byteAt_eq (n := 8) fun j hj => h ⟨j, hj⟩

theorem word32_eq_of_byteAt_eq {a b : Word32} (h : ∀ j : Fin 4, byteAt a j.val = byteAt b j.val) :
    a = b := eq_of_byteAt_eq (n := 4) fun j hj => h ⟨j, hj⟩

/-- Widening or narrowing keeps the bytes that fit. -/
theorem byteAt_setWidth {w : Nat} (x : BitVec w) {v j : Nat} (h : 8 * j + 8 ≤ v) :
    byteAt (x.setWidth v) j = byteAt x j := by
  refine BitVec.eq_of_getLsbD_eq fun k hk => ?_
  have hin : 8 * j + k < v := by omega
  simp [byteAt, BitVec.getLsbD_extractLsb', BitVec.getLsbD_setWidth, hin,
    -BitVec.getLsbD_eq_getElem]

/-- The bytes of a part of a value that starts at byte `i`. -/
theorem byteAt_extractLsb' {w : Nat} (x : BitVec w) (i : Nat) {v j : Nat} (h : 8 * j + 8 ≤ v) :
    byteAt (x.extractLsb' (8 * i) v) j = byteAt x (i + j) := by
  refine BitVec.eq_of_getLsbD_eq fun k hk => ?_
  have hin : 8 * j + k < v := by omega
  simp [byteAt, BitVec.getLsbD_extractLsb', hin, Nat.mul_add, Nat.add_assoc,
    -BitVec.getLsbD_eq_getElem]

theorem byteAt_zero (w j : Nat) : byteAt (0 : BitVec w) j = 0 := by simp [byteAt]

/-- The bytes of a pair of 32-bit words are those of the low word and then those of the high one (R63). -/
theorem byteAt_append (hi lo : Word32) (j : Nat) (h : j < 8) :
    byteAt (hi ++ lo) j = if j < 4 then byteAt lo j else byteAt hi (j - 4) := by
  have hlo : (hi ++ lo).extractLsb' (8 * 0) 32 = lo := BitVec.extractLsb'_append_eq_right
  have hhi : (hi ++ lo).extractLsb' (8 * 4) 32 = hi := BitVec.extractLsb'_append_eq_left
  split
  · have hbyte := byteAt_extractLsb' (hi ++ lo) 0 (v := 32) (j := j) (by omega)
    rw [← Nat.zero_add j, ← hbyte, hlo, Nat.zero_add]
  · have hbyte := byteAt_extractLsb' (hi ++ lo) 4 (v := 32) (j := j - 4) (by omega)
    rw [show j = 4 + (j - 4) by omega, ← hbyte, hhi, Nat.add_sub_cancel_left]

/-! Little-endian readings (R64, R67). -/

/-- The low byte of the integer of a byte string, shifted down by `j` bytes, is byte `j`. -/
theorem ofNat_leNat_shiftRight (bs : List Byte) :
    ∀ j, BitVec.ofNat 8 (leNat bs >>> (8 * j)) = byteOf bs j := by
  induction bs with
  | nil => intro j; simp [leNat, byteOf]
  | cons b bs ih =>
    intro j
    cases j with
    | zero => exact BitVec.eq_of_toNat_eq (by simp [leNat, byteOf]; omega)
    | succ j =>
      have hrest : leNat (b :: bs) >>> 8 = leNat bs := by
        have hb := b.isLt
        rw [leNat, Nat.shiftRight_eq_div_pow]
        omega
      rw [show 8 * (j + 1) = 8 + 8 * j by omega, Nat.shiftRight_add, hrest, ih j]
      rfl

theorem byteAt_ofNat_leNat (bs : List Byte) {w j : Nat} (h : 8 * j + 8 ≤ w) :
    byteAt (BitVec.ofNat w (leNat bs)) j = byteOf bs j := by
  rw [← ofNat_leNat_shiftRight]
  refine BitVec.eq_of_getLsbD_eq fun k hk => ?_
  have hin : 8 * j + k < w := by omega
  simp [byteAt, BitVec.getLsbD_extractLsb', BitVec.getLsbD_ofNat, hin, hk,
    -BitVec.getLsbD_eq_getElem]

theorem byteAt_le64 (bs : List Byte) {j : Nat} (h : j < 8) : byteAt (le64 bs) j = byteOf bs j :=
  byteAt_ofNat_leNat bs (by omega)

theorem byteAt_le32 (bs : List Byte) {j : Nat} (h : j < 4) : byteAt (le32 bs) j = byteOf bs j :=
  byteAt_ofNat_leNat bs (by omega)

theorem byteAt_recRead (bs : List Byte) (off : Nat) {n j : Nat} (hn : n ≤ 8) (h : j < n) :
    byteAt (recRead bs off n) j = byteOf bs (off + j) := by
  rw [recRead, byteAt_le64 _ (by omega), byteOf_bytesAt _ _ h]

/-- A read of one byte. -/
theorem toNat_recRead_one {bs : List Byte} {off : Nat} (h : off < bs.length) :
    (recRead bs off 1).toNat = (byteOf bs off).toNat := by
  have hb := (byteOf bs off).isLt
  simp only [recRead, le64, bytesAt_one h, leNat, BitVec.toNat_ofNat]
  omega

theorem byteAt_words32 {n : Nat} (bs : List Byte) (i : Nat) (hi : i < n) {j : Nat} (h : j < 4) :
    byteAt (words32 n bs)[i] j = byteOf bs (4 * i + j) := by
  have hword : (words32 n bs)[i] = le32 (bytesAt bs (4 * i) 4) := by simp [words32]
  rw [hword, byteAt_le32 _ h, byteOf_bytesAt _ _ h]

theorem byteAt_words64 {n : Nat} (bs : List Byte) (i : Nat) (hi : i < n) {j : Nat} (h : j < 8) :
    byteAt (words64 n bs)[i] j = byteOf bs (8 * i + j) := by
  have hword : (words64 n bs)[i] = le64 (bytesAt bs (8 * i) 8) := by simp [words64]
  rw [hword, byteAt_le64 _ h, byteOf_bytesAt _ _ h]

/-! Bytes that words carry (R64, R65). -/

/-- Byte `q` of a word list is byte `q mod 8` of its word `q div 8`. -/
theorem getElem?_bytesOfWords (ws : List Word) (q : Nat) :
    (bytesOfWords ws)[q]? = ws[q / 8]?.map fun w => byteAt w (q % 8) := by
  rw [bytesOfWords, getElem?_flatMap_of_length _ 8 (by omega) (fun w => length_leBytes w 8),
    Option.map_eq_bind]
  congr 1
  funext w
  exact getElem?_leBytes w (Nat.mod_lt q (by omega))

theorem byteOf_bytesOfWords (ws : List Word) (q : Nat) :
    byteOf (bytesOfWords ws) q = byteAt (ws.getD (q / 8) 0) (q % 8) := by
  rw [byteOf, List.getD_eq_getElem?_getD, List.getD_eq_getElem?_getD, getElem?_bytesOfWords]
  cases ws[q / 8]? with
  | none => exact (byteAt_zero 64 _).symm
  | some w => rfl

theorem length_bytesOfWords32 (ws : List Word32) : (bytesOfWords32 ws).length = 4 * ws.length :=
  length_flatMap_of_length _ 4 (fun w => length_leBytes w 4) ws

theorem byteOf_bytesOfWords32 {n : Nat} (v : Vector Word32 n) (i : Fin n) (j : Fin 4) :
    byteOf (bytesOfWords32 v.toList) (4 * i.val + j.val) = byteAt v[i] j.val := by
  refine byteOf_of_getElem? ?_
  rw [bytesOfWords32, getElem?_flatMap_of_length _ 4 (by omega) (fun w => length_leBytes w 4),
    show (4 * i.val + j.val) / 4 = i.val by omega, show (4 * i.val + j.val) % 4 = j.val by omega,
    List.getElem?_eq_getElem (by simp), Vector.getElem_toList]
  exact getElem?_leBytes _ j.isLt

/-- The 32-bit words of the bytes of words are the words' halves, the low one first (R64, R84). -/
theorem words32_bytesOfWords {n : Nat} (ws : List Word) (w : Nat) (h : 2 * w + 1 < n) :
    (words32 n (bytesOfWords ws))[2 * w] = (ws.getD w 0).extractLsb' 0 32 ∧
      (words32 n (bytesOfWords ws))[2 * w + 1] = (ws.getD w 0).extractLsb' 32 32 := by
  constructor <;> refine word32_eq_of_byteAt_eq fun j => ?_
  · rw [byteAt_words32 _ _ _ j.isLt, byteOf_bytesOfWords,
      show (0 : Nat) = 8 * 0 from rfl, byteAt_extractLsb' _ 0 (by omega)]
    congr 2 <;> omega
  · rw [byteAt_words32 _ _ _ j.isLt, byteOf_bytesOfWords,
      show (32 : Nat) = 8 * 4 from rfl, byteAt_extractLsb' _ 4 (by omega)]
    congr 2 <;> omega

theorem getD_toList {n : Nat} (v : Vector Word n) (i : Fin n) : v.toList.getD i.val 0 = v[i] := by
  simp [List.getD_eq_getElem?_getD]

/-- The packed words one by one. -/
theorem packInto_eq_map (k : Nat) :
    ∀ bs : List Byte, packInto k bs = (List.range k).map fun i => le64 (bytesAt bs (8 * i) 8) := by
  induction k with
  | zero => exact fun bs => rfl
  | succ k ih =>
    intro bs
    rw [packInto, ih, List.range_succ_eq_map, List.map_cons, List.map_map]
    simp [bytesAt, Function.comp_def, Nat.mul_add, Nat.add_comm]

@[simp] theorem length_packBytes (bs : List Byte) : (packBytes bs).length = (bs.length + 7) / 8 := by
  simp [packBytes, packInto_eq_map]

/-- Packing keeps every byte and pads with zeros. -/
theorem byteOf_packBytes (bs : List Byte) (q : Nat) :
    byteOf (bytesOfWords (packBytes bs)) q = byteOf bs q := by
  rw [byteOf_bytesOfWords, packBytes, packInto_eq_map]
  by_cases hq : q / 8 < (bs.length + 7) / 8
  · have hword : ((List.range ((bs.length + 7) / 8)).map fun i => le64 (bytesAt bs (8 * i) 8)).getD
        (q / 8) 0 = le64 (bytesAt bs (8 * (q / 8)) 8) := by
      simp [List.getD_eq_getElem?_getD, hq]
    have hmod : q % 8 < 8 := Nat.mod_lt q (by omega)
    rw [hword, byteAt_le64 _ hmod, byteOf_bytesAt _ _ hmod, Nat.div_add_mod]
  · rw [List.getD_eq_default _ _ (by simpa using hq), byteAt_zero, byteOf_past_end (by omega)]

/-- Whole words are packed as they are read (R63, R65). -/
theorem packBytes_eq_words64 {bs : List Byte} {n : Nat} (h : bs.length = 8 * n) :
    packBytes bs = (words64 n bs).toList := by
  rw [packBytes, packInto_eq_map, show (bs.length + 7) / 8 = n by omega]
  exact List.ext_getElem (by simp) (by simp [words64])

/-- Settles O7: an index into the bytes of words, and the bytes of the packed words compared one by one. -/
theorem packedBytesReadBack : Obligations.PackedBytesReadBack := by
  unfold Obligations.PackedBytesReadBack
  refine ⟨fun ws => ⟨length_bytesOfWords ws, fun q h => ?_⟩, fun bs => ⟨length_packBytes bs, ?_⟩⟩
  · rw [getElem?_bytesOfWords, List.getElem?_eq_getElem (by omega), Option.map_some]
  · refine eq_of_byteOf_eq ?_ fun q => ?_
    · rw [length_bytesOfWords, length_packBytes, List.length_append, List.length_replicate]
      omega
    · rw [byteOf_packBytes, byteOf_append_zeros]

end Sys2Proof.BlockProofs
end

