-- ==== Sys2Proof/Proofs/DecoderAndEncoder.lean ====
section
/-! PROOFS. The decoder and the encoder (30_encoding.md R80 to R89): an instruction as the opcode, engine and
operand words of its packet; the header word's fields; what the decoder answers in each of its cases; and the
statements of the family about packets. -/

-- Elaborated one after another, as in the tests: each proof elaborated at once takes a thread and its stack.
set_option Elab.async false

namespace Sys2Proof.BlockProofs

open Sys2Proof.Machine

/-! The packet of a command, field by field. -/

/-- The opcode of a command's row in R85. -/
def opcodeOf : Instr → Nat
  | .status => 0x01
  | .mix _ => 0x10
  | .ctrAdv1 => 0x20
  | .ctrAdvn _ => 0x21
  | .ctrJump _ => 0x22
  | .ctrEq _ => 0x23
  | .ctrLoad _ => 0x24
  | .ctrRead => 0x25
  | .chacha _ _ _ => 0x30
  | .next _ => 0x40
  | .bulk _ _ => 0x41
  | .discard _ _ => 0x42
  | .jump _ => 0x43
  | .ljump _ => 0x44
  | .lpeSeedEnt => 0x50
  | .lpeSeedU64 _ => 0x51
  | .lpeSeedSeq _ => 0x52
  | .ceKey _ _ _ => 0x60
  | .ceSeed64 _ => 0x61
  | .ceSeed32 _ => 0x62
  | .ceSeedEnt => 0x63
  | .ceZeroize => 0x64
  | .ceSave => 0x65
  | .ceRestore _ _ => 0x66
  | .unbiased _ _ _ => 0x70

/-- The engine that the `E` bit of a command's packet names; a command without an engine select has `E = 0`
(R87(c)), as LPE. -/
def engineOf : Instr → Engine
  | .next e | .bulk e _ | .discard e _ | .jump e | .ljump e | .unbiased e _ _ => e
  | _ => .lpe

/-- The operand words of a command in packet order (R84). -/
def operandsOf : Instr → List Word
  | .mix x => [x]
  | .ctrAdvn n => [n]
  | .ctrJump w | .ctrEq w | .ctrLoad w | .lpeSeedSeq w => w.toList
  | .chacha key nonce c | .ceKey key nonce c => key.toList ++ [nonce, c]
  | .bulk _ n | .discard _ n => [n]
  | .lpeSeedU64 seed => [seed]
  | .ceSeed64 sb => sb.toList
  | .ceSeed32 sb => sb.toList
  | .ceRestore len record => len :: record.toList
  | .unbiased _ lo hi => [lo, hi]
  | _ => []

/-- A command's packet is the header of its opcode and engine, and its operand words. -/
theorem encode_eq_header_operands (i : Instr) :
    encode i = header (opcodeOf i) (engineOf i) :: operandsOf i := by cases i <;> rfl

/-- A command's opcode has a row in the map, with the command's number of operand words, and an engine
select if the command names CE. -/
theorem opcodeRow_opcodeOf (i : Instr) :
    ∃ row, opcodeRow (opcodeOf i) = some row ∧ row.operandWords = (operandsOf i).length ∧
      (engineOf i = .ce → row.engineSelect = true) := by
  cases i <;> exact ⟨_, rfl, by simp [operandsOf], by simp [engineOf]⟩

theorem opcodeRow_mem {opc : Nat} {row : OpcodeRow} (h : opcodeRow opc = some row) :
    row ∈ opcodeTable ∧ row.opc = opc :=
  ⟨List.mem_of_find?_eq_some h, by simpa using List.find?_some h⟩

theorem opcodeOf_lt (i : Instr) : opcodeOf i < 256 := by
  obtain ⟨row, hrow, -, -⟩ := opcodeRow_opcodeOf i
  obtain ⟨hmem, hopc⟩ := opcodeRow_mem hrow
  exact hopc ▸ opcodeTable_opcodes_fit row hmem

/-! Operand words and the operand list they stand in (R84). -/

theorem opWords_append {n : Nat} (v : Vector Word n) (rest : List Word) :
    opWords n (v.toList ++ rest) 0 = v := opWords_toList v [] rest

theorem opWords_cons_append {n : Nat} (w : Word) (v : Vector Word n) (rest : List Word) :
    opWords n (w :: (v.toList ++ rest)) 1 = v := opWords_toList v [w] rest

theorem toList_opWords (n : Nat) (ops : List Word) (k : Nat) :
    (opWords n ops k).toList = (List.range n).map fun i => opWord ops (k + i) := by
  apply List.ext_getElem <;> simp [opWords]

theorem take_eq_map_opWord {n : Nat} {ops : List Word} (h : n ≤ ops.length) :
    ops.take n = (List.range n).map (opWord ops) := by
  apply List.ext_getElem
  · simpa using h
  · intro i hi _
    have hlt : i < ops.length := by simp at hi; omega
    simp [opWord, List.getElem?_eq_getElem hlt]

/-- A command is assembled again from its own opcode, engine and operand words, whatever follows them. -/
theorem commandOf_operands (i : Instr) (rest : List Word) :
    commandOf (opcodeOf i) (engineOf i) (operandsOf i ++ rest) = some i := by
  cases i <;>
    simp [commandOf, opcodeOf, engineOf, operandsOf, opWord, opWords_append,
      opWords_cons_append, List.getElem?_append]

/-- Every row of the map assembles a command from whatever operand words have arrived, and that command has
the row's opcode, the engine named, and those operand words. -/
theorem commandOf_row {row : OpcodeRow} {e : Engine} {ops : List Word} (hrow : row ∈ opcodeTable)
    (hlen : row.operandWords ≤ ops.length) (he : e = .ce → row.engineSelect = true) :
    ∃ i, commandOf row.opc e ops = some i ∧ opcodeOf i = row.opc ∧ engineOf i = e ∧
      operandsOf i = ops.take row.operandWords := by
  rw [take_eq_map_opWord hlen]
  have hlpe : row.engineSelect = false → .lpe = e := by
    intro hsel
    cases e with
    | lpe => rfl
    | ce => simp [he rfl] at hsel
  clear hlen he
  fin_cases hrow <;>
    exact ⟨_, rfl, rfl, by simp_all [engineOf],
      by simp [operandsOf, toList_opWords, List.range_succ, Nat.add_comm]⟩

/-! The header word (R81). -/

theorem headerOpc_eq_mod (h : Word) : headerOpc h = h.toNat % 256 := by
  simp [headerOpc, BitVec.extractLsb'_toNat]

theorem headerReserved_eq_zero_iff (h : Word) : headerReserved h = 0 ↔ h.toNat / 512 = 0 := by
  have hlt := h.isLt
  simp [headerReserved, BitVec.toNat_eq, BitVec.extractLsb'_toNat, Nat.shiftRight_eq_div_pow]
  omega

theorem headerE_eq_div_mod (h : Word) : headerE h = decide (h.toNat / 256 % 2 = 1) := by
  simp [headerE, BitVec.getLsbD, Nat.testBit_eq_decide_div_mod_eq]

@[simp] theorem engineOfBit_eq_ce_iff (b : Bool) : engineOfBit b = .ce ↔ b = true := by
  cases b <;> simp

/-- A header word with no reserved bit is the header of its own opcode and engine. -/
theorem header_of_fields {h : Word} (hres : headerReserved h = 0) :
    header (headerOpc h) (engineOfBit (headerE h)) = h := by
  have hdiv : h.toNat / 512 = 0 := (headerReserved_eq_zero_iff h).mp hres
  have hlt := h.isLt
  apply BitVec.eq_of_toNat_eq
  rw [headerOpc_eq_mod, headerE_eq_div_mod]
  by_cases hbit : h.toNat / 256 % 2 = 1 <;> simp [hbit, header] <;> omega

/-! What the decoder answers, case by case (R82, R87 to R89). -/

section Decode

variable {h : Word} {rest : List Word} {row : OpcodeRow}

theorem decode_nil : decode [] = .incomplete := rfl

theorem decode_unknownOpcode (hrow : opcodeRow (headerOpc h) = none) :
    decode (h :: rest) = .illegal .unknownOpcode 1 := by simp [decode, hrow]

theorem decode_short (hrow : opcodeRow (headerOpc h) = some row)
    (hlen : rest.length < row.operandWords) : decode (h :: rest) = .incomplete := by
  simp [decode, hrow, hlen]

theorem decode_badHeader (hrow : opcodeRow (headerOpc h) = some row)
    (hlen : row.operandWords ≤ rest.length)
    (hbad : headerReserved h ≠ 0 ∨ headerE h = true ∧ row.engineSelect = false) :
    ∃ r, decode (h :: rest) = .illegal r (1 + row.operandWords) := by
  simp only [decode, hrow, if_neg (Nat.not_lt.mpr hlen)]
  by_cases hres : headerReserved h = 0
  · obtain ⟨hE, hsel⟩ := hbad.resolve_left (not_not.mpr hres)
    exact ⟨.engineBit, by simp [hres, hE, hsel]⟩
  · exact ⟨.reservedBits, if_pos hres⟩

theorem decode_goodHeader {i : Instr} (hrow : opcodeRow (headerOpc h) = some row)
    (hlen : row.operandWords ≤ rest.length) (hres : headerReserved h = 0)
    (hE : headerE h = true → row.engineSelect = true)
    (hi : commandOf (headerOpc h) (engineOfBit (headerE h)) rest = some i) :
    decode (h :: rest) = .command i (1 + row.operandWords) := by
  have hbit : ¬ (headerE h && !row.engineSelect) = true := by simpa using hE
  simp only [decode, hrow, if_neg (Nat.not_lt.mpr hlen), hres, ne_eq, not_true_eq_false, if_false,
    if_neg hbit, hi]

end Decode

/-- A whole packet with a row in the map, no reserved bit and no misplaced engine bit is a command, with the
opcode, the engine and the operand words that stand in the packet. -/
theorem decode_wholePacket {h : Word} {rest : List Word} {row : OpcodeRow}
    (hrow : opcodeRow (headerOpc h) = some row) (hlen : row.operandWords ≤ rest.length)
    (hres : headerReserved h = 0) (hE : headerE h = true → row.engineSelect = true) :
    ∃ i, decode (h :: rest) = .command i (1 + row.operandWords) ∧
      encode i = h :: rest.take row.operandWords := by
  obtain ⟨hmem, hopc⟩ := opcodeRow_mem hrow
  obtain ⟨i, hi, hiopc, hie, hiops⟩ :=
    commandOf_row (e := engineOfBit (headerE h)) hmem hlen (by simpa using hE)
  refine ⟨i, decode_goodHeader hrow hlen hres hE (hopc ▸ hi), ?_⟩
  rw [encode_eq_header_operands, hiopc, hopc, hie, hiops, header_of_fields hres]

/-- A word list at whose head the decoder finds a command begins with a whole legal packet. -/
theorem wholePacket_of_decode_eq_command {ws : List Word} {i : Instr} {len : Nat}
    (hdec : decode ws = .command i len) :
    ∃ h rest row, ws = h :: rest ∧ opcodeRow (headerOpc h) = some row ∧
      row.operandWords ≤ rest.length ∧ headerReserved h = 0 ∧
      (headerE h = true → row.engineSelect = true) := by
  cases ws with
  | nil => simp [decode_nil] at hdec
  | cons h rest =>
    cases hrow : opcodeRow (headerOpc h) with
    | none => simp [decode_unknownOpcode hrow] at hdec
    | some row =>
      have hlen : row.operandWords ≤ rest.length := by
        by_contra hshort
        simp [decode_short hrow (Nat.not_le.mp hshort)] at hdec
      have hgood : ¬ (headerReserved h ≠ 0 ∨ headerE h = true ∧ row.engineSelect = false) := by
        intro hbad
        obtain ⟨r, hr⟩ := decode_badHeader hrow hlen hbad
        simp [hr] at hdec
      refine ⟨h, rest, row, rfl, hrow, hlen, ?_, ?_⟩
      · exact not_not.mp fun hres => hgood (.inl hres)
      · intro hE
        by_contra hsel
        exact hgood (.inr ⟨hE, Bool.eq_false_iff.mpr hsel⟩)

/-- Settles O1: the header gives back opcode and engine, and the operand words their operands. -/
theorem decodeInvertsEncode : Obligations.DecodeInvertsEncode := by
  unfold Obligations.DecodeInvertsEncode
  intro i rest
  obtain ⟨row, hrow, hops, hsel⟩ := opcodeRow_opcodeOf i
  have hopc : headerOpc (header (opcodeOf i) (engineOf i)) = opcodeOf i :=
    headerOpc_header _ _ (opcodeOf_lt i)
  have he : engineOfBit (headerE (header (opcodeOf i) (engineOf i))) = engineOf i :=
    engineOfBit_header _ _ (opcodeOf_lt i)
  have hdec : decode (header (opcodeOf i) (engineOf i) :: (operandsOf i ++ rest)) =
      .command i (1 + row.operandWords) := by
    refine decode_goodHeader (by rw [hopc, hrow]) (by simp [hops])
      (headerReserved_header _ _ (opcodeOf_lt i)) ?_ ?_
    · intro hE
      exact hsel (by rw [← he, hE, engineOfBit_true])
    · rw [hopc, he, commandOf_operands]
  rw [encode_eq_header_operands, List.cons_append, hdec, hops, List.length_cons, Nat.add_comm]

/-- Settles O2: a packet that decodes is whole and legal, and such a packet is its command's encoding. -/
theorem encodeInvertsDecode : Obligations.EncodeInvertsDecode := by
  unfold Obligations.EncodeInvertsDecode
  intro ws i len hdec
  obtain ⟨h, rest, row, rfl, hrow, hlen, hres, hE⟩ := wholePacket_of_decode_eq_command hdec
  obtain ⟨j, hj, henc⟩ := decode_wholePacket hrow hlen hres hE
  obtain ⟨rfl, rfl⟩ : j = i ∧ 1 + row.operandWords = len := by simpa [hj] using hdec
  rw [henc]
  refine ⟨by rw [Nat.add_comm, List.take_succ_cons], ?_⟩
  simp [hlen, Nat.add_comm]

/-- Settles O3: the commands' packets are the words of their encodings, and the illegal ones are evaluated. -/
theorem writtenOutPacketsDecode : Obligations.WrittenOutPacketsDecode := by
  unfold Obligations.WrittenOutPacketsDecode
  refine ⟨?next, ?unbiased, ?advn, ?key, ?reserved, ?engineBit, ?unknown⟩
  case next => exact decodeInvertsEncode (.next .ce) []
  case unbiased => exact decodeInvertsEncode (.unbiased .lpe 1 6) []
  case advn => exact decodeInvertsEncode (.ctrAdvn 2) [0x25]
  case key =>
    exact decodeInvertsEncode (.ceKey #v[0x0706050403020100, 0x0F0E0D0C0B0A0908, 0x1716151413121110,
      0x1F1E1D1C1B1A1918] 0x0706050403020100 7) []
  case reserved => rfl
  case engineBit => rfl
  case unknown => exact decode_unknownOpcode (by decide)

/-! What a step does when the decoder finds no command (R87, R88). -/

theorem step_of_illegal {s : State} {r : Reject} {len : Nat} (h : decode s.input = .illegal r len) :
    step s = .next (rejectPacket len s) := by simp only [step, h]

/-- An illegal packet is answered and dropped (R87). -/
theorem rejectPacket_eq (len : Nat) (s : State) :
    rejectPacket len s =
      { s with input := s.input.drop len, response := some ⟨.illegalCommand, []⟩ } := rfl

theorem step_of_incomplete {s : State} (h : decode s.input = .incomplete) : step s = .next s := by
  simp only [step, h]

/-! What a step does with a command (R5, R72, R86): one rule for each outcome. -/

section Step

variable {s t : State} {i : Instr} {len : Nat}

theorem step_of_exec_next (hdec : decode s.input = .command i len) (hexec : exec i s = .next t) :
    step s = .next (retire len t) := by
  simp only [step, hdec, hexec]

theorem step_of_exec_fault {f : Fault} (hdec : decode s.input = .command i len)
    (hexec : exec i s = .fault f) : step s = .fault f := by
  simp only [step, hdec, hexec]

theorem step_of_exec_refused {r : Refusal} (hdec : decode s.input = .command i len)
    (hexec : exec i s = .refused r) : step s = .refused r := by
  simp only [step, hdec, hexec]

end Step

/-- Settles O6, by the outcome of the command and, where it answers a next state, by whether it has
responded (its packet is retired) or still waits for a draw (its packet stays). -/
theorem stepExecutesDecodedCommand : Obligations.StepExecutesDecodedCommand := by
  unfold Obligations.StepExecutesDecodedCommand
  intro s i len hdec
  cases hexec : exec i s with
  | next t =>
    rw [step_of_exec_next hdec hexec]
    cases hresp : t.response with
    | none => simp only [retire_of_waiting len t hresp, hresp]
    | some r => simp only [retire_of_response len t r hresp, hresp]
  | fault f => exact step_of_exec_fault hdec hexec
  | refused r => exact step_of_exec_refused hdec hexec

/-! The opcode map as the statements write it and as the decoder reads it. -/

theorem specOpcodes_eq_map :
    specOpcodes = opcodeTable.map fun r => (r.opc, r.operandWords, r.engineSelect) := rfl

/-- The decoder finds each row of the map under its own opcode. -/
theorem opcodeRow_of_mem_opcodeTable : ∀ r ∈ opcodeTable, opcodeRow r.opc = some r := by decide

theorem opcodeRow_of_mem_specOpcodes {row : Nat × Nat × Bool} (h : row ∈ specOpcodes) :
    ∃ r, opcodeRow row.1 = some r ∧ r.operandWords = row.2.1 ∧ r.engineSelect = row.2.2 := by
  rw [specOpcodes_eq_map, List.mem_map] at h
  obtain ⟨r, hr, rfl⟩ := h
  exact ⟨r, opcodeRow_of_mem_opcodeTable r hr, rfl, rfl⟩

theorem opcodeRow_eq_none_of_specOpcodes {opc : Nat} (h : ∀ row ∈ specOpcodes, opc ≠ row.1) :
    opcodeRow opc = none := by
  rw [specOpcodes_eq_map] at h
  refine List.find?_eq_none.mpr fun r hr => ?_
  simpa using (h _ (List.mem_map_of_mem hr)).symm

/-- The row of a header whose low byte is an opcode of the map. -/
theorem opcodeRow_headerOpc {h : Word} {row : Nat × Nat × Bool} (hrow : row ∈ specOpcodes)
    (hopc : h.toNat % 256 = row.1) :
    ∃ r, opcodeRow (headerOpc h) = some r ∧ r.operandWords = row.2.1 ∧ r.engineSelect = row.2.2 := by
  rw [headerOpc_eq_mod, hopc]
  exact opcodeRow_of_mem_specOpcodes hrow

/-! The four cases of R87, and the packets outside them. -/

/-- R87(a): the header alone is consumed. -/
theorem step_unknownOpcode {s : State} {h : Word} {rest : List Word} (hin : s.input = h :: rest)
    (hopc : ∀ row ∈ specOpcodes, h.toNat % 256 ≠ row.1) :
    step s = .next { s with input := rest, response := some ⟨.illegalCommand, []⟩ } := by
  have hrow : opcodeRow (headerOpc h) = none := by
    rw [headerOpc_eq_mod]
    exact opcodeRow_eq_none_of_specOpcodes hopc
  rw [step_of_illegal (hin ▸ decode_unknownOpcode hrow), rejectPacket_eq, hin, List.drop_one, List.tail_cons]

/-- R87(b), (c): the whole packet is consumed. -/
theorem step_badHeader {s : State} {h : Word} {ops rest : List Word} {row : Nat × Nat × Bool}
    (hrow : row ∈ specOpcodes) (hin : s.input = h :: (ops ++ rest)) (hopc : h.toNat % 256 = row.1)
    (hops : ops.length = row.2.1)
    (hbad : h.toNat / 512 ≠ 0 ∨ (h.getLsbD 8 = true ∧ row.2.2 = false)) :
    step s = .next { s with input := rest, response := some ⟨.illegalCommand, []⟩ } := by
  obtain ⟨r, hr, hwords, hsel⟩ := opcodeRow_headerOpc hrow hopc
  obtain ⟨reject, hdec⟩ := decode_badHeader (rest := ops ++ rest) hr (by simp [hwords, hops])
    (hbad.imp (mt (headerReserved_eq_zero_iff h).mp) fun ⟨hE, hs⟩ => ⟨hE, hsel.trans hs⟩)
  rw [step_of_illegal (hin ▸ hdec), rejectPacket_eq, hin, hwords, ← hops, Nat.add_comm,
    List.drop_succ_cons, List.drop_left]

/-- R87(d): without the capability CE_SAVE does not exist. -/
theorem saveCommand_of_no_serialization {c : Cfg} (s : State) (h : c.serEn = false) :
    saveCommand c s = { s with response := some ⟨.illegalCommand, []⟩ } := by
  simp [saveCommand, h, raiseFault]

/-- R87(d): without the capability CE_RESTORE does not exist. -/
theorem restoreCommand_of_no_serialization {c : Cfg} (len : Word) (record : List Byte) (s : State)
    (h : c.serEn = false) :
    restoreCommand c len record s = { s with response := some ⟨.illegalCommand, []⟩ } := by
  simp [restoreCommand, h, raiseFault]

theorem exec_ceSave (s : State) : exec .ceSave s = .next (saveCommand Config.cfg s) := rfl

theorem exec_ceRestore (len : Word) (record : Vector Word 9) (s : State) :
    exec (.ceRestore len record) s =
      .next (restoreCommand Config.cfg len (recordBytes record) s) := rfl

/-- R87: a whole packet outside its cases is a command whatever its operand words. -/
theorem decode_legalPacket {h : Word} {ops rest : List Word} {row : Nat × Nat × Bool}
    (hrow : row ∈ specOpcodes) (hopc : h.toNat % 256 = row.1) (hops : ops.length = row.2.1)
    (hres : h.toNat / 512 = 0) (hE : h.getLsbD 8 = true → row.2.2 = true) :
    ∃ i, decode (h :: (ops ++ rest)) = .command i (1 + row.2.1) := by
  obtain ⟨r, hr, hwords, hsel⟩ := opcodeRow_headerOpc hrow hopc
  obtain ⟨i, hi, -⟩ := decode_wholePacket (rest := ops ++ rest) hr (by simp [hwords, hops])
    ((headerReserved_eq_zero_iff h).mpr hres) fun hbit => hsel.trans (hE hbit)
  exact ⟨i, hwords ▸ hi⟩

/-- Settles O4, case by case of R87. -/
theorem illegalPacketsChangeNothing : Obligations.IllegalPacketsChangeNothing := by
  unfold Obligations.IllegalPacketsChangeNothing
  refine ⟨fun s h rest => step_unknownOpcode, fun s h ops rest row => step_badHeader, ?_, ?_,
    fun h ops rest row => decode_legalPacket⟩
  · intro c s len record hser
    exact ⟨saveCommand_of_no_serialization s hser,
      restoreCommand_of_no_serialization len record s hser⟩
  · intro s len record
    exact ⟨exec_ceSave s, exec_ceRestore len record s⟩

/-- Settles O5: in both cases the decoder finds an incomplete packet. -/
theorem incompletePacketsWait : Obligations.IncompletePacketsWait := by
  unfold Obligations.IncompletePacketsWait
  constructor
  · intro s hin
    exact step_of_incomplete (hin ▸ decode_nil)
  · intro s h ops row hrow hin hopc hshort
    obtain ⟨r, hr, hwords, -⟩ := opcodeRow_headerOpc hrow hopc
    exact step_of_incomplete (hin ▸ decode_short hr (hwords ▸ hshort))

end Sys2Proof.BlockProofs
end

