-- ==== Sys2Proof/Proofs/Mixer.lean ====
section
/-! PROOFS. The mixer (40_mixer.md): MIX returns the value of R111's pseudocode, and R114's condition for
`mix` to be a bijection. Every step of `mix` is one function of a word, and a composition of such
functions is a bijection exactly when each of them is, since the words are finitely many. -/

-- Elaborated one after another, as in the tests: each proof elaborated at once takes a thread and its stack.
set_option Elab.async false

namespace Sys2Proof.BlockProofs

open Sys2Proof.Machine

/-! Rotations (R16). -/

theorem specRotl64_eq_rotl64 (x : Word) {r : Nat} (hr : r < 64) : specRotl64 x r = rotl64 x r := by
  rw [rotl64, BitVec.rotateLeft_def, Nat.mod_eq_of_lt hr]
  by_cases h0 : r = 0
  · have hshift : x >>> 64 = 0#64 := BitVec.ushiftRight_eq_zero (Nat.le_refl 64)
    simp [specRotl64, h0, hshift]
  · simp [specRotl64, h0]

theorem getMsbD_rotl64 (x : Word) (r n : Nat) :
    (rotl64 x r).getMsbD n = (decide (n < 64) && x.getMsbD ((r + n) % 64)) :=
  BitVec.getMsbD_rotateLeft

theorem rotl64_rotl64 (x : Word) (a b : Nat) : rotl64 (rotl64 x a) b = rotl64 x (a + b) := by
  apply BitVec.eq_of_getMsbD_eq
  intro n _
  have hmod : (a + (b + n) % 64) % 64 = (a + b + n) % 64 := by omega
  simp [getMsbD_rotl64, hmod, Nat.mod_lt]

theorem rotl64_xor (x y : Word) (r : Nat) : rotl64 (x ^^^ y) r = rotl64 x r ^^^ rotl64 y r := by
  apply BitVec.eq_of_getMsbD_eq
  intro n hn
  simp [getMsbD_rotl64, hn]

theorem rotl64_of_dvd (x : Word) {r : Nat} (hr : 64 ∣ r) : rotl64 x r = x := by
  apply BitVec.eq_of_getMsbD_eq
  intro n hn
  have hmod : (r + n) % 64 = n := by omega
  simp [getMsbD_rotl64, hn, hmod]

theorem rotl64_zero_word (r : Nat) : rotl64 0#64 r = 0#64 := by
  apply BitVec.eq_of_getMsbD_eq
  intro n _
  simp [getMsbD_rotl64]

theorem rotl64_allOnes (r : Nat) : rotl64 (BitVec.allOnes 64) r = BitVec.allOnes 64 := by
  apply BitVec.eq_of_getMsbD_eq
  intro n hn
  have hmod : (r + n) % 64 < 64 := Nat.mod_lt _ (by decide)
  simp only [getMsbD_rotl64, BitVec.getMsbD_allOnes, hn, hmod, decide_true, Bool.and_self]

/-! The parameters' ranges (R8). -/

theorem rotAOf_lt (c : Cfg) (r : Fin 3) : rotAOf c r < 64 := c.rotA[r].isLt

theorem rotBOf_lt {c : Cfg} {r : Fin 3} {b : Nat} (h : rotBOf c r = some b) : b < 64 := by
  obtain ⟨k, -, rfl⟩ := Option.map_eq_some_iff.mp h
  exact k.isLt

theorem mulOf_odd (c : Cfg) (r : Fin 4) : Odd (mulOf c r).toNat := by
  rw [Nat.odd_iff, mulOf, BitVec.toNat_append, Nat.shiftLeft_eq, Nat.mul_comm,
    ← Nat.two_pow_add_eq_or_of_lt (by decide)]
  simp [Nat.add_mod]

/-! The xor line of a round (R111). -/

/-- The xor line with two rotations: multiplication by a three-term polynomial in the ring of words
under rotation, of characteristic 2 (R114). -/
def twoRotations (a b : Nat) (y : Word) : Word := y ^^^ rotl64 y a ^^^ rotl64 y b

theorem specMixXor_of_none {c : Cfg} {r : Fin 3} (h : rotBOf c r = none) (y : Word) :
    specMixXor c r y = y ^^^ rotl64 y (rotAOf c r) := by
  simp only [specMixXor, h, specRotl64_eq_rotl64 y (rotAOf_lt c r)]

theorem specMixXor_of_some {c : Cfg} {r : Fin 3} {b : Nat} (h : rotBOf c r = some b) (y : Word) :
    specMixXor c r y = twoRotations (rotAOf c r) b y := by
  simp only [specMixXor, h, specRotl64_eq_rotl64 y (rotAOf_lt c r),
    specRotl64_eq_rotl64 y (rotBOf_lt h), twoRotations]

theorem specMixXor_zero (c : Cfg) (r : Fin 3) : specMixXor c r 0#64 = 0#64 := by
  cases h : rotBOf c r with
  | none => simp [specMixXor_of_none h, rotl64_zero_word]
  | some b => simp [specMixXor_of_some h, twoRotations, rotl64_zero_word]

/-! The mixer is the pseudocode's. -/

theorem mixRound_eq_specMixXor (c : Cfg) (r : Fin 3) (x : Word) :
    mixRound c r x = specMixXor c r (x * mulOf c r.castSucc) := by
  cases h : rotBOf c r with
  | none => simp only [mixRound, h, specMixXor_of_none h]
  | some b => simp only [mixRound, h, specMixXor_of_some h, twoRotations]

theorem mix_eq_specMix (c : Cfg) (x : Word) : mix c x = specMix c x := by
  have hmul (a m : Word) : BitVec.ofNat 64 (a.toNat * m.toNat % 2 ^ 64) = a * m := by
    rw [← BitVec.toNat_mul, BitVec.ofNat_toNat, BitVec.setWidth_eq]
  have hshift (y : Word) : BitVec.ofNat 64 (y.toNat / 2 ^ shiftOf c) = y >>> shiftOf c := by
    rw [← Nat.shiftRight_eq_div_pow, ← BitVec.toNat_ushiftRight, BitVec.ofNat_toNat,
      BitVec.setWidth_eq]
  simp only [mix, mixFinal, mixRound_eq_specMixXor, specMix, hmul, hshift]
  rfl

theorem mix_zero (c : Cfg) : mix c 0 = 0 := by
  simp [mix, mixFinal, mixRound_eq_specMixXor, specMixXor_zero]

theorem exec_mix (x : Word) (s : State) :
    exec (.mix x) s = .next (complete s [mix Config.cfg x]) := rfl

/-! Bijections of words. -/

theorem bijective_of_injective {f : Word → Word} (hf : Function.Injective f) :
    Function.Bijective f :=
  have : Finite Word := Finite.of_injective BitVec.toFin fun _ _ h => BitVec.eq_of_toFin_eq h
  Finite.injective_iff_bijective.mp hf

theorem bijective_comp_iff (g f : Word → Word) :
    Function.Bijective (g ∘ f) ↔ Function.Bijective g ∧ Function.Bijective f := by
  constructor
  · intro h
    have hf : Function.Bijective f := bijective_of_injective h.injective.of_comp
    exact ⟨(hf.of_comp_iff g).mp h, hf⟩
  · rintro ⟨hg, hf⟩
    exact hg.comp hf

theorem mul_odd_bijective {m : Word} (hm : Odd m.toNat) :
    Function.Bijective fun x : Word => x * m := by
  refine bijective_of_injective fun x y h => ?_
  have hmod : x.toNat * m.toNat ≡ y.toNat * m.toNat [MOD 2 ^ 64] := by
    rw [Nat.ModEq, ← BitVec.toNat_mul, ← BitVec.toNat_mul]
    exact congrArg BitVec.toNat h
  have hcoprime : Nat.gcd (2 ^ 64) m.toNat = 1 := (Nat.coprime_two_left.mpr hm).pow_left 64
  have hxy : x.toNat ≡ y.toNat [MOD 2 ^ 64] := Nat.ModEq.cancel_right_of_coprime hcoprime hmod
  exact BitVec.eq_of_toNat_eq (hxy.eq_of_lt_of_lt x.isLt y.isLt)

/-- Two words with one image differ by a word equal to its own shift, and only 0 is that. -/
theorem xor_ushiftRight_bijective {n : Nat} (hn : 0 < n) :
    Function.Bijective fun y : Word => y ^^^ (y >>> n) := by
  refine bijective_of_injective fun y z h => ?_
  have hyz : y ^^^ y >>> n = z ^^^ z >>> n := h
  have hfix : y ^^^ z = (y ^^^ z) >>> n :=
    calc y ^^^ z = y ^^^ (z ^^^ z >>> n) ^^^ z >>> n := by simp [BitVec.xor_assoc]
      _ = y ^^^ (y ^^^ y >>> n) ^^^ z >>> n := by rw [hyz]
      _ = y >>> n ^^^ z >>> n := by rw [← BitVec.xor_assoc, BitVec.xor_self, BitVec.zero_xor]
      _ = (y ^^^ z) >>> n := (BitVec.ushiftRight_xor_distrib y z n).symm
  have hdiv : (y ^^^ z).toNat = (y ^^^ z).toNat / 2 ^ n := by
    rw [← Nat.shiftRight_eq_div_pow, ← BitVec.toNat_ushiftRight, ← hfix]
  have hzero : (y ^^^ z).toNat = 0 := by
    by_contra hpos
    exact absurd hdiv (Nat.div_lt_self (Nat.pos_of_ne_zero hpos) (Nat.one_lt_two_pow hn.ne')).ne'
  exact BitVec.xor_eq_zero_iff.mp (BitVec.eq_of_toNat_eq hzero)

/-- In characteristic 2 the square of a sum is the sum of the squares. -/
theorem twoRotations_twoRotations (a b : Nat) (y : Word) :
    twoRotations a b (twoRotations a b y) = twoRotations (2 * a) (2 * b) y := by
  have hab : rotl64 y (b + a) = rotl64 y (a + b) := by rw [Nat.add_comm]
  simp only [twoRotations, rotl64_xor, rotl64_rotl64, ← Nat.two_mul, hab]
  calc y ^^^ rotl64 y a ^^^ rotl64 y b ^^^ (rotl64 y a ^^^ rotl64 y (2 * a) ^^^ rotl64 y (a + b))
        ^^^ (rotl64 y b ^^^ rotl64 y (a + b) ^^^ rotl64 y (2 * b))
      = (rotl64 y a ^^^ rotl64 y a) ^^^ (rotl64 y b ^^^ rotl64 y b)
          ^^^ (rotl64 y (a + b) ^^^ rotl64 y (a + b))
          ^^^ (y ^^^ rotl64 y (2 * a) ^^^ rotl64 y (2 * b)) := by ac_rfl
    _ = y ^^^ rotl64 y (2 * a) ^^^ rotl64 y (2 * b) := by
        simp only [BitVec.xor_self, BitVec.zero_xor]

theorem twoRotations_iterate (k a b : Nat) :
    (twoRotations a b)^[2 ^ k] = twoRotations (2 ^ k * a) (2 ^ k * b) := by
  induction k with
  | zero => simp
  | succ k ih =>
    have hsq : (twoRotations (2 ^ k * a) (2 ^ k * b))^[2] =
        twoRotations (2 * (2 ^ k * a)) (2 * (2 ^ k * b)) :=
      funext (twoRotations_twoRotations _ _)
    rw [Nat.pow_succ, Function.iterate_mul, ih, hsq]
    congr 1 <;> ring

/-- The 64th power of the polynomial is `1 + 1 + 1 = 1`. -/
theorem twoRotations_bijective (a b : Nat) : Function.Bijective (twoRotations a b) := by
  have hid : (twoRotations a b)^[64] = id := by
    funext y
    rw [show 64 = 2 ^ 6 from rfl, twoRotations_iterate, twoRotations,
      rotl64_of_dvd y (Nat.dvd_mul_right (2 ^ 6) a),
      rotl64_of_dvd y (Nat.dvd_mul_right (2 ^ 6) b)]
    simp
  refine bijective_of_injective (Function.Injective.of_comp (f := (twoRotations a b)^[63]) ?_)
  rw [← Function.iterate_succ, hid]
  exact Function.injective_id

/-- One rotation sends both 0 and the word of all ones to 0 (R114). -/
theorem oneRotation_not_injective (a : Nat) :
    ¬ Function.Injective fun y : Word => y ^^^ rotl64 y a := by
  intro h
  have hsame : BitVec.allOnes 64 = 0#64 :=
    h (by simp only [rotl64_allOnes, rotl64_zero_word, BitVec.xor_self])
  exact absurd hsame (by decide)

/-! The steps of `mix` as bijections. -/

theorem specMixXor_bijective_iff (c : Cfg) (r : Fin 3) :
    Function.Bijective (specMixXor c r) ↔ (rotBOf c r).isSome = true := by
  cases h : rotBOf c r with
  | none =>
    rw [funext (specMixXor_of_none h)]
    exact iff_of_false (fun hbij => oneRotation_not_injective _ hbij.1) (by decide)
  | some b =>
    rw [funext (specMixXor_of_some h)]
    exact iff_of_true (twoRotations_bijective _ b) rfl

theorem mixRound_bijective_iff (c : Cfg) (r : Fin 3) :
    Function.Bijective (mixRound c r) ↔ (rotBOf c r).isSome = true := by
  have hcomp : mixRound c r = specMixXor c r ∘ fun x => x * mulOf c r.castSucc :=
    funext (mixRound_eq_specMixXor c r)
  rw [hcomp, (mul_odd_bijective (mulOf_odd c _)).of_comp_iff, specMixXor_bijective_iff]

theorem mixFinal_bijective (c : Cfg) : Function.Bijective (mixFinal c) :=
  (xor_ushiftRight_bijective (Nat.succ_pos _)).comp (mul_odd_bijective (mulOf_odd c 3))

theorem mix_bijective_iff (c : Cfg) :
    Function.Bijective (mix c) ↔ ∀ r : Fin 3, (rotBOf c r).isSome = true := by
  have hcomp : mix c = mixFinal c ∘ mixRound c 2 ∘ mixRound c 1 ∘ mixRound c 0 := rfl
  rw [hcomp, (mixFinal_bijective c).of_comp_iff', bijective_comp_iff, bijective_comp_iff]
  simp only [mixRound_bijective_iff]
  constructor
  · rintro ⟨h2, h1, h0⟩ r
    fin_cases r <;> assumption
  · exact fun h => ⟨h 2, h 1, h 0⟩

/-! The statements. -/

/-- Settles O11: the machine's mixer is the pseudocode's, and MIX completes with its value. -/
theorem mixReturnsThePseudocodesValue : Obligations.MixReturnsThePseudocodesValue := by
  unfold Obligations.MixReturnsThePseudocodesValue
  refine ⟨fun x s => ?_, mix_eq_specMix, mix_zero, by decide +kernel⟩
  rw [exec_mix, mix_eq_specMix, complete]

/-- Settles O12, by the bijectivity of each step of `mix`. -/
theorem mixBijectiveIffTwoRotations : Obligations.MixBijectiveIffTwoRotations := by
  unfold Obligations.MixBijectiveIffTwoRotations
  exact mix_bijective_iff

end Sys2Proof.BlockProofs
end

