-- ==== Sys2Proof/Proofs/CounterCommands.lean ====
section
/-! PROOFS. The counter commands (41_counter.md R121 to R132) and the period of single advances (R24), from
what each advance adds to the counter's integer modulo 2^1024. -/

-- Elaborated one after another, as in the tests: each proof elaborated at once takes a thread and its stack.
set_option Elab.async false

namespace Sys2Proof.BlockProofs

open Sys2Proof.Machine Sys2Proof.EngineProofs

/-! The arms of the dispatch, with their next states written out. -/

theorem exec_ctrAdv1 (s : State) :
    exec .ctrAdv1 s =
      .next { s with ctr := advanceByOne Config.cfg s.ctr, response := some ⟨.ok, []⟩ } := rfl

theorem exec_ctrAdvn (n : Word) (s : State) :
    exec (.ctrAdvn n) s =
      .next { s with ctr := advanceByScalar Config.cfg n s.ctr, response := some ⟨.ok, []⟩ } := rfl

theorem exec_ctrJump (stp : Limbs) (s : State) :
    exec (.ctrJump stp) s =
      .next { s with ctr := bigJump Config.cfg stp s.ctr, response := some ⟨.ok, []⟩ } := rfl

theorem exec_ctrEq (w : Limbs) (s : State) :
    exec (.ctrEq w) s =
      .next { s with response := some ⟨.ok, [if ctrEq s.ctr w then 1 else 0]⟩ } := rfl

theorem exec_ctrLoad (w : Limbs) (s : State) :
    exec (.ctrLoad w) s =
      .next { s with
        ctr := w, lpe := { buf := s.lpe.buf, cur := 8, seeded := true },
        response := some ⟨.ok, []⟩ } := rfl

theorem exec_ctrRead (s : State) :
    exec .ctrRead s = .next { s with response := some ⟨.ok, s.ctr.toList⟩ } := rfl

/-! The carry primitive and the advances (R122 to R128). -/

/-- Settles O13: the congruence of `add_at`, and limb 16, which does not exist. -/
theorem addAtAddsModuloN : Obligations.AddAtAddsModuloN := by
  unfold Obligations.AddAtAddsModuloN
  exact ⟨fun S i d _ => valLimbs_eq_mod (valLimbs_addAt S i d), fun S d => by simp [addAt]⟩

/-- Settles O14, by what the two loops add. -/
theorem counterAdvancesAddIncrements : Obligations.CounterAdvancesAddIncrements := by
  unfold Obligations.CounterAdvancesAddIncrements
  refine ⟨fun c n S => ⟨?_, ?_⟩, fun s => ⟨_, exec_ctrAdv1 s, ?_⟩,
    fun n s => ⟨_, exec_ctrAdvn n s, ?_⟩⟩
  · exact valLimbs_eq_mod (valLimbs_advanceByOne c S)
  · exact valLimbs_eq_mod (valLimbs_advanceByScalar c n S)
  · exact valLimbs_eq_mod (valLimbs_advanceByOne _ s.ctr)
  · exact valLimbs_eq_mod (valLimbs_advanceByScalar _ n s.ctr)

/-- Settles O15, by what the convolution adds. -/
theorem ctrJumpAddsStepIncrements : Obligations.CtrJumpAddsStepIncrements := by
  unfold Obligations.CtrJumpAddsStepIncrements
  exact ⟨fun c stp S => valLimbs_eq_mod (valLimbs_bigJump c stp S),
    fun stp s => ⟨_, exec_ctrJump stp s, valLimbs_eq_mod (valLimbs_bigJump _ stp s.ctr)⟩⟩

/-- Settles O16: both add n increments, and the integer determines the limbs. -/
theorem scalarAdvanceIsRepeatedAdvance : Obligations.ScalarAdvanceIsRepeatedAdvance := by
  unfold Obligations.ScalarAdvanceIsRepeatedAdvance
  intro c n S
  have hn : BitVec.ofNat 64 n.toNat = n := by rw [BitVec.ofNat_toNat, BitVec.setWidth_eq]
  rw [← advanceByScalar_eq_iterate c n.toNat n.isLt, hn]

/-- A jump lands on every counter that lies the step's number of increments, modulo 2^1024, further on. -/
theorem bigJump_eq_of_modEq {c : Cfg} {stp S T : Limbs} {n : Nat}
    (hT : valLimbs T ≡ valLimbs S + n * valLimbs (incOf c) [MOD modulus])
    (hstp : valLimbs stp ≡ n [MOD modulus]) : bigJump c stp S = T :=
  eq_of_valLimbs_modEq ((valLimbs_bigJump c stp S).trans
    (((hstp.mul_right _).add_left _).trans hT.symm))

/-- A step vector with only its lowest limb stands for that limb. -/
theorem valLimbs_of_low_limb {stp : Limbs} (h : ∀ i : Fin 16, i ≠ 0 → stp[i] = 0) :
    valLimbs stp = stp[0].toNat := by
  rw [valLimbs_eq_sum, ← List.ofFn_eq_map, List.sum_ofFn, Finset.sum_eq_single (0 : Fin 16)]
  · simp
  · intro i _ hi
    simp [h i hi]
  · intro h0
    exact absurd (Finset.mem_univ _) h0

/-- Settles O17: in each case both sides add the same number of increments. -/
theorem jumpsComposeBySum : Obligations.JumpsComposeBySum := by
  unfold Obligations.JumpsComposeBySum
  intro c S
  refine ⟨?zero, ?scalar, ?sum⟩
  case zero =>
    have hzero : valLimbs (Vector.replicate 16 0) = 0 := valLimbs_of_low_limb (by simp)
    exact bigJump_eq_of_modEq (n := 0) (by rw [zero_mul, add_zero]) (by rw [hzero])
  case scalar =>
    rintro n stp rfl hhigh
    exact bigJump_eq_of_modEq (valLimbs_advanceByScalar c _ S) (by rw [valLimbs_of_low_limb hhigh])
  case sum =>
    intro a b d hd
    have hsum : valLimbs d ≡ valLimbs a + valLimbs b [MOD modulus] := by
      rw [hd, ← modulus_eq]
      exact Nat.mod_modEq _ _
    have htwice : valLimbs (bigJump c b (bigJump c a S)) ≡
        valLimbs S + (valLimbs a + valLimbs b) * valLimbs (incOf c) [MOD modulus] := by
      rw [add_mul, ← add_assoc]
      exact (valLimbs_bigJump c b _).trans ((valLimbs_bigJump c a S).add_right _)
    exact (bigJump_eq_of_modEq htwice hsum).symm

/-! The period of single advances (R24, R124). -/

/-- The increment is odd, since its limb 0 is (R9). -/
theorem valLimbs_incOf_odd (c : Cfg) : Odd (valLimbs (incOf c)) := by
  have hlow : Odd (incOf c)[0].toNat := by
    rw [incOf, Vector.getElem_ofFn, dif_pos rfl, BitVec.toNat_append, Nat.odd_iff]
    simp
  rw [valLimbs_eq_sum, ← List.ofFn_eq_map, List.sum_ofFn, Fin.sum_univ_succ]
  refine Odd.add_even (by simpa using hlow) (Finset.even_sum _ fun i _ => ?_)
  exact Even.mul_left (Even.pow_of_ne_zero even_two (by simp)) _

/-- So it shares no factor with a power of two. -/
theorem coprime_two_pow_incOf (c : Cfg) (n : Nat) : Nat.Coprime (2 ^ n) (valLimbs (incOf c)) :=
  Nat.Coprime.pow_left n (Nat.coprime_two_left.mpr (valLimbs_incOf_odd c))

theorem coprime_modulus_incOf (c : Cfg) : Nat.Coprime modulus (valLimbs (incOf c)) :=
  coprime_two_pow_incOf c 1024

/-- Settles O18: k advances add k times an odd number, which is nothing modulo 2^1024 exactly when 2^1024
divides k. -/
theorem counterPeriodIsFull : Obligations.CounterPeriodIsFull := by
  unfold Obligations.CounterPeriodIsFull
  intro c S k
  have hadds := valLimbs_iterate_advanceByOne c k S
  rw [← modulus_eq]
  calc (advanceByOne c)^[k] S = S
      ↔ valLimbs S + k * valLimbs (incOf c) ≡ valLimbs S + 0 [MOD modulus] :=
        ⟨fun h => by rw [h] at hadds; exact hadds.symm,
          fun h => eq_of_valLimbs_modEq (hadds.trans h)⟩
    _ ↔ k * valLimbs (incOf c) ≡ 0 [MOD modulus] := Nat.ModEq.add_iff_left (Nat.ModEq.refl _)
    _ ↔ modulus ∣ k * valLimbs (incOf c) := Nat.modEq_zero_iff_dvd
    _ ↔ modulus ∣ k := (coprime_modulus_incOf c).dvd_mul_right

/-! Compare, load and read (R129 to R131). -/

/-- `ctr_eq` compares all sixteen limbs (R35). -/
theorem ctrEq_iff (A B : Limbs) : ctrEq A B = true ↔ A = B := by
  constructor
  · intro h
    exact Vector.ext fun i hi => beq_iff_eq.mp (List.all_eq_true.mp h ⟨i, hi⟩ (List.mem_finRange _))
  · rintro rfl
    exact ctrEq_self A

/-- A vector's list is its entries in the order of their indices. -/
theorem toList_eq_ofFn {α : Type} {n : Nat} (v : Vector α n) :
    v.toList = List.ofFn fun i : Fin n => v[i] :=
  List.ext_getElem (by simp) (by simp)

/-- Settles O19: the three commands' next states, with `ctr_eq` read as equality and the limbs listed. -/
theorem counterCompareLoadRead : Obligations.CounterCompareLoadRead := by
  unfold Obligations.CounterCompareLoadRead
  refine ⟨fun w s => ?compare, exec_ctrLoad, fun s => ?read⟩
  case compare => simp only [exec_ctrEq, ctrEq_iff]
  case read =>
    rw [exec_ctrRead, toList_eq_ofFn]
    rfl

end Sys2Proof.BlockProofs
end

