-- ==== Sys2Proof/Proofs/ChaCha.lean ====
section
/-! PROOFS. ChaCha20Core (42_chacha.md): the quarter round on its four words, the block function, the blocks
that the engines render (R63, R201), and CHACHA. -/

-- Elaborated one after another, as in the tests: each proof elaborated at once takes a thread and its stack.
set_option Elab.async false

namespace Sys2Proof.BlockProofs

open Sys2Proof.Machine Sys2Proof.EngineProofs

/-! The quarter round (R152). -/

/-- R16: rotation by the shifts of its definition. -/
theorem rotl32_eq_specRotl32 (x : Word32) {r : Nat} (h : r < 32) : rotl32 x r = specRotl32 x r :=
  BitVec.rotateLeft_eq_rotateLeftAux_of_lt h

theorem getElem_setWord (X : ChaChaState) (i j : Fin 16) (v : Word32) :
    (X.set i v)[j] = if j = i then v else X[j] := by
  simp [Vector.getElem_set, Fin.val_inj, eq_comm]

/-- R152: the quarter round is four writes, of the values its sequence computes. -/
theorem quarterRound_eq_writes (X : ChaChaState) (a b c d : Fin 16) :
    quarterRound X a b c d =
      let a1 := X[a] + X[b]
      let d1 := specRotl32 (X[d] ^^^ a1) 16
      let c1 := X[c] + d1
      let b1 := specRotl32 (X[b] ^^^ c1) 12
      let a2 := a1 + b1
      let d2 := specRotl32 (d1 ^^^ a2) 8
      let c2 := c1 + d2
      let b2 := specRotl32 (b1 ^^^ c2) 7
      (((X.set a a2).set b b2).set c c2).set d d2 := by
  simp only [quarterRound, rotl32_eq_specRotl32, Nat.reduceLT]

theorem quarterRound_other (X : ChaChaState) (a b c d k : Fin 16) (h : k ∉ [a, b, c, d]) :
    (quarterRound X a b c d)[k] = X[k] := by
  simp only [List.mem_cons, List.not_mem_nil, or_false, not_or] at h
  obtain ⟨ha, hb, hc, hd⟩ := h
  simp only [quarterRound, getElem_setWord, ha, hb, hc, hd, if_false]

/-- Settles O20: the four writes of R152 go to different words, so each is read back. -/
theorem quarterRoundFollowsItsSequence : Obligations.QuarterRoundFollowsItsSequence := by
  unfold Obligations.QuarterRoundFollowsItsSequence
  intro X a b c d hnodup a1 d1 c1 b1 a2 d2 c2 b2 Y
  simp only [List.nodup_cons, List.mem_cons, List.not_mem_nil, or_false, not_or] at hnodup
  obtain ⟨⟨hab, hac, had⟩, ⟨hbc, hbd⟩, hcd, -⟩ := hnodup
  have hY : Y = (((X.set a a2).set b b2).set c c2).set d d2 := quarterRound_eq_writes X a b c d
  refine ⟨?_, ?_, ?_, ?_, quarterRound_other X a b c d⟩
  · simp only [hY, getElem_setWord, hab, hac, had, if_true, if_false]
  · simp only [hY, getElem_setWord, hbc, hbd, if_true, if_false]
  · simp only [hY, getElem_setWord, hcd, if_true, if_false]
  · simp only [hY, getElem_setWord, if_true]

/-! The block function (R153, R154). -/

theorem doubleRounds_eq_iterate (n : Nat) (X : ChaChaState) :
    doubleRounds n X = (fun X => diagonalRound (columnRound X))^[n] X := by
  induction n generalizing X with
  | zero => rfl
  | succ n ih => exact ih _

/-- R154: the feed-forward adds the initial word. -/
theorem getElem_chachaBlock (X0 : ChaChaState) (i : Fin 16) :
    (chachaBlock X0)[i] = (doubleRounds 10 X0)[i] + X0[i] := by
  simp [chachaBlock]

/-! The rendered blocks (R63, R155, R201). -/

/-- R63: word `k` of the block that a ChaCha state's bytes make is the pair of its words `2k` and `2k + 1`. -/
theorem getElem_blockOfBytes_bytesOfWords32 (Y : ChaChaState) (k : Fin 8) :
    (blockOfBytes (bytesOfWords32 Y.toList))[k] = Y[2 * k.val + 1] ++ Y[2 * k.val] := by
  refine word_eq_of_byteAt_eq fun j => ?_
  rw [byteAt_append _ _ _ j.isLt]
  refine (byteAt_words64 _ k.val k.isLt j.isLt).trans ?_
  split
  · rw [show 8 * k.val + j.val = 4 * (2 * k.val) + j.val by omega]
    exact byteOf_bytesOfWords32 Y ⟨2 * k.val, by omega⟩ ⟨j.val, by omega⟩
  · rw [show 8 * k.val + j.val = 4 * (2 * k.val + 1) + (j.val - 4) by omega]
    exact byteOf_bytesOfWords32 Y ⟨2 * k.val + 1, by omega⟩ ⟨j.val - 4, by omega⟩

theorem getElem_keystreamBlock (key : Vector Word32 8) (nonce : Vector Word32 2) (c : Word)
    (k : Fin 8) :
    (keystreamBlock key nonce c)[k] =
      (chachaBlock (chachaInit key nonce c))[2 * k.val + 1] ++
        (chachaBlock (chachaInit key nonce c))[2 * k.val] :=
  getElem_blockOfBytes_bytesOfWords32 _ k

theorem getElem_renderLpe (c : Cfg) (S : Limbs) (k : Fin 8) :
    (renderLpe c S)[k] = mix c (S[8 + k.val]) := by
  simp [renderLpe]

/-- Settles O60: each word of a rendered block is read from its own eight bytes, or its own limb. -/
theorem renderedBlocksAreTheRulesBlocks : Obligations.RenderedBlocksAreTheRulesBlocks := by
  unfold Obligations.RenderedBlocksAreTheRulesBlocks
  exact ⟨getElem_keystreamBlock, getElem_renderLpe⟩

/-! CHACHA (R156). -/

/-- The block function's result has 64 bytes (R155). -/
theorem length_permute (key : Vector Word32 8) (nonce : Vector Word32 2) (ctr : Word) :
    (permute key nonce ctr).length = 64 := by
  simp [permute, length_bytesOfWords32]

/-- R156, R65: CHACHA returns the words of the keystream block of its operands. -/
theorem exec_chacha (key : Vector Word 4) (nonce c : Word) (s : State) :
    exec (.chacha key nonce c) s =
      .next (complete s (keystreamBlock (keyOfWords key) (nonceOfWord nonce) c).toList) := by
  rw [keystreamBlock, blockOfBytes, ← packBytes_eq_words64 (length_permute _ _ _)]
  rfl

/-- R84: the key words are the halves of the operand words. -/
theorem keyOfWords_eq (ops : Vector Word 4) :
    keyOfWords ops =
      #v[ops[0].extractLsb' 0 32, ops[0].extractLsb' 32 32,
         ops[1].extractLsb' 0 32, ops[1].extractLsb' 32 32,
         ops[2].extractLsb' 0 32, ops[2].extractLsb' 32 32,
         ops[3].extractLsb' 0 32, ops[3].extractLsb' 32 32] := by
  have hops : ops.toList = [ops[0], ops[1], ops[2], ops[3]] := toList_eq_ofFn ops
  have hhalves := words32_bytesOfWords (n := 8) ops.toList
  rw [hops] at hhalves
  obtain ⟨h0, h1⟩ := hhalves 0 (by omega)
  obtain ⟨h2, h3⟩ := hhalves 1 (by omega)
  obtain ⟨h4, h5⟩ := hhalves 2 (by omega)
  obtain ⟨h6, h7⟩ := hhalves 3 (by omega)
  refine Vector.toList_inj.mp ?_
  rw [keyOfWords, hops, toList_eq_ofFn]
  exact congrArg₂ List.cons h0 <| congrArg₂ List.cons h1 <| congrArg₂ List.cons h2 <|
    congrArg₂ List.cons h3 <| congrArg₂ List.cons h4 <| congrArg₂ List.cons h5 <|
    congrArg₂ List.cons h6 <| congrArg₂ List.cons h7 rfl

/-- R84: the nonce words are the halves of the operand word. -/
theorem nonceOfWord_eq (op : Word) :
    nonceOfWord op = #v[op.extractLsb' 0 32, op.extractLsb' 32 32] := by
  obtain ⟨h0, h1⟩ := words32_bytesOfWords (n := 2) [op] 0 (by omega)
  refine Vector.toList_inj.mp ?_
  rw [nonceOfWord, toList_eq_ofFn]
  exact congrArg₂ List.cons h0 (congrArg₂ List.cons h1 rfl)

/-- The pairs of a block's words, listed (R63). -/
theorem toList_keystreamBlock (key : Vector Word32 8) (nonce : Vector Word32 2) (c : Word) :
    let Y := chachaBlock (chachaInit key nonce c)
    (keystreamBlock key nonce c).toList =
      [Y[1] ++ Y[0], Y[3] ++ Y[2], Y[5] ++ Y[4], Y[7] ++ Y[6],
       Y[9] ++ Y[8], Y[11] ++ Y[10], Y[13] ++ Y[12], Y[15] ++ Y[14]] := by
  rw [toList_eq_ofFn, funext (getElem_keystreamBlock key nonce c)]
  rfl

/-- Settles O21: ten double rounds are an iteration, and the operand words are read as their halves. -/
theorem chachaReturnsTheBlock : Obligations.ChachaReturnsTheBlock := by
  unfold Obligations.ChachaReturnsTheBlock
  refine ⟨fun X0 i => ?_, fun key nonce c s => ?_⟩
  · rw [getElem_chachaBlock, doubleRounds_eq_iterate]
    rfl
  · rw [exec_chacha, toList_keystreamBlock, keyOfWords_eq, nonceOfWord_eq]
    rfl

end Sys2Proof.BlockProofs
end

