-- ==== Sys2Proof/Proofs/LpeSeeding.lean ====
section
/-! PROOFS. The seedings of LPE (43_lpe.md R204 to R207): the counter each of them takes, by its bytes for a
draw and by its integer for a jump from the zero counter. -/

-- Elaborated one after another, as in the tests: each proof elaborated at once takes a thread and its stack.
set_option Elab.async false

namespace Sys2Proof.BlockProofs

open Sys2Proof.Machine Sys2Proof.EngineProofs Sys2Proof.FaultProofs

/-- Taking a counter writes the counter, empties the buffer without writing it, and sets SEEDED. -/
theorem complete_seedLpe (s : State) (S : Limbs) :
    complete (seedLpe s S) [] =
      { s with
        ctr := S, lpe := { buf := s.lpe.buf, cur := 8, seeded := true },
        response := some ⟨.ok, []⟩ } := rfl

/-! LPE_SEED_ENT (R205). -/

theorem byteAt_limbsOfEntropy (b : Vector Byte 128) (i : Fin 16) (j : Fin 8) :
    byteAt (limbsOfEntropy b)[i] j.val = b[8 * i.val + j.val] := by
  have hlt : 8 * i.val + j.val < b.toList.length := by simp; omega
  calc byteAt (words64 16 b.toList)[i] j.val
      = byteOf b.toList (8 * i.val + j.val) := byteAt_words64 _ i.val i.isLt j.isLt
    _ = b.toList[8 * i.val + j.val] := byteOf_eq_getElem hlt
    _ = b[8 * i.val + j.val] := Vector.getElem_toList hlt

/-- LPE_SEED_ENT waits, fails or seeds, as the answer of its draw has it (R73, R316). -/
theorem exec_lpeSeedEnt_cases (s : State) :
    exec .lpeSeedEnt s = .next (awaitDraw s) ∨
    (∃ rest, exec .lpeSeedEnt s =
      .next (raiseFault { s with entropy128 := rest } .entropyFailure)) ∨
    ∃ b rest, exec .lpeSeedEnt s =
      .next (complete (seedLpe { s with entropy128 := rest } (limbsOfEntropy b)) []) := by
  match h : s.entropy128 with
  | [] => exact .inl (exec_lpeSeedEnt_unanswered s h)
  | none :: rest => exact .inr (.inl ⟨rest, exec_lpeSeedEnt_failed s rest h⟩)
  | some b :: rest => exact .inr (.inr ⟨b, rest, exec_lpeSeedEnt_drawn s b rest h⟩)

/-- Settles O32, by the two answers a draw can have. -/
theorem lpeSeedEntLoadsTheDraw : Obligations.LpeSeedEntLoadsTheDraw := by
  unfold Obligations.LpeSeedEntLoadsTheDraw
  constructor
  · exact exec_lpeSeedEnt_failed
  · intro s b rest h
    refine ⟨limbsOfEntropy b, ?_, byteAt_limbsOfEntropy b⟩
    rw [exec_lpeSeedEnt_drawn s b rest h, complete_seedLpe]

/-! LPE_SEED_SEQ and LPE_SEED_U64 (R206, R207). -/

theorem exec_lpeSeedSeq (w : Limbs) (s : State) :
    exec (.lpeSeedSeq w) s = .next (complete (seedByJump Config.cfg w s) []) := rfl

theorem exec_lpeSeedU64 (seed : Word) (s : State) :
    exec (.lpeSeedU64 seed) s =
      .next (complete (seedByJump Config.cfg (expandSeed Config.cfg seed) s) []) := rfl

theorem getElem_expandSeed (c : Cfg) (seed : Word) (i : Fin 16) :
    (expandSeed c seed)[i] = c.expand seed i := by simp [expandSeed]

theorem valLimbs_zeroLimbs : valLimbs zeroLimbs = 0 := by decide

/-- A jump from the zero counter ends at the distance times the increment. -/
theorem valLimbs_bigJump_zeroLimbs (c : Cfg) (w : Limbs) :
    valLimbs (bigJump c w zeroLimbs) = valLimbs w * valLimbs (incOf c) % 2 ^ 1024 := by
  have hjump := valLimbs_bigJump c w zeroLimbs
  rw [valLimbs_zeroLimbs, Nat.zero_add] at hjump
  exact valLimbs_eq_mod hjump

/-- Settles O33: both seedings are the big-integer jump of CTR_JUMP, from the zero counter. -/
theorem lpeSeedsJumpFromZero : Obligations.LpeSeedsJumpFromZero := by
  unfold Obligations.LpeSeedsJumpFromZero
  constructor
  · intro w s
    refine ⟨bigJump Config.cfg w zeroLimbs, ?_, valLimbs_bigJump_zeroLimbs _ _⟩
    rw [exec_lpeSeedSeq, seedByJump, complete_seedLpe]
  · intro seed s
    refine ⟨bigJump Config.cfg (expandSeed Config.cfg seed) zeroLimbs, expandSeed Config.cfg seed,
      ?_, getElem_expandSeed _ _, valLimbs_bigJump_zeroLimbs _ _⟩
    rw [exec_lpeSeedU64, seedByJump, complete_seedLpe]

end Sys2Proof.BlockProofs
end

