-- ==== Sys2Proof/Proofs/CryptoRecord.lean ====
section
/-! SUPPORT. The record of CE_SAVE and CE_RESTORE (45_crypto.md R240 to R244): what its bytes are, what the
checks of a restore mean on the bytes, and which CE group a record stands for. -/

-- Elaborated one after another, as in the tests: each proof elaborated at once takes a thread and its stack.
set_option Elab.async false

namespace Sys2Proof.BlockProofs

open Sys2Proof.Machine Sys2Proof.EngineProofs

/-! The record as a byte string (R241). -/

theorem leBytes_setWidth {w : Nat} (x : BitVec w) {n : Nat} (h : n ≤ 8) :
    leBytes (x.setWidth 64) n = leBytes x n := by
  refine List.map_congr_left fun j hj => byteAt_setWidth x ?_
  have := List.mem_range.mp hj
  omega

/-- Writes of `m` bytes one after another, at the end of the output (R66). -/
theorem foldl_outWrite_at_end (m n : Nat) :
    ∀ (off : Fin n → Nat) (v : Fin n → Word) (out : List Byte),
      (∀ i, off i = out.length + m * i.val) →
      (List.finRange n).foldl (fun o i => outWrite o (off i) m (v i)) out =
        out ++ (List.finRange n).flatMap fun i => leBytes (v i) m := by
  induction n with
  | zero => intro off v out _; simp
  | succ n ih =>
    intro off v out hoff
    have hinit := ih (fun i => off i.castSucc) (fun i => v i.castSucc) out fun i => hoff i.castSucc
    have hlen := length_flatMap_of_length (fun i : Fin n => leBytes (v i.castSucc) m) m
      (fun i => length_leBytes _ m) (List.finRange n)
    rw [List.length_finRange] at hlen
    simp only [List.finRange_succ_last, List.foldl_append, List.foldl_map, List.foldl_cons,
      List.foldl_nil, hinit, List.flatMap_append, List.flatMap_map, List.flatMap_singleton]
    rw [outWrite_at_end _ m _ (by rw [List.length_append, hlen, hoff]; rfl), List.append_assoc]

/-- The same writes for the elements of a vector. -/
theorem foldl_outWrite_vector {w n : Nat} (m : Nat) (hm : m ≤ 8) (v : Vector (BitVec w) n)
    (off : Fin n → Nat) (out : List Byte) (hoff : ∀ i, off i = out.length + m * i.val) :
    (List.finRange n).foldl (fun o i => outWrite o (off i) m (v[i].setWidth 64)) out =
      out ++ v.toList.flatMap fun x => leBytes x m := by
  have hv : v.toList = (List.finRange n).map fun i => v[i] :=
    List.ext_getElem (by simp) (by simp)
  rw [foldl_outWrite_at_end m n off _ out hoff, hv, List.flatMap_map]
  simp only [leBytes_setWidth _ hm]

theorem leBytes_byte (b : Byte) : leBytes b 1 = [b] := by
  have hb : byteAt b 0 = b := by simp [byteAt]
  simp [leBytes, hb]

theorem byteOf_leBytes {w : Nat} (v : BitVec w) {n k : Nat} (h : k < n) :
    byteOf (leBytes v n) k = byteAt v k := byteOf_of_getElem? (getElem?_leBytes v h)

/-- The record is its fields one after another (R241). -/
theorem saveRecord_eq (c : Cfg) (g : CeGroup) :
    saveRecord c g =
      c.serMagic.toList ++ ([c.serVersion] ++ (bytesOfWords32 g.key.toList ++
        (bytesOfWords32 g.nonce.toList ++ (leBytes g.ctr 8 ++
          (leBytes (BitVec.ofNat 64 g.cur.val) 1 ++ leBytes (0 : Word) 7))))) := by
  have hmagic : c.serMagic.toList.flatMap (fun x => leBytes x 1) = c.serMagic.toList := by
    simp [leBytes_byte]
  have hver : leBytes (c.serVersion.setWidth 64) 1 = [c.serVersion] := by
    rw [leBytes_setWidth _ (by omega), leBytes_byte]
  unfold saveRecord
  dsimp only
  rw [foldl_outWrite_vector 1 (by omega) c.serMagic _ [] (by simp), hmagic, List.nil_append,
    outWrite_at_end (off := 8) _ 1 _ (by simp), hver,
    foldl_outWrite_vector 4 (by omega) g.key _ _ (by simp),
    foldl_outWrite_vector 4 (by omega) g.nonce _ _
      (by simp [length_flatMap_of_length _ 4 fun x : Word32 => length_leBytes x 4])]
  change outWrite (outWrite (outWrite (c.serMagic.toList ++ [c.serVersion] ++
    bytesOfWords32 g.key.toList ++ bytesOfWords32 g.nonce.toList) 49 8 g.ctr) 57 1 _) 58 7 0 = _
  rw [outWrite_at_end _ 8 _ (by simp [length_bytesOfWords32]),
    outWrite_at_end _ 1 _ (by simp [length_bytesOfWords32]),
    outWrite_at_end _ 7 _ (by simp [length_bytesOfWords32])]
  simp only [List.append_assoc]

theorem length_saveRecord (c : Cfg) (g : CeGroup) : (saveRecord c g).length = 65 := by
  simp [saveRecord_eq, length_bytesOfWords32]

/-- A byte string carries the record of a CE group: each field of R241 stands at its offset. -/
structure CarriesRecord (bs : List Byte) (c : Cfg) (g : CeGroup) : Prop where
  magic : ∀ j : Fin 8, byteOf bs j.val = c.serMagic[j]
  version : byteOf bs 8 = c.serVersion
  key : ∀ (i : Fin 8) (j : Fin 4), byteOf bs (9 + 4 * i.val + j.val) = byteAt g.key[i] j.val
  nonce : ∀ (i : Fin 2) (j : Fin 4), byteOf bs (41 + 4 * i.val + j.val) = byteAt g.nonce[i] j.val
  ctr : ∀ j : Fin 8, byteOf bs (49 + j.val) = byteAt g.ctr j.val
  cur : (byteOf bs 57).toNat = g.cur.val
  reserved : ∀ j : Fin 7, byteOf bs (58 + j.val) = 0

theorem saveRecord_carries (c : Cfg) (g : CeGroup) : CarriesRecord (saveRecord c g) c g := by
  have hkey : (bytesOfWords32 g.key.toList).length = 32 := by simp [length_bytesOfWords32]
  have hnonce : (bytesOfWords32 g.nonce.toList).length = 8 := by simp [length_bytesOfWords32]
  have hmagic : c.serMagic.toList.length = 8 := by simp
  have hversion : [c.serVersion].length = 1 := rfl
  have hpast : ∀ k, byteOf (saveRecord c g) (41 + k) =
      byteOf (bytesOfWords32 g.nonce.toList ++ (leBytes g.ctr 8 ++
        (leBytes (BitVec.ofNat 64 g.cur.val) 1 ++ leBytes (0 : Word) 7))) k := by
    intro k
    rw [saveRecord_eq, show 41 + k = 8 + (1 + (32 + k)) by omega, byteOf_append_right _ _ hmagic,
      byteOf_append_right _ _ hversion, byteOf_append_right _ _ hkey]
  constructor
  case magic =>
    intro j
    rw [saveRecord_eq, byteOf_append_left _ _ (by simp), byteOf_eq_getElem (by simp)]
    simp
  case version =>
    rw [saveRecord_eq]
    exact byteOf_append_right _ _ hmagic 0
  case key =>
    intro i j
    rw [saveRecord_eq, show 9 + 4 * i.val + j.val = 8 + (1 + (4 * i.val + j.val)) by omega,
      byteOf_append_right _ _ hmagic, byteOf_append_right _ _ hversion,
      byteOf_append_left _ _ (by omega), byteOf_bytesOfWords32]
  case nonce =>
    intro i j
    rw [Nat.add_assoc, hpast, byteOf_append_left _ _ (by omega), byteOf_bytesOfWords32]
  case ctr =>
    intro j
    rw [show 49 + j.val = 41 + (8 + j.val) by omega, hpast, byteOf_append_right _ _ hnonce,
      byteOf_append_left _ _ (by simp), byteOf_leBytes _ j.isLt]
  case cur =>
    have hcur := g.cur.isLt
    rw [show 57 = 41 + (8 + (8 + 0)) by rfl, hpast, byteOf_append_right _ _ hnonce,
      byteOf_append_right _ _ (length_leBytes g.ctr 8), byteOf_append_left _ _ (by simp),
      byteOf_leBytes _ (by omega)]
    simp only [byteAt, BitVec.extractLsb'_toNat, BitVec.toNat_ofNat, Nat.mul_zero,
      Nat.shiftRight_zero]
    omega
  case reserved =>
    intro j
    rw [show 58 + j.val = 41 + (8 + (8 + (1 + j.val))) by omega, hpast,
      byteOf_append_right _ _ hnonce, byteOf_append_right _ _ (length_leBytes g.ctr 8),
      byteOf_append_right _ _ (length_leBytes _ 1), byteOf_leBytes _ j.isLt, byteAt_zero]

/-- What is read from a byte string depends on its bytes only. -/
theorem CarriesRecord.congr {bs bs' : List Byte} {c : Cfg} {g : CeGroup}
    (h : CarriesRecord bs c g) (hb : ∀ q, byteOf bs' q = byteOf bs q) : CarriesRecord bs' c g := by
  constructor <;> simp only [hb]
  exacts [h.magic, h.version, h.key, h.nonce, h.ctr, h.cur, h.reserved]

/-! The checks of a restore (R244, R274). -/

/-- The check of the magic tag, on the bytes. -/
theorem magic_differs_iff {bs : List Byte} (m : Vector Byte 8) (h : 8 ≤ bs.length) :
    bytesAt bs 0 8 ≠ m.toList ↔ ∃ j : Fin 8, byteOf bs j.val ≠ m[j] := by
  have hlen : (bytesAt bs 0 8).length = 8 := length_bytesAt (by omega)
  rw [← not_forall, not_iff_not]
  constructor
  · intro heq j
    calc byteOf bs j.val = byteOf (bytesAt bs 0 8) j.val := by
          rw [byteOf_bytesAt bs 0 j.isLt, Nat.zero_add]
      _ = m[j] := by rw [heq, byteOf_eq_getElem (by simp)]; simp
  · intro heq
    refine List.ext_getElem (by simpa using hlen) fun k hk _ => ?_
    have hk8 : k < 8 := by omega
    rw [← byteOf_eq_getElem hk, byteOf_bytesAt bs 0 hk8, Nat.zero_add, heq ⟨k, hk8⟩]
    simp

/-- The check of the version byte, on the byte. -/
theorem version_differs_iff {bs : List Byte} (v : Byte) (h : 8 < bs.length) :
    bytesAt bs 8 1 ≠ [v] ↔ byteOf bs 8 ≠ v := by
  rw [bytesAt_one h, Ne, Ne, List.singleton_inj]

/-- The first check that a record fails, on its bytes. -/
theorem recordFault_eq (c : Cfg) (len : Word) {bs : List Byte} (h : 57 < bs.length) :
    recordFault c len bs =
      if len.toNat < 65 then some .truncated
      else if ∃ j : Fin 8, byteOf bs j.val ≠ c.serMagic[j] then some .badMagic
      else if byteOf bs 8 ≠ c.serVersion then some .badVersion
      else if 8 < (byteOf bs 57).toNat then some .badCursor
      else if (byteOf bs 57).toNat < 8 ∧ recRead bs 49 8 = 0 then some .invalidRewind
      else none := by
  rw [recordFault, toNat_recRead_one h]
  exact if_congr Iff.rfl rfl
    (if_congr (magic_differs_iff c.serMagic (by omega)) rfl
      (if_congr (version_differs_iff c.serVersion (by omega)) rfl rfl))

/-! The CE group a record stands for (R244). -/

/-- The key of a record. -/
def recordKey (bs : List Byte) : Vector Word32 8 :=
  Vector.ofFn fun i : Fin 8 => (recRead bs (9 + 4 * i.val) 4).setWidth 32

/-- The nonce of a record. -/
def recordNonce (bs : List Byte) : Vector Word32 2 :=
  Vector.ofFn fun i : Fin 2 => (recRead bs (41 + 4 * i.val) 4).setWidth 32

/-- The CE group after a record is loaded. -/
def recordGroup (bs : List Byte) : CeGroup where
  key := recordKey bs
  nonce := recordNonce bs
  ctr := recRead bs 49 8
  buf :=
    if (byteOf bs 57).toNat < 8 then
      keystreamBlock (recordKey bs) (recordNonce bs) (recRead bs 49 8 - 1)
    else Vector.replicate 8 0
  cur := Fin.ofNat 9 (byteOf bs 57).toNat
  seeded := true
  exh := false

/-- Restoring writes the record's CE group and nothing else. -/
theorem restoreRecord_eq {bs : List Byte} (h : 57 < bs.length) (s : State) :
    restoreRecord bs s = { s with ce := recordGroup bs } := by
  unfold restoreRecord recordGroup
  dsimp only
  rw [toNat_recRead_one h]
  split_ifs <;> rfl

theorem byteAt_recordKey (bs : List Byte) (i : Fin 8) (j : Fin 4) :
    byteAt (recordKey bs)[i] j.val = byteOf bs (9 + 4 * i.val + j.val) := by
  have hword : (recordKey bs)[i] = (recRead bs (9 + 4 * i.val) 4).setWidth 32 := by simp [recordKey]
  rw [hword, byteAt_setWidth _ (by omega), byteAt_recRead _ _ (by omega) j.isLt]

theorem byteAt_recordNonce (bs : List Byte) (i : Fin 2) (j : Fin 4) :
    byteAt (recordNonce bs)[i] j.val = byteOf bs (41 + 4 * i.val + j.val) := by
  have hword : (recordNonce bs)[i] = (recRead bs (41 + 4 * i.val) 4).setWidth 32 := by
    simp [recordNonce]
  rw [hword, byteAt_setWidth _ (by omega), byteAt_recRead _ _ (by omega) j.isLt]

theorem byteAt_recordCtr (bs : List Byte) (j : Fin 8) :
    byteAt (recRead bs 49 8) j.val = byteOf bs (49 + j.val) :=
  byteAt_recRead bs 49 (le_refl 8) j.isLt

/-! A carried record reads back (R245). -/

section
variable {bs : List Byte} {c : Cfg} {g : CeGroup}

theorem CarriesRecord.recordKey_eq (h : CarriesRecord bs c g) : recordKey bs = g.key :=
  Vector.ext fun i hi => word32_eq_of_byteAt_eq fun j =>
    (byteAt_recordKey bs ⟨i, hi⟩ j).trans (h.key ⟨i, hi⟩ j)

theorem CarriesRecord.recordNonce_eq (h : CarriesRecord bs c g) : recordNonce bs = g.nonce :=
  Vector.ext fun i hi => word32_eq_of_byteAt_eq fun j =>
    (byteAt_recordNonce bs ⟨i, hi⟩ j).trans (h.nonce ⟨i, hi⟩ j)

theorem CarriesRecord.recRead_ctr (h : CarriesRecord bs c g) : recRead bs 49 8 = g.ctr :=
  word_eq_of_byteAt_eq fun j => (byteAt_recordCtr bs j).trans (h.ctr j)

/-- The group a carried record stands for: the engine's registers, the buffer regenerated. -/
theorem CarriesRecord.recordGroup_eq (h : CarriesRecord bs c g) :
    recordGroup bs =
      { g with
        buf := if g.cur.val < 8 then keystreamBlock g.key g.nonce (g.ctr - 1)
          else Vector.replicate 8 0,
        seeded := true, exh := false } := by
  have hcur : Fin.ofNat 9 g.cur.val = g.cur := Fin.ext (Nat.mod_eq_of_lt g.cur.isLt)
  rw [recordGroup, h.recordKey_eq, h.recordNonce_eq, h.recRead_ctr, h.cur, hcur]

/-- A carried record of the full length fails no check, unless its buffer would have no counter before. -/
theorem CarriesRecord.recordFault_eq_none (h : CarriesRecord bs c g) (hlen : 57 < bs.length)
    (hctr : g.cur.val < 8 → g.ctr ≠ 0) : recordFault c 65 bs = none := by
  have hcur := g.cur.isLt
  have hmagic : ¬ ∃ j : Fin 8, byteOf bs j.val ≠ c.serMagic[j] := fun ⟨j, hj⟩ => hj (h.magic j)
  rw [recordFault_eq c 65 hlen, h.cur, h.recRead_ctr, if_neg (by decide), if_neg hmagic,
    if_neg (not_not.mpr h.version), if_neg (by omega), if_neg (fun hz => hctr hz.1 hz.2)]

end

/-! The two commands (R240, R244). -/

/-- CE_SAVE writes its response only. -/
theorem saveCommand_eq (c : Cfg) (s : State) :
    saveCommand c s =
      { s with
        response := some
          (if c.serEn = false then ⟨.illegalCommand, []⟩
          else if s.ce.seeded = false then ⟨.notSeeded, []⟩
          else if s.ce.exh = true then ⟨.keystreamExhausted, []⟩
          else ⟨.ok, packBytes (saveRecord c s.ce)⟩) } := by
  unfold saveCommand
  cases hser : c.serEn with
  | false => rfl
  | true =>
    cases hs : s.ce.seeded with
    | false =>
      rw [if_pos rfl, whenReady_of_fault _ _ _ _ (notReady_of_unseeded .ce s hs)]
      rfl
    | true =>
      cases hx : s.ce.exh with
      | true =>
        rw [if_pos rfl, whenReady_of_fault _ _ _ _ (notReady_ce_of_exhausted s hs hx)]
        rfl
      | false =>
        rw [if_pos rfl, whenReady_of_ready _ _ _ (notReady_ce_of_seeded s hs hx)]
        rfl

/-- CE_SAVE returns the record exactly on a ready engine of a block that has the command. -/
theorem saveCommand_ok {c : Cfg} {s : State} {p : List Word}
    (h : saveCommand c s = { s with response := some ⟨.ok, p⟩ }) :
    s.ce.exh = false ∧ p = packBytes (saveRecord c s.ce) := by
  have hresp := congrArg State.response h
  rw [saveCommand_eq] at hresp
  split_ifs at hresp with hser hs hx
  · simp at hresp
  · simp at hresp
  · simp at hresp
  · exact ⟨by simpa using hx, by simpa using hresp.symm⟩

theorem length_recordBytes (record : Vector Word 9) : (recordBytes record).length = 72 := by
  simp [recordBytes, length_bytesOfWords]

/-- A record that stands in the words of CE_SAVE's payload is what CE_RESTORE reads. -/
theorem recordBytes_carries {c : Cfg} {g : CeGroup} {p : Vector Word 9}
    (h : p.toList = packBytes (saveRecord c g)) : CarriesRecord (recordBytes p) c g :=
  (saveRecord_carries c g).congr fun q => by rw [recordBytes, h, byteOf_packBytes]

theorem restoreCommand_of_sound {c : Cfg} {len : Word} {bs : List Byte} (hser : c.serEn = true)
    (hlen : 57 < bs.length) (hsound : recordFault c len bs = none) (s : State) :
    restoreCommand c len bs s = { s with ce := recordGroup bs, response := some ⟨.ok, []⟩ } := by
  rw [restoreCommand, if_pos hser, hsound, restoreRecord_eq hlen]
  rfl

end Sys2Proof.BlockProofs
end

