-- ==== Sys2Proof/Proofs/CryptoCommands.lean ====
section
/-! PROOFS. The commands of the CryptoEngine's lifecycle and serialization (45_crypto.md R225 to R245): the
statements on zeroization, the seedings, CE_SAVE and CE_RESTORE. -/

-- Elaborated one after another, as in the tests: each proof elaborated at once takes a thread and its stack.
set_option Elab.async false

namespace Sys2Proof.BlockProofs

open Sys2Proof.Machine Sys2Proof.EngineProofs Sys2Proof.FaultProofs

/-! The arms of the dispatch. -/

theorem exec_ceZeroize (s : State) : exec .ceZeroize s = .next (complete (ceClear s) []) := rfl

theorem exec_ceKey (key : Vector Word 4) (nonce c : Word) (s : State) :
    exec (.ceKey key nonce c) s =
      .next (complete (ceLoad (keyOfWords key) (nonceOfWord nonce) c s) []) := rfl

theorem exec_ceSeed64 (sb : Vector Word 8) (s : State) :
    exec (.ceSeed64 sb) s = .next (complete (ceSeed (bytesOfWords sb.toList) s) []) := rfl

theorem exec_ceSeed32 (sb : Vector Word 4) (s : State) :
    exec (.ceSeed32 sb) s =
      .next (complete (ceSeed (bytesOfWords sb.toList ++ List.replicate 32 0) s) []) := rfl

/-- A seeding that completes: the engine is fresh, and nothing else changes (R227). -/
theorem complete_ceLoad (key : Vector Word32 8) (nonce : Vector Word32 2) (c : Word) (s : State) :
    complete (ceLoad key nonce c s) [] =
      { s with
        ce := { key := key, nonce := nonce, ctr := c, buf := Vector.replicate 8 0, cur := 8,
                seeded := true, exh := false },
        response := some ⟨.ok, []⟩ } := rfl

/-! What CE_SAVE wrote, CE_RESTORE reads (R245). -/

/-- Settles O41: the words of CE_SAVE carry the engine's record, a carried record fails no check under the
counter law, and the buffer regenerated from it holds the unconsumed words. -/
theorem saveThenRestoreIsTheSameEngine : Obligations.SaveThenRestoreIsTheSameEngine := by
  unfold Obligations.SaveThenRestoreIsTheSameEngine
  rintro c s u p hser ⟨-, -, -, hbuffer⟩ hsave
  obtain ⟨hexh, hpayload⟩ := saveCommand_ok hsave
  have hrecord : CarriesRecord (recordBytes p) c s.ce := recordBytes_carries hpayload
  have hlen : 57 < (recordBytes p).length := by rw [length_recordBytes]; omega
  have hlaw : s.ce.cur.val < 8 →
      s.ce.ctr ≠ 0 ∧ s.ce.buf = keystreamBlock s.ce.key s.ce.nonce (s.ce.ctr - 1) :=
    fun hcur => hbuffer hexh hcur
  have hsound := hrecord.recordFault_eq_none hlen fun hcur => (hlaw hcur).1
  refine ⟨recordGroup (recordBytes p), restoreCommand_of_sound hser hlen hsound u, ?_, rfl, rfl⟩
  rw [hrecord.recordGroup_eq]
  refine ⟨rfl, rfl, rfl, rfl, fun k hk => ?_⟩
  have hcur : s.ce.cur.val < 8 := lt_of_le_of_lt hk k.isLt
  simp only [if_pos hcur, (hlaw hcur).2]

/-! The seedings (R230 to R234). -/

/-- Settles O36: the key and nonce bytes of the operand words, read as 32-bit words, are their halves. -/
theorem ceKeyLoadsItsOperands : Obligations.CeKeyLoadsItsOperands := by
  unfold Obligations.CeKeyLoadsItsOperands
  intro key nonce c s
  refine ⟨keyOfWords key, nonceOfWord nonce, fun w => ?_, ?_, ?_, ?_⟩
  · rw [← getD_toList]
    exact words32_bytesOfWords key.toList w.val (by omega)
  · exact (words32_bytesOfWords [nonce] 0 (by omega)).1
  · exact (words32_bytesOfWords [nonce] 0 (by omega)).2
  · rw [exec_ceKey, complete_ceLoad]

/-- Sixteen words that are the halves of the seed's words are the seed read as in R64. -/
theorem words32_eq_of_halves {ws : List Word} {X0 : ChaChaState}
    (h : ∀ w : Fin 8, X0[2 * w.val] = (ws.getD w.val 0).extractLsb' 0 32 ∧
      X0[2 * w.val + 1] = (ws.getD w.val 0).extractLsb' 32 32) :
    words32 16 (bytesOfWords ws) = X0 := by
  refine Vector.ext fun i hi => ?_
  have hX := h ⟨i / 2, by omega⟩
  have hws := words32_bytesOfWords (n := 16) ws (i / 2) (by omega)
  rcases Nat.mod_two_eq_zero_or_one i with heven | hodd
  · have hidx : 2 * (i / 2) = i := by omega
    simp only [hidx] at hX hws
    exact hws.1.trans hX.1.symm
  · have hidx : 2 * (i / 2) + 1 = i := by omega
    simp only [hidx] at hX hws
    exact hws.2.trans hX.2.symm

/-- A command that seeds from bytes whose words are `X0` takes key and nonce from the block function
(R231). -/
theorem ceSeed_derives {sb : List Byte} {X0 : ChaChaState} (h : words32 16 sb = X0) {i : Instr}
    {s : State} (hi : exec i s = .next (complete (ceSeed sb s) [])) :
    ∃ (K : Vector Word32 8) (N : Vector Word32 2),
      (∀ i : Fin 8, K[i] = (chachaBlock X0)[i.val]) ∧
      N[0] = (chachaBlock X0)[8] ∧ N[1] = (chachaBlock X0)[9] ∧
      exec i s =
        .next { s with
          ce := { key := K, nonce := N, ctr := 0, buf := Vector.replicate 8 0, cur := 8,
                  seeded := true, exh := false },
          response := some ⟨.ok, []⟩ } := by
  subst h
  refine ⟨deriveKey sb, deriveNonce sb, fun i => ?_, ?_, ?_, ?_⟩
  · simp [deriveKey, deriveBlock]
  · simp [deriveNonce, deriveBlock]
  · simp [deriveNonce, deriveBlock]
  · rw [hi, ceSeed, complete_ceLoad]

/-- Padding with zeros does not change the words that are read (R233). -/
theorem words32_append_zeros (n : Nat) (bs : List Byte) (k : Nat) :
    words32 n (bs ++ List.replicate k 0) = words32 n bs :=
  Vector.ext fun i hi => word32_eq_of_byteAt_eq fun j => by
    rw [byteAt_words32 _ i hi j.isLt, byteAt_words32 _ i hi j.isLt, byteOf_append_zeros]

/-- The halves of a 32-byte seed's words, and zeros after them, are the padded seed (R233). -/
theorem words32_padded_eq {sb : Vector Word 4} {X0 : ChaChaState}
    (h : ∀ w : Fin 4, X0[2 * w.val] = sb[w].extractLsb' 0 32 ∧
      X0[2 * w.val + 1] = sb[w].extractLsb' 32 32)
    (hpad : ∀ i : Fin 8, X0[8 + i.val] = 0) :
    words32 16 (bytesOfWords sb.toList ++ List.replicate 32 0) = X0 := by
  rw [words32_append_zeros]
  refine words32_eq_of_halves fun w => ?_
  by_cases hw : w.val < 4
  · rw [getD_toList sb ⟨w.val, hw⟩]
    exact h ⟨w.val, hw⟩
  · have hlow := hpad ⟨2 * w.val - 8, by omega⟩
    have hhigh := hpad ⟨2 * w.val - 7, by omega⟩
    simp only [show 8 + (2 * w.val - 8) = 2 * w.val by omega] at hlow
    simp only [show 8 + (2 * w.val - 7) = 2 * w.val + 1 by omega] at hhigh
    rw [List.getD_eq_default _ _ (by simpa using hw), hlow, hhigh]
    exact ⟨rfl, rfl⟩

/-- Settles O37: the hypotheses determine the sixteen seed words of either command. -/
theorem ceSeedsDeriveByOnePermutation : Obligations.CeSeedsDeriveByOnePermutation := by
  unfold Obligations.CeSeedsDeriveByOnePermutation
  constructor
  · intro sb s X0 hX
    have hseed : words32 16 (bytesOfWords sb.toList) = X0 :=
      words32_eq_of_halves fun w => by rw [getD_toList]; exact hX w
    exact ceSeed_derives hseed (exec_ceSeed64 sb s)
  · intro sb s X0 hX hpad
    exact ceSeed_derives (words32_padded_eq hX hpad) (exec_ceSeed32 sb s)

/-- CE_SEED_ENT waits, fails or seeds, as the answer of its draw has it (R73, R316). -/
theorem exec_ceSeedEnt_cases (s : State) :
    exec .ceSeedEnt s = .next (awaitDraw s) ∨
    (∃ rest, exec .ceSeedEnt s =
      .next (raiseFault { s with entropy64 := rest } .entropyFailure)) ∨
    ∃ b rest, exec .ceSeedEnt s =
      .next (complete (ceSeedEntropy b { s with entropy64 := rest }) []) := by
  match h : s.entropy64 with
  | [] => exact .inl (exec_ceSeedEnt_unanswered s h)
  | none :: rest => exact .inr (.inl ⟨rest, exec_ceSeedEnt_failed s rest h⟩)
  | some b :: rest => exact .inr (.inr ⟨b, rest, exec_ceSeedEnt_drawn s b rest h⟩)

/-- A byte of a draw, by its offset in one of the parts that are read (R234). -/
theorem byteOf_draw (b : Vector Byte 64) {off n k : Nat} (hk : k < n) (h : off + k < 64) :
    byteOf (bytesAt b.toList off n) k = b[off + k] := by
  rw [byteOf_bytesAt _ _ hk, byteOf_eq_getElem (by simpa using h), Vector.getElem_toList]

/-- Settles O38, by the two answers a draw can have. -/
theorem ceSeedEntSplitsTheDraw : Obligations.CeSeedEntSplitsTheDraw := by
  unfold Obligations.CeSeedEntSplitsTheDraw
  constructor
  · exact exec_ceSeedEnt_failed
  · intro s b rest h
    refine ⟨words32 8 (bytesAt b.toList 0 32), words32 2 (bytesAt b.toList 32 8),
      le64 (bytesAt b.toList 40 8), fun i j => ?_, fun i j => ?_, fun j => ?_, ?_⟩
    · have hb := byteOf_draw b (off := 0) (n := 32) (k := 4 * i.val + j.val) (by omega) (by omega)
      simp only [Nat.zero_add] at hb
      exact (byteAt_words32 _ i.val i.isLt j.isLt).trans hb
    · have hb := byteOf_draw b (off := 32) (n := 8) (k := 4 * i.val + j.val) (by omega) (by omega)
      simp only [← Nat.add_assoc] at hb
      exact (byteAt_words32 _ i.val i.isLt j.isLt).trans hb
    · rw [byteAt_le64 _ j.isLt, byteOf_draw b j.isLt (by omega)]
    · rw [exec_ceSeedEnt_drawn s b rest h, ceSeedEntropy, complete_ceLoad]

/-! Serialization (R240 to R244). -/

/-- The record of CE_SAVE with its length (R241). -/
def savedRecord (c : Cfg) (g : CeGroup) : Vector Byte 65 :=
  ⟨(saveRecord c g).toArray, length_saveRecord c g⟩

theorem savedRecord_toList (c : Cfg) (g : CeGroup) : (savedRecord c g).toList = saveRecord c g := rfl

theorem getElem_savedRecord (c : Cfg) (g : CeGroup) {q : Nat} (h : q < 65) :
    (savedRecord c g)[q] = byteOf (saveRecord c g) q := by
  rw [byteOf_eq_getElem (by rw [length_saveRecord]; exact h)]
  simp only [savedRecord, Vector.getElem_mk, List.getElem_toArray]

/-- Settles O39: the record's fields at their offsets, and the response in each case of readiness. -/
theorem ceSaveReturnsTheRecord : Obligations.CeSaveReturnsTheRecord := by
  unfold Obligations.CeSaveReturnsTheRecord
  intro s
  have hrec := saveRecord_carries Config.cfg s.ce
  refine ⟨savedRecord Config.cfg s.ce, ?_, ?_, ?_, ?_, ?_, ?_, ?_, ?_⟩
  · intro j; rw [getElem_savedRecord]; exact hrec.magic j
  · rw [getElem_savedRecord]; exact hrec.version
  · intro i j; rw [getElem_savedRecord]; exact hrec.key i j
  · intro i j; rw [getElem_savedRecord]; exact hrec.nonce i j
  · intro j; rw [getElem_savedRecord]; exact hrec.ctr j
  · rw [getElem_savedRecord]; exact hrec.cur
  · intro j; rw [getElem_savedRecord]; exact hrec.reserved j
  · rw [exec_ceSave, saveCommand_eq, savedRecord_toList]

/-- A record byte as the rules name it is the byte that CE_RESTORE reads. -/
theorem byteOf_recordBytes (record : Vector Word 9) (q : Fin 72) :
    byteOf (recordBytes record) q.val = recByte record q := by
  have hq : q.val / 8 < record.toList.length := by simp; omega
  rw [recordBytes, byteOf_bytesOfWords, List.getD_eq_getElem _ _ hq, Vector.getElem_toList]
  rfl

/-- Settles O40: the checks on the record's bytes in their order, then the group the record stands for. -/
theorem ceRestoreChecksAndLoads : Obligations.CeRestoreChecksAndLoads := by
  unfold Obligations.CeRestoreChecksAndLoads
  intro len record s
  have hlen : 57 < (recordBytes record).length := by rw [length_recordBytes]; omega
  refine ⟨recordKey (recordBytes record), recordNonce (recordBytes record),
    recRead (recordBytes record) 49 8, ?_, ?_, ?_, ?_⟩
  · exact fun i j => (byteAt_recordKey _ i j).trans (byteOf_recordBytes record ⟨_, by omega⟩)
  · exact fun i j => (byteAt_recordNonce _ i j).trans (byteOf_recordBytes record ⟨_, by omega⟩)
  · exact fun j => (byteAt_recordCtr _ j).trans (byteOf_recordBytes record ⟨_, by omega⟩)
  · have hmagic : (∃ j : Fin 8, byteOf (recordBytes record) j.val ≠ Config.cfg.serMagic[j]) ↔
        ∃ j : Fin 8, recByte record ⟨j.val, by omega⟩ ≠ Config.cfg.serMagic[j] :=
      exists_congr fun j => by rw [byteOf_recordBytes record ⟨j.val, by omega⟩]
    have hversion : byteOf (recordBytes record) 8 = recByte record 8 := byteOf_recordBytes record 8
    have hcur : byteOf (recordBytes record) 57 = recByte record 57 := byteOf_recordBytes record 57
    rw [exec_ceRestore, restoreCommand, recordFault_eq _ _ hlen, restoreRecord_eq hlen, recordGroup]
    simp only [hmagic, hversion, hcur]
    cases Config.cfg.serEn with
    | false => rfl
    | true =>
      rw [if_pos rfl, if_neg (by decide : ¬ true = false)]
      split_ifs <;> rfl

/-! Zeroization (R225, R226). -/

/-- Settles O35: zeroization writes the CE group's reset value. -/
theorem ceZeroizeClearsTheEngine : Obligations.CeZeroizeClearsTheEngine := by
  unfold Obligations.CeZeroizeClearsTheEngine
  intro s
  rw [exec_ceZeroize]
  rfl

end Sys2Proof.BlockProofs
end

