-- ==== Sys2Proof/Proofs/SamplerArithmetic.lean ====
section
/-! PROOFS. The sampler's arithmetic (46_sampler.md R261, R263): the halves of a product, the threshold, the
range and the bounds on natural numbers, and the statement on uniformity. -/

-- Elaborated one after another, as in the tests: each proof elaborated at once takes a thread and its stack.
set_option Elab.async false

namespace Sys2Proof.BlockProofs

open Sys2Proof.Machine Sys2Proof.EngineProofs

/-! The arithmetic of R261 and R263: the product's halves, the threshold and the range on natural numbers. -/

theorem toNat_lo64_mul128 (a b : Word) :
    (lo64 (mul128 a b)).toNat = a.toNat * b.toNat % 2 ^ 64 := by
  have hprod := lo64_add_hi64 a b
  have hlt := (lo64 (mul128 a b)).isLt
  omega

theorem toNat_hi64_mul128 (a b : Word) :
    (hi64 (mul128 a b)).toNat = a.toNat * b.toNat / 2 ^ 64 := by
  have hprod := lo64_add_hi64 a b
  have hlt := (lo64 (mul128 a b)).isLt
  omega

/-- The block's threshold `(2^64 - range) mod range` is `2^64 mod range` (R263). -/
theorem toNat_rejectBelow (range : Word) (h : range ≠ 0) :
    (rejectBelow range).toNat = 2 ^ 64 % range.toNat := by
  have hpos : range.toNat ≠ 0 := fun h0 => h (BitVec.eq_of_toNat_eq h0)
  have hlt := range.isLt
  have hneg : (0 - range).toNat = 2 ^ 64 - range.toNat := by
    have hzero : (0 : Word).toNat = 0 := rfl
    rw [BitVec.toNat_sub, hzero]
    omega
  rw [rejectBelow, BitVec.toNat_umod, hneg, ← Nat.mod_eq_sub_mod (Nat.le_of_lt hlt)]

/-- The loop's test on words is the rule's on numbers. -/
theorem lo64_lt_rejectBelow_iff (w range : Word) (h : range ≠ 0) :
    lo64 (mul128 w range) < rejectBelow range ↔ rejects range.toNat w := by
  rw [BitVec.lt_def, toNat_lo64_mul128, toNat_rejectBelow range h, rejects]

/-- A rejected draw is one whose low half is below the range too, so the first test of R261 only saves the
division. -/
theorem lo64_lt_range_of_rejects {w range : Word} (h : range ≠ 0) (hw : rejects range.toNat w) :
    lo64 (mul128 w range) < range := by
  have hpos : 0 < range.toNat :=
    Nat.pos_of_ne_zero fun h0 => h (BitVec.eq_of_toNat_eq h0)
  rw [BitVec.lt_def, toNat_lo64_mul128]
  exact Nat.lt_trans hw (Nat.mod_lt _ hpos)

theorem hi64_eq_candidate (w range : Word) :
    hi64 (mul128 w range) = BitVec.ofNat 64 (candidate range.toNat w) := by
  rw [candidate, ← toNat_hi64_mul128, BitVec.ofNat_toNat, BitVec.setWidth_eq]

theorem candidate_lt {range : Nat} (w : Word) (h : 0 < range) : candidate range w < range := by
  rw [candidate, Nat.div_lt_iff_lt_mul (by decide), Nat.mul_comm]
  exact Nat.mul_lt_mul_of_pos_left w.isLt h

/-- The range as the block computes it, modulo 2^64 (R261). -/
theorem toNat_range {a b : Word} (hab : a < b) :
    (b - a + 1).toNat = rangeSize a b % 2 ^ 64 := by
  have hlt : a.toNat < b.toNat := hab
  rw [BitVec.toNat_add, BitVec.toNat_sub_of_le (BitVec.le_of_lt hab), rangeSize, toNat_one]

/-- A range below 2^64 is the block's range, which is then not 0. -/
theorem range_below {a b : Word} (hab : a < b) (h : rangeSize a b < 2 ^ 64) :
    (b - a + 1).toNat = rangeSize a b ∧ b - a + 1 ≠ 0 := by
  have hrange : (b - a + 1).toNat = rangeSize a b := by rw [toNat_range hab, Nat.mod_eq_of_lt h]
  refine ⟨hrange, fun h0 => ?_⟩
  rw [h0, rangeSize] at hrange
  exact absurd hrange (Nat.zero_ne_add_one _)

/-- The whole domain is the range the block computes as 0 (R262(c)). -/
theorem range_whole {a b : Word} (hab : a < b) (h : rangeSize a b = 2 ^ 64) : b - a + 1 = 0 := by
  refine BitVec.eq_of_toNat_eq ?_
  rw [toNat_range hab, h, Nat.mod_self]
  rfl

theorem rangeSize_le (a b : Word) : rangeSize a b ≤ 2 ^ 64 := by
  have hb := b.isLt
  rw [rangeSize]
  omega

/-- The lower bound plus a candidate does not wrap and stays within the bounds (R261). -/
theorem offset_within {a b : Word} (hab : a < b) (w : Word) :
    a.toNat ≤ (a + BitVec.ofNat 64 (candidate (rangeSize a b) w)).toNat ∧
      (a + BitVec.ofNat 64 (candidate (rangeSize a b) w)).toNat ≤ b.toNat := by
  have hlt : a.toNat < b.toNat := hab
  have hb := b.isLt
  have hcand : candidate (rangeSize a b) w < rangeSize a b := candidate_lt w (Nat.succ_pos _)
  rw [rangeSize] at hcand
  rw [toNat_add_ofNat a _ (by rw [rangeSize]; omega), rangeSize]
  omega

/-- Two words are equal, or one of the two orders makes them a lower and an upper bound. -/
theorem bounds_cases (lo hi : Word) :
    lo = hi ∨ ∃ a b : Word, a < b ∧ (lo = a ∧ hi = b ∨ lo = b ∧ hi = a) := by
  rcases BitVec.lt_trichotomy lo hi with h | h | h
  · exact .inr ⟨lo, hi, h, .inl ⟨rfl, rfl⟩⟩
  · exact .inl h
  · exact .inr ⟨hi, lo, h, .inr ⟨rfl, rfl⟩⟩

/-! Uniformity (R263). -/

/-- The accepted words of candidate `r` are those whose product with the range lies in an interval of length
`range * floor(2^64 / range)`. -/
theorem accepted_iff_product_mem (range x : Word) (h : range ≠ 0) (r : Nat) :
    (¬ lo64 (mul128 x range) < rejectBelow range ∧ (hi64 (mul128 x range)).toNat = r) ↔
      r * 2 ^ 64 + 2 ^ 64 % range.toNat ≤ x.toNat * range.toNat ∧
        x.toNat * range.toNat <
          r * 2 ^ 64 + 2 ^ 64 % range.toNat + range.toNat * (2 ^ 64 / range.toNat) := by
  have hsplit := Nat.mod_add_div (2 ^ 64) range.toNat
  rw [lo64_lt_rejectBelow_iff x range h, rejects, toNat_hi64_mul128]
  generalize x.toNat * range.toNat = p at *
  generalize range.toNat * (2 ^ 64 / range.toNat) = q at *
  generalize 2 ^ 64 % range.toNat = m at *
  omega

/-- The multiples of `n` in an interval of length `n * q` are those of `q` successive numbers. -/
theorem multiple_mem_interval_iff (n A q k : Nat) (h : 0 < n) :
    (A ≤ k * n ∧ k * n < A + n * q) ↔ k ∈ Set.Ico (A ⌈/⌉ n) (A ⌈/⌉ n + q) := by
  have hceil : ∀ B, B ≤ k * n ↔ B ⌈/⌉ n ≤ k := by
    intro B
    rw [ceilDiv_le_iff_le_smul h, smul_eq_mul, Nat.mul_comm]
  have hshift : (A + n * q) ⌈/⌉ n = A ⌈/⌉ n + q := by
    rw [Nat.ceilDiv_eq_add_pred_div, Nat.ceilDiv_eq_add_pred_div,
      show A + n * q + n - 1 = A + n - 1 + n * q by omega, Nat.add_mul_div_left _ _ h]
  rw [Set.mem_Ico, hceil A, ← hshift, ← not_le, hceil (A + n * q), not_le]

/-- Settles O47: the accepted words of a candidate are `floor(2^64 / range)` successive words. -/
theorem acceptedWordsAreEquallyMany : Obligations.AcceptedWordsAreEquallyMany := by
  unfold Obligations.AcceptedWordsAreEquallyMany
  intro range h2 r hr
  have hne : range ≠ 0 := by rintro rfl; exact absurd h2 (by decide)
  have hpos : 0 < range.toNat := by omega
  have hmem := fun k => multiple_mem_interval_iff range.toNat
    (r * 2 ^ 64 + 2 ^ 64 % range.toNat) (2 ^ 64 / range.toNat) k hpos
  set first := (r * 2 ^ 64 + 2 ^ 64 % range.toNat) ⌈/⌉ range.toNat
  have himage : BitVec.toNat '' {x : Word | ¬ lo64 (mul128 x range) < rejectBelow range ∧
      (hi64 (mul128 x range)).toNat = r} = Set.Ico first (first + 2 ^ 64 / range.toNat) := by
    ext k
    simp only [Set.mem_image, Set.mem_ofPred_eq, accepted_iff_product_mem range _ hne, hmem]
    constructor
    · rintro ⟨x, hx, rfl⟩
      exact hx
    · intro hk
      have hlt : k * range.toNat < 2 ^ 64 * range.toNat :=
        calc k * range.toNat
            < r * 2 ^ 64 + 2 ^ 64 % range.toNat + range.toNat * (2 ^ 64 / range.toNat) :=
              ((hmem k).mpr hk).2
          _ = 2 ^ 64 * (r + 1) := by rw [Nat.add_assoc, Nat.mod_add_div, Nat.mul_succ, Nat.mul_comm r]
          _ ≤ 2 ^ 64 * range.toNat := Nat.mul_le_mul_left _ hr
      have hk64 : (BitVec.ofNat 64 k).toNat = k := by
        rw [BitVec.toNat_ofNat, Nat.mod_eq_of_lt (Nat.lt_of_mul_lt_mul_right hlt)]
      exact ⟨BitVec.ofNat 64 k, by rwa [hk64], hk64⟩
  rw [← Set.ncard_image_of_injective _ fun _ _ => BitVec.eq_of_toNat_eq, himage,
    ← Finset.coe_Ico, Set.ncard_coe_finset, Nat.card_Ico, Nat.add_sub_cancel_left]

end Sys2Proof.BlockProofs
end

