-- ==== Sys2Proof/Proofs/SamplerSearch.lean ====
section
/-! SUPPORT. The sampler's loop as a search (46_sampler.md R261): draws that are all rejected, and the first
draw after them. -/

-- Elaborated one after another, as in the tests: each proof elaborated at once takes a thread and its stack.
set_option Elab.async false

namespace Sys2Proof.BlockProofs

open Sys2Proof.Machine Sys2Proof.EngineProofs

/-! Successive rejected draws, and the first draw after them (R261). -/

/-- `k` successive raw draws from `s` succeed, are all rejected, and lead to `v`. -/
def RejectsThrough (c : Cfg) (e : Engine) (range k : Nat) (s v : State) : Prop :=
  ∃ ws : List Word, drawWords c e k s = .done ws v ∧ ∀ x ∈ ws, rejects range x

theorem rejectsThrough_zero (c : Cfg) (e : Engine) (range : Nat) (s v : State) :
    RejectsThrough c e range 0 s v ↔ s = v := by
  simp [RejectsThrough, drawWords]

theorem rejectsThrough_add (c : Cfg) (e : Engine) (range a b : Nat) (s v : State) :
    RejectsThrough c e range (a + b) s v ↔
      ∃ u, RejectsThrough c e range a s u ∧ RejectsThrough c e range b u v := by
  simp only [RejectsThrough, drawWords_add, andThen_eq_done]
  constructor
  · rintro ⟨_, ⟨ws, u, hws, vs, v', hvs, heq⟩, hrej⟩
    cases heq
    rw [List.forall_mem_append] at hrej
    exact ⟨u, ⟨ws, hws, hrej.1⟩, vs, hvs, hrej.2⟩
  · rintro ⟨u, ⟨ws, hws, hrej⟩, vs, hvs, hrej'⟩
    exact ⟨ws ++ vs, ⟨ws, u, hws, vs, v, hvs, rfl⟩, List.forall_mem_append.mpr ⟨hrej, hrej'⟩⟩

theorem rejectsThrough_one (c : Cfg) (e : Engine) (range : Nat) (s v : State) :
    RejectsThrough c e range 1 s v ↔ ∃ w, drawWord c e s = .done w v ∧ rejects range w := by
  have hone : drawWords c e 1 s = (drawWord c e s).andThen fun w t => .done [w] t := rfl
  simp only [RejectsThrough, hone, andThen_eq_done]
  constructor
  · rintro ⟨_, ⟨w, t, hw, heq⟩, hrej⟩
    cases heq
    exact ⟨w, hw, hrej w List.mem_cons_self⟩
  · rintro ⟨w, hw, hrej⟩
    exact ⟨[w], ⟨w, v, hw, rfl⟩, List.forall_mem_singleton.mpr hrej⟩

/-- Draws are deterministic. -/
theorem rejectsThrough_unique {c : Cfg} {e : Engine} {range k : Nat} {s v v' : State}
    (h : RejectsThrough c e range k s v) (h' : RejectsThrough c e range k s v') : v = v' := by
  obtain ⟨ws, hws, -⟩ := h
  obtain ⟨ws', hws', -⟩ := h'
  rw [hws] at hws'
  cases hws'
  rfl

/-- Where `k` draws are rejected, so are fewer. -/
theorem rejectsThrough_of_le {c : Cfg} {e : Engine} {range j k : Nat} {s v : State} (hjk : j ≤ k)
    (h : RejectsThrough c e range k s v) : ∃ u, RejectsThrough c e range j s u := by
  rw [← Nat.add_sub_cancel' hjk, rejectsThrough_add] at h
  obtain ⟨u, hu, -⟩ := h
  exact ⟨u, hu⟩

theorem rejectsThrough_keeps {c : Cfg} {e : Engine} {range k : Nat} {s v : State}
    (h : RejectsThrough c e range k s v) : keepsOutside e s v := by
  obtain ⟨ws, hws, -⟩ := h
  have hholds := drawWords_holds c e k s
  rwa [hws] at hholds

theorem drawWords_length (c : Cfg) (e : Engine) (k : Nat) :
    ∀ (s v : State) (ws : List Word), drawWords c e k s = .done ws v → ws.length = k := by
  induction k with
  | zero => intro s v ws h; cases h; rfl
  | succ k ih =>
    intro s v ws h
    simp only [drawWords_succ, andThen_eq_done] at h
    obtain ⟨w, t, -, ws', v', hws', heq⟩ := h
    cases heq
    rw [List.length_cons, ih t v ws' hws']

/-- The same with the rejected words named, as the statements have it. -/
theorem rejectsThrough_iff_words (c : Cfg) (e : Engine) (range : Nat) (s v : State) :
    (∃ k, RejectsThrough c e range k s v) ↔
      ∃ ws : List Word, drawWords c e ws.length s = .done ws v ∧ ∀ x ∈ ws, rejects range x := by
  constructor
  · rintro ⟨k, ws, hws, hrej⟩
    exact ⟨ws, by rwa [drawWords_length c e k s v ws hws], hrej⟩
  · rintro ⟨ws, hws, hrej⟩
    exact ⟨ws.length, ws, hws, hrej⟩

/-- Draws with a last one named are the draws before it and that one. -/
theorem drawWords_append_singleton (c : Cfg) (e : Engine) (ws : List Word) (w : Word) (s t : State) :
    drawWords c e (ws.length + 1) s = .done (ws ++ [w]) t ↔
      ∃ v, drawWords c e ws.length s = .done ws v ∧ drawWord c e v = .done w t := by
  have hone : ∀ v, drawWords c e 1 v = (drawWord c e v).andThen fun w t => .done [w] t :=
    fun v => rfl
  simp only [drawWords_add, hone, andThen_eq_done]
  constructor
  · rintro ⟨us, v, hus, _, _, ⟨x, t', hx, heq⟩, heq'⟩
    cases heq
    obtain ⟨happend, rfl⟩ := Run.done.inj heq'
    obtain ⟨rfl, hxw⟩ := List.append_inj happend (drawWords_length c e _ s v us hus)
    cases hxw
    exact ⟨v, hus, hx⟩
  · rintro ⟨v, hws, hw⟩
    exact ⟨ws, v, hws, [w], t, ⟨w, t, hw, rfl⟩, rfl⟩

/-! The rejection loop as a search for the first draw that is not rejected. -/

/-- The first draw that is not rejected, or that faults, among the next `n`. -/
def firstAccepted (c : Cfg) (e : Engine) (range n : Nat) (s : State) : Option (Run Word) :=
  match n with
  | 0 => none
  | n + 1 =>
    match drawWord c e s with
    | .raised f t => some (.raised f t)
    | .done w t =>
      if w.toNat * range % 2 ^ 64 < 2 ^ 64 % range then firstAccepted c e range n t
      else some (.done w t)

section

variable {c : Cfg} {e : Engine} {range : Nat} {s t v : State} {w : Word}

theorem firstAccepted_succ_rejected (n : Nat) (hd : drawWord c e s = .done w t)
    (hw : rejects range w) : firstAccepted c e range (n + 1) s = firstAccepted c e range n t := by
  rw [rejects] at hw
  simp only [firstAccepted, hd, if_pos hw]

theorem firstAccepted_succ_accepted (n : Nat) (hd : drawWord c e s = .done w t)
    (hw : ¬ rejects range w) : firstAccepted c e range (n + 1) s = some (.done w t) := by
  rw [rejects] at hw
  simp only [firstAccepted, hd, if_neg hw]

theorem firstAccepted_succ_raised {f : FaultCode} (n : Nat) (hd : drawWord c e s = .raised f t) :
    firstAccepted c e range (n + 1) s = some (.raised f t) := by
  simp only [firstAccepted, hd]

/-- The search goes on after rejected draws. -/
theorem firstAccepted_after_rejected (n : Nat) {k : Nat} :
    ∀ {s : State}, RejectsThrough c e range k s v →
      firstAccepted c e range (k + n) s = firstAccepted c e range n v := by
  induction k with
  | zero =>
    intro s h
    obtain rfl := (rejectsThrough_zero c e range s v).mp h
    rw [Nat.zero_add]
  | succ k ih =>
    intro s h
    rw [Nat.add_comm k 1, rejectsThrough_add] at h
    obtain ⟨u, hone, hrest⟩ := h
    obtain ⟨w, hd, hw⟩ := (rejectsThrough_one c e range s u).mp hone
    rw [Nat.succ_add, Nat.succ_eq_add_one, firstAccepted_succ_rejected _ hd hw, ih hrest]

/-- How the search ends: every draw is rejected, or after rejected ones a draw is accepted or faults. -/
theorem firstAccepted_cases (c : Cfg) (e : Engine) (range n : Nat) :
    ∀ s : State,
      (firstAccepted c e range n s = none ∧ ∃ v, RejectsThrough c e range n s v) ∨
      (∃ k v w t, RejectsThrough c e range k s v ∧ drawWord c e v = .done w t ∧
        ¬ rejects range w ∧ firstAccepted c e range n s = some (.done w t)) ∨
      (∃ k v f t, RejectsThrough c e range k s v ∧ drawWord c e v = .raised f t ∧
        firstAccepted c e range n s = some (.raised f t)) := by
  induction n with
  | zero => exact fun s => .inl ⟨rfl, s, (rejectsThrough_zero c e range s s).mpr rfl⟩
  | succ n ih =>
    intro s
    have hnone : RejectsThrough c e range 0 s s := (rejectsThrough_zero c e range s s).mpr rfl
    cases hd : drawWord c e s with
    | raised f t => exact .inr (.inr ⟨0, s, f, t, hnone, hd, firstAccepted_succ_raised n hd⟩)
    | done w t =>
      by_cases hw : rejects range w
      · have hone := (rejectsThrough_one c e range s t).mpr ⟨w, hd, hw⟩
        have hmore : ∀ {k v}, RejectsThrough c e range k t v →
            RejectsThrough c e range (1 + k) s v :=
          fun h => (rejectsThrough_add c e range 1 _ s _).mpr ⟨t, hone, h⟩
        rw [firstAccepted_succ_rejected n hd hw]
        rcases ih t with ⟨hf, v, hv⟩ | ⟨k, v, w', t', hv, hrest⟩ | ⟨k, v, f, t', hv, hrest⟩
        · exact .inl ⟨hf, v, Nat.add_comm 1 n ▸ hmore hv⟩
        · exact .inr (.inl ⟨1 + k, v, w', t', hmore hv, hrest⟩)
        · exact .inr (.inr ⟨1 + k, v, f, t', hmore hv, hrest⟩)
      · exact .inr (.inl ⟨0, s, w, t, hnone, hd, hw, firstAccepted_succ_accepted n hd hw⟩)

/-- The search finds nothing exactly when every draw is rejected. -/
theorem firstAccepted_eq_none_iff (n : Nat) :
    firstAccepted c e range n s = none ↔ ∃ v, RejectsThrough c e range n s v := by
  constructor
  · intro hnone
    rcases firstAccepted_cases c e range n s with ⟨-, hv⟩ | ⟨_, _, _, _, -, -, -, hf⟩ |
      ⟨_, _, _, _, -, -, hf⟩
    · exact hv
    · rw [hnone] at hf; cases hf
    · rw [hnone] at hf; cases hf
  · rintro ⟨v, hv⟩
    exact firstAccepted_after_rejected 0 hv

end

/-! The model's loop is that search. -/

section

variable (c : Cfg) (e : Engine) (range : Word)

/-- The loop stands still on a product that is not rejected. -/
theorem redraw_accepted (fuel : Nat) (w : Word) (s : State) (h : range ≠ 0)
    (hw : ¬ rejects range.toNat w) :
    redraw c e range (rejectBelow range) fuel (mul128 w range) s =
      some (.done (mul128 w range) s) := by
  have hlo := mt (lo64_lt_rejectBelow_iff w range h).mp hw
  cases fuel <;> simp only [redraw, if_neg hlo]

/-- From a rejected product the loop searches among as many draws as it has fuel. -/
theorem redraw_rejected (fuel : Nat) (h : range ≠ 0) :
    ∀ (w : Word) (s : State), rejects range.toNat w →
      redraw c e range (rejectBelow range) fuel (mul128 w range) s =
        (firstAccepted c e range.toNat fuel s).map fun r =>
          r.andThen fun x t => .done (mul128 x range) t := by
  induction fuel with
  | zero =>
    intro w s hw
    simp only [redraw, if_pos ((lo64_lt_rejectBelow_iff w range h).mpr hw), firstAccepted,
      Option.map_none]
  | succ fuel ih =>
    intro w s hw
    simp only [redraw, if_pos ((lo64_lt_rejectBelow_iff w range h).mpr hw), drawProduct]
    cases hd : drawWord c e s with
    | raised f t => rw [firstAccepted_succ_raised fuel hd]; rfl
    | done x t =>
      simp only [andThen_done]
      by_cases hx : rejects range.toNat x
      · rw [firstAccepted_succ_rejected fuel hd hx, ih x t hx]
      · rw [firstAccepted_succ_accepted fuel hd hx, redraw_accepted c e range fuel x t h hx]
        rfl

theorem acceptedProduct_eq (s : State) (h : range ≠ 0) :
    acceptedProduct c e range s =
      (firstAccepted c e range.toNat (redrawBound + 1) s).map fun r =>
        r.andThen fun x t => .done (mul128 x range) t := by
  simp only [acceptedProduct, drawProduct]
  generalize redrawBound = n
  cases hd : drawWord c e s with
  | raised f t => rw [firstAccepted_succ_raised n hd]; rfl
  | done w t =>
    simp only [andThen_done]
    by_cases hw : rejects range.toNat w
    · rw [if_pos (lo64_lt_range_of_rejects h hw), redraw_rejected c e range n h w t hw,
        firstAccepted_succ_rejected n hd hw]
    · rw [redraw_accepted c e range n w t h hw, ite_self, firstAccepted_succ_accepted n hd hw]
      rfl

end

end Sys2Proof.BlockProofs
end

