-- ==== Sys2Proof/Proofs/SamplerBound.lean ====
section
/-! SUPPORT. The bound on redraws cuts no run short (46_sampler.md R264, log entry 5): the words of LPE repeat
within it, and CE is exhausted before it. -/

-- Elaborated one after another, as in the tests: each proof elaborated at once takes a thread and its stack.
set_option Elab.async false

namespace Sys2Proof.BlockProofs

open Sys2Proof.Machine Sys2Proof.EngineProofs

/-! The words of LPE (R201, R203): numbered from word 0 of the buffer's present block, they repeat. -/

/-- Word `j` of LPE: the buffer's words, then those of the blocks it will render. -/
def lpeWordAt (c : Cfg) (s : State) (j : Nat) : Word :=
  if j < 8 then s.lpe.buf[j % 8] else (renderLpe c ((advanceByOne c)^[j / 8] s.ctr))[j % 8]

/-- A block step and its block in the buffer, as a refill leaves them, move the words up by eight. -/
theorem lpeWordAt_add_eight (c : Cfg) (s : State) (j : Nat) :
    lpeWordAt c s (j + 8) =
      lpeWordAt c
        { s with
          ctr := advanceByOne c s.ctr
          lpe := { s.lpe with buf := renderLpe c (advanceByOne c s.ctr), cur := 1 } } j := by
  have hge : ¬ j + 8 < 8 := by omega
  have hmod : (j + 8) % 8 = j % 8 := by omega
  have hblock : (advanceByOne c)^[(j + 8) / 8] s.ctr =
      (advanceByOne c)^[j / 8] (advanceByOne c s.ctr) := by
    rw [show (j + 8) / 8 = j / 8 + 1 by omega, Function.iterate_succ_apply]
  simp only [lpeWordAt, if_neg hge, hblock, hmod]
  by_cases hj : j < 8
  · simp only [if_pos hj, Nat.div_eq_of_lt hj, Function.iterate_zero_apply]
  · simp only [if_neg hj]

/-- The word that the draw after `i` draws returns. -/
def lpeWord (c : Cfg) (s : State) (i : Nat) : Word := lpeWordAt c s (s.lpe.cur.val + i)

/-- A cursor that is not 8 has a word to deliver (R21). -/
theorem cursor_lt_eight {v : Fin 9} (h : v ≠ 8) : v.val < 8 :=
  Nat.lt_of_le_of_ne (Nat.le_of_lt_succ v.isLt) fun h8 => h (Fin.ext h8)

/-- A draw of LPE never faults; it returns the first of the words and leaves the others. -/
theorem drawWord_lpe (c : Cfg) (s : State) :
    ∃ t, drawWord c .lpe s = .done (lpeWord c s 0) t ∧
      ∀ i, lpeWord c t i = lpeWord c s (i + 1) := by
  by_cases h8 : curOf .lpe s = 8
  · have hcur : s.lpe.cur.val = 8 := congrArg Fin.val h8
    have hdraw : drawWord c .lpe s = .done (lpeWord c s 0)
        { s with
          ctr := advanceByOne c s.ctr
          lpe := { s.lpe with buf := renderLpe c (advanceByOne c s.ctr), cur := 1 } } := by
      rw [drawWord_empty c .lpe s h8, genBlock_lpe, andThen_done]
      simp [lpeWord, lpeWordAt, hcur, setCur, setBuf]
    refine ⟨_, hdraw, fun i => ?_⟩
    have hone : (1 : Fin 9).val = 1 := rfl
    simp only [lpeWord, hcur, hone, show 8 + (i + 1) = 1 + i + 8 by omega]
    exact (lpeWordAt_add_eight c s (1 + i)).symm
  · have hlt : (curOf .lpe s).val < 8 := cursor_lt_eight h8
    have hlt' : s.lpe.cur.val < 8 := hlt
    refine ⟨setCur .lpe s ⟨(curOf .lpe s).val + 1, by omega⟩, ?_, fun i => ?_⟩
    · rw [drawWord_below_eight c .lpe s hlt]
      simp [lpeWord, lpeWordAt, hlt', Nat.mod_eq_of_lt hlt', curOf, bufOf]
    · rw [lpeWord, lpeWord, show s.lpe.cur.val + (i + 1) = s.lpe.cur.val + 1 + i by omega]
      rfl

/-- Successive draws of LPE return its successive words. -/
theorem drawWords_lpe (c : Cfg) (k : Nat) :
    ∀ s : State, ∃ t, drawWords c .lpe k s = .done ((List.range k).map (lpeWord c s)) t := by
  induction k with
  | zero => exact fun s => ⟨s, rfl⟩
  | succ k ih =>
    intro s
    obtain ⟨t, hd, hnext⟩ := drawWord_lpe c s
    obtain ⟨u, hu⟩ := ih t
    refine ⟨u, ?_⟩
    rw [drawWords_succ, hd, andThen_done, hu, andThen_done, List.range_succ_eq_map, List.map_cons,
      List.map_map]
    congr 2
    exact List.map_congr_left fun i _ => hnext i

/-- `k` draws of LPE are rejected exactly when its next `k` words are. -/
theorem rejectsThrough_lpe_iff (c : Cfg) (range k : Nat) (s : State) :
    (∃ v, RejectsThrough c .lpe range k s v) ↔ ∀ i < k, rejects range (lpeWord c s i) := by
  obtain ⟨t, ht⟩ := drawWords_lpe c k s
  have hwords : (∀ x ∈ (List.range k).map (lpeWord c s), rejects range x) ↔
      ∀ i < k, rejects range (lpeWord c s i) := by
    simp only [List.forall_mem_map, List.mem_range]
  rw [← hwords]
  constructor
  · rintro ⟨v, ws, hws, hrej⟩
    rw [ht] at hws
    cases hws
    exact hrej
  · exact fun hrej => ⟨t, _, ht, hrej⟩

theorem modulus_pos : 0 < modulus := Nat.lt_of_le_of_lt (Nat.zero_le _) (valLimbs_lt zeroLimbs)

/-- R24, R203: after `2^1024` more advances the counter is where it was. -/
theorem iterate_advanceByOne_add_modulus (c : Cfg) (k : Nat) (S : Limbs) :
    (advanceByOne c)^[k + modulus] S = (advanceByOne c)^[k] S := by
  have hturn : (advanceByOne c)^[modulus] S = S := (counterPeriodIsFull c S modulus).mpr dvd_rfl
  rw [Function.iterate_add_apply, hturn]

/-- The words of LPE behind its buffer repeat after `2^1024` blocks. -/
theorem lpeWord_periodic (c : Cfg) (s : State) (i : Nat) (h : 8 ≤ i) :
    lpeWord c s (i + 8 * modulus) = lpeWord c s i := by
  have hmod : (s.lpe.cur.val + (i + 8 * modulus)) % 8 = (s.lpe.cur.val + i) % 8 := by omega
  have hdiv : (s.lpe.cur.val + (i + 8 * modulus)) / 8 = (s.lpe.cur.val + i) / 8 + modulus := by
    omega
  have hbehind : ¬ s.lpe.cur.val + i < 8 := by omega
  have hbehind' : ¬ s.lpe.cur.val + (i + 8 * modulus) < 8 := by omega
  simp only [lpeWord, lpeWordAt, if_neg hbehind, if_neg hbehind', hmod, hdiv,
    iterate_advanceByOne_add_modulus]

/-- If the buffer's words and one whole period behind them are rejected, every word is. -/
theorem lpeWord_rejected_of_period (c : Cfg) (range : Nat) (s : State)
    (h : ∀ i < 8 * modulus + 8, rejects range (lpeWord c s i)) :
    ∀ i, rejects range (lpeWord c s i) := by
  have hpos := modulus_pos
  intro i
  induction i using Nat.strong_induction_on with
  | _ i ih =>
    by_cases hi : i < 8 * modulus + 8
    · exact h i hi
    · have hback := lpeWord_periodic c s (i - 8 * modulus) (by omega)
      rw [Nat.sub_add_cancel (by omega)] at hback
      rw [hback]
      exact ih _ (by omega)

/-! CE has only so many words before it is exhausted (R221, R264). -/

/-- The words CE can still deliver: the buffer's, and eight for each block before the last counter. -/
def ceWordsLeft (s : State) : Nat := 8 * (2 ^ 64 - 1 - s.ce.ctr.toNat) + (8 - s.ce.cur.val)

theorem ceWordsLeft_drawWord {c : Cfg} {s t : State} {w : Word}
    (h : drawWord c .ce s = .done w t) : ceWordsLeft t + 1 = ceWordsLeft s := by
  by_cases h8 : curOf .ce s = 8
  · have hcur : s.ce.cur.val = 8 := congrArg Fin.val h8
    rw [drawWord_empty c .ce s h8] at h
    by_cases hlast : s.ce.ctr + 1 = 0
    · rw [genBlock_ce_last c s hlast] at h
      cases h
    · rw [genBlock_ce_more c s hlast, andThen_done] at h
      obtain ⟨-, rfl⟩ := Run.done.inj h
      have hmore := mt (add_one_eq_zero_iff s.ce.ctr).mpr hlast
      have hnext : (s.ce.ctr + 1).toNat = s.ce.ctr.toNat + 1 := by
        rw [BitVec.toNat_add, toNat_one]
        omega
      have hone : (1 : Fin 9).val = 1 := rfl
      simp only [ceWordsLeft, setCur_ce_ce, setBuf_ce_ce, hnext, hcur, hone]
      omega
  · have hlt : (curOf .ce s).val < 8 := cursor_lt_eight h8
    have hlt' : s.ce.cur.val < 8 := hlt
    rw [drawWord_below_eight c .ce s hlt] at h
    obtain ⟨-, rfl⟩ := Run.done.inj h
    simp only [ceWordsLeft, setCur_ce_ce, curOf]
    omega

theorem ceWordsLeft_drawWords (c : Cfg) (k : Nat) :
    ∀ (s t : State) (ws : List Word), drawWords c .ce k s = .done ws t →
      ceWordsLeft t + k = ceWordsLeft s := by
  induction k with
  | zero => intro s t ws h; cases h; rfl
  | succ k ih =>
    intro s t ws h
    simp only [drawWords_succ, andThen_eq_done] at h
    obtain ⟨w, u, hw, ws', t', hws', heq⟩ := h
    cases heq
    rw [← ceWordsLeft_drawWord hw, ← ih u t ws' hws', Nat.add_assoc]

/-! The bound on redraws (log entry 5). -/

theorem redrawBound_eq : redrawBound = 8 * modulus + 8 := by
  rw [redrawBound, modulus, ← pow_mul]

/-- CE is exhausted before it has made as many draws as the bound allows. -/
theorem ceWordsLeft_lt_redrawBound (s : State) : ceWordsLeft s < redrawBound := by
  have hdvd : 2 ^ 64 ∣ modulus := pow_dvd_pow 2 (by decide)
  have hle := Nat.le_of_dvd modulus_pos hdvd
  rw [redrawBound_eq, ceWordsLeft]
  omega

/-- On CE the draws end before the bound is reached. -/
theorem not_rejectsThrough_ce (c : Cfg) (range : Nat) (s v : State) :
    ¬ RejectsThrough c .ce range (redrawBound + 1) s v := by
  rintro ⟨ws, hws, -⟩
  have hleft := ceWordsLeft_drawWords c _ s v ws hws
  have hlt := ceWordsLeft_lt_redrawBound s
  omega

/-- R264: the bound cuts no run short. Once it is reached with every draw rejected, no draw is ever
accepted. -/
theorem rejectsThrough_forever {c : Cfg} {e : Engine} {range : Nat} {s v : State}
    (h : RejectsThrough c e range (redrawBound + 1) s v) (k : Nat) :
    ∃ u, RejectsThrough c e range k s u := by
  cases e with
  | lpe =>
    have hperiod := (rejectsThrough_lpe_iff c range (redrawBound + 1) s).mp ⟨v, h⟩
    rw [redrawBound_eq] at hperiod
    have hall := lpeWord_rejected_of_period c range s fun i hi => hperiod i (by omega)
    exact (rejectsThrough_lpe_iff c range k s).mpr fun i _ => hall i
  | ce => exact absurd h (not_rejectsThrough_ce c range s v)

section

variable {c : Cfg} {e : Engine} {range k : Nat} {s v : State}

/-- Rejected draws after which a draw is not rejected are fewer than the bound allows. -/
theorem length_le_redrawBound (h : RejectsThrough c e range k s v)
    (hend : ∀ u, ¬ RejectsThrough c e range 1 v u) : k ≤ redrawBound := by
  by_contra hk
  obtain ⟨u, hu⟩ := rejectsThrough_of_le (j := redrawBound + 1) (by omega) h
  obtain ⟨x, hx⟩ := rejectsThrough_forever hu (k + 1)
  obtain ⟨v', hv', hone⟩ := (rejectsThrough_add c e range k 1 s x).mp hx
  rw [← rejectsThrough_unique h hv'] at hone
  exact hend x hone

theorem firstAccepted_eq_accepted {w : Word} {t : State} (h : RejectsThrough c e range k s v)
    (hd : drawWord c e v = .done w t) (hw : ¬ rejects range w) :
    firstAccepted c e range (redrawBound + 1) s = some (.done w t) := by
  have hk : k ≤ redrawBound := length_le_redrawBound h fun u hu => by
    obtain ⟨w', hd', hw'⟩ := (rejectsThrough_one c e range v u).mp hu
    rw [hd] at hd'
    cases hd'
    exact hw hw'
  obtain ⟨n, hn⟩ := Nat.exists_eq_add_of_le hk
  rw [hn, Nat.add_assoc, firstAccepted_after_rejected (n + 1) h,
    firstAccepted_succ_accepted n hd hw]

theorem firstAccepted_eq_raised {f : FaultCode} {t : State} (h : RejectsThrough c e range k s v)
    (hd : drawWord c e v = .raised f t) :
    firstAccepted c e range (redrawBound + 1) s = some (.raised f t) := by
  have hk : k ≤ redrawBound := length_le_redrawBound h fun u hu => by
    obtain ⟨w', hd', -⟩ := (rejectsThrough_one c e range v u).mp hu
    rw [hd] at hd'
    cases hd'
  obtain ⟨n, hn⟩ := Nat.exists_eq_add_of_le hk
  rw [hn, Nat.add_assoc, firstAccepted_after_rejected (n + 1) h, firstAccepted_succ_raised n hd]

end

end Sys2Proof.BlockProofs
end

