-- ==== Sys2Proof/Proofs/Sampler.lean ====
section
/-! PROOFS. The command UNBIASED (46_sampler.md R260 to R264): the statements on what it answers, on its hang,
and on the block going on. -/

-- Elaborated one after another, as in the tests: each proof elaborated at once takes a thread and its stack.
set_option Elab.async false

namespace Sys2Proof.BlockProofs

open Sys2Proof.Machine Sys2Proof.EngineProofs Sys2Proof.FaultProofs

/-! The command UNBIASED by the outcome of its search (R261). -/

theorem unbiasedCommand_of_some {c : Cfg} {e : Engine} {lo hi : Word} {s : State} {r : Run Word}
    (h : sample c e lo hi s = some r) :
    unbiasedCommand c e lo hi s = .next (r.andThen fun w t => .done [w] t).settle := by
  simp only [unbiasedCommand, h]

theorem unbiasedCommand_of_none {c : Cfg} {e : Engine} {lo hi : Word} {s : State}
    (h : sample c e lo hi s = none) :
    unbiasedCommand c e lo hi s = .fault .unbiasedNeverAccepts := by
  simp only [unbiasedCommand, h]

/-- UNBIASED answers a next state, or it is the hang. -/
theorem unbiasedCommand_answers_or_hangs (c : Cfg) (e : Engine) (lo hi : Word) (s : State) :
    (∃ t, unbiasedCommand c e lo hi s = .next t) ∨
      unbiasedCommand c e lo hi s = .fault .unbiasedNeverAccepts := by
  cases h : sample c e lo hi s with
  | none => exact .inr (unbiasedCommand_of_none h)
  | some r => exact .inl ⟨_, unbiasedCommand_of_some h⟩

theorem notReady_ne_ok (e : Engine) (s : State) : notReady e s ≠ some .ok := by
  cases e with
  | lpe => rw [notReady_lpe]; split <;> nofun
  | ce =>
    rw [notReady]
    split
    · split <;> nofun
    · nofun

/-- Equal bounds are answered without a draw (R262(a)). -/
theorem unbiasedCommand_of_eq {c : Cfg} {e : Engine} {lo : Word} {s : State}
    (h : notReady e s = none) : unbiasedCommand c e lo lo s = .next (complete s [lo]) := by
  have hsample : sample c e lo lo s = some (.done lo s) := by
    simp only [sample, h, sampleOrdered, if_true, ite_self]
  rw [unbiasedCommand_of_some hsample, andThen_done, settle_done]

/-! On a ready engine with bounds `a < b`, given in either order. -/

section

variable {c : Cfg} {e : Engine} {a b lo hi : Word} {s : State} (hready : notReady e s = none)
  (hab : a < b) (hbounds : lo = a ∧ hi = b ∨ lo = b ∧ hi = a)

include hready hab hbounds

/-- The order of the bounds does not matter (R262(b)). -/
theorem sample_of_bounds : sample c e lo hi s = sampleOrdered c e a b s := by
  obtain ⟨rfl, rfl⟩ | ⟨rfl, rfl⟩ := hbounds
  · have hle : ¬ lo > hi := BitVec.not_lt.mpr (BitVec.le_of_lt hab)
    simp only [sample, hready, if_neg hle]
  · have hgt : lo > hi := hab
    simp only [sample, hready, if_pos hgt]

/-- Over the whole domain UNBIASED is one raw draw (R262(c)). -/
theorem unbiasedCommand_whole (hrange : rangeSize a b = 2 ^ 64) :
    unbiasedCommand c e lo hi s =
      .next ((drawWord c e s).andThen fun w t => .done [w] t).settle := by
  refine unbiasedCommand_of_some ?_
  rw [sample_of_bounds hready hab hbounds]
  simp only [sampleOrdered, if_neg (BitVec.ne_of_lt hab), if_pos (range_whole hab hrange)]

/-- Over a smaller range UNBIASED is the search for the first accepted draw. -/
theorem sample_below (hrange : rangeSize a b < 2 ^ 64) :
    sample c e lo hi s =
      (firstAccepted c e (rangeSize a b) (redrawBound + 1) s).map fun r =>
        r.andThen fun w t => .done (a + BitVec.ofNat 64 (candidate (rangeSize a b) w)) t := by
  obtain ⟨htoNat, hne⟩ := range_below hab hrange
  rw [sample_of_bounds hready hab hbounds]
  simp only [sampleOrdered, if_neg (BitVec.ne_of_lt hab), if_neg hne, acceptedProduct_eq c e _ s hne,
    Option.map_map, htoNat]
  congr 1
  funext r
  simp only [Function.comp_apply, andThen_assoc, andThen_done, hi64_eq_candidate, htoNat]

theorem unbiasedCommand_accepted (hrange : rangeSize a b < 2 ^ 64) {w : Word} {t : State}
    (h : firstAccepted c e (rangeSize a b) (redrawBound + 1) s = some (.done w t)) :
    unbiasedCommand c e lo hi s =
      .next (complete t [a + BitVec.ofNat 64 (candidate (rangeSize a b) w)]) := by
  have hsample := sample_below (c := c) hready hab hbounds hrange
  rw [h, Option.map_some, andThen_done] at hsample
  rw [unbiasedCommand_of_some hsample, andThen_done, settle_done]

theorem unbiasedCommand_raised (hrange : rangeSize a b < 2 ^ 64) {f : FaultCode} {t : State}
    (h : firstAccepted c e (rangeSize a b) (redrawBound + 1) s = some (.raised f t)) :
    unbiasedCommand c e lo hi s = .next (raiseFault t f) := by
  have hsample := sample_below (c := c) hready hab hbounds hrange
  rw [h, Option.map_some, andThen_raised] at hsample
  rw [unbiasedCommand_of_some hsample, andThen_raised, settle_raised]

theorem unbiasedCommand_none (hrange : rangeSize a b < 2 ^ 64)
    (h : firstAccepted c e (rangeSize a b) (redrawBound + 1) s = none) :
    unbiasedCommand c e lo hi s = .fault .unbiasedNeverAccepts := by
  have hsample := sample_below (c := c) hready hab hbounds hrange
  rw [h, Option.map_none] at hsample
  exact unbiasedCommand_of_none hsample

/-- R264, R315: UNBIASED hangs exactly when no number of draws is enough. -/
theorem unbiasedCommand_hangs_iff :
    unbiasedCommand c e lo hi s = .fault .unbiasedNeverAccepts ↔
      rangeSize a b < 2 ^ 64 ∧ ∀ k, ∃ t, RejectsThrough c e (rangeSize a b) k s t := by
  rcases Nat.lt_or_eq_of_le (rangeSize_le a b) with hrange | hrange
  · simp only [hrange, true_and]
    have hnone : unbiasedCommand c e lo hi s = .fault .unbiasedNeverAccepts ↔
        firstAccepted c e (rangeSize a b) (redrawBound + 1) s = none := by
      cases hf : firstAccepted c e (rangeSize a b) (redrawBound + 1) s with
      | none => exact iff_of_true (unbiasedCommand_none hready hab hbounds hrange hf) rfl
      | some r =>
        cases r with
        | done w t =>
          rw [unbiasedCommand_accepted hready hab hbounds hrange hf]
          exact iff_of_false nofun nofun
        | raised f t =>
          rw [unbiasedCommand_raised hready hab hbounds hrange hf]
          exact iff_of_false nofun nofun
    rw [hnone, firstAccepted_eq_none_iff]
    exact ⟨fun ⟨_, hv⟩ => rejectsThrough_forever hv, fun hall => hall _⟩
  · rw [unbiasedCommand_whole hready hab hbounds hrange]
    exact iff_of_false nofun fun hall => absurd hall.1 (by omega)

/-- Over a range below 2^64, a completion is the candidate of the first accepted draw, in the state after
it. -/
theorem unbiasedCommand_completes_iff (hrange : rangeSize a b < 2 ^ 64) (p : List Word) (u : State) :
    (unbiasedCommand c e lo hi s = .next u ∧ u.response = some ⟨.ok, p⟩) ↔
      ∃ k v w t, RejectsThrough c e (rangeSize a b) k s v ∧ drawWord c e v = .done w t ∧
        ¬ rejects (rangeSize a b) w ∧
        p = [a + BitVec.ofNat 64 (candidate (rangeSize a b) w)] ∧ u = complete t p := by
  constructor
  · rintro ⟨hnext, hresponse⟩
    rcases firstAccepted_cases c e (rangeSize a b) (redrawBound + 1) s with ⟨hf, -⟩ |
      ⟨k, v, w, t, hv, hd, hw, hf⟩ | ⟨k, v, f, t, hv, hd, hf⟩
    · rw [unbiasedCommand_none hready hab hbounds hrange hf] at hnext
      cases hnext
    · rw [unbiasedCommand_accepted hready hab hbounds hrange hf] at hnext
      cases hnext
      rw [complete_response] at hresponse
      cases hresponse
      exact ⟨k, v, w, t, hv, hd, hw, rfl, rfl⟩
    · rw [unbiasedCommand_raised hready hab hbounds hrange hf] at hnext
      cases hnext
      have hholds := drawWord_holds c e v
      rw [hd] at hholds
      obtain ⟨-, rfl, -⟩ := hholds
      cases hresponse
  · rintro ⟨k, v, w, t, hv, hd, hw, rfl, rfl⟩
    exact ⟨unbiasedCommand_accepted hready hab hbounds hrange (firstAccepted_eq_accepted hv hd hw),
      complete_response _ _⟩

/-- A draw that faults after rejected ones, or as the one draw of the whole domain, ends the command; the
engine is then the exhausted CE (R223, R272). -/
theorem unbiasedCommand_exhausts {k : Nat} {v t : State} {f : FaultCode}
    (hwhole : rangeSize a b = 2 ^ 64 → k = 0) (hv : RejectsThrough c e (rangeSize a b) k s v)
    (hd : drawWord c e v = .raised f t) :
    e = .ce ∧ unbiasedCommand c e lo hi s =
      .next (raiseFault { s with ce := exhaustCe s.ce } .keystreamExhausted) := by
  have hcommand : unbiasedCommand c e lo hi s = .next (raiseFault t f) := by
    rcases Nat.lt_or_eq_of_le (rangeSize_le a b) with hrange | hrange
    · exact unbiasedCommand_raised hready hab hbounds hrange (firstAccepted_eq_raised hv hd)
    · obtain rfl := hwhole hrange
      obtain rfl := (rejectsThrough_zero _ _ _ _ _).mp hv
      rw [unbiasedCommand_whole hready hab hbounds hrange, hd, andThen_raised, settle_raised]
  have hholds := drawWord_holds c e v
  rw [hd] at hholds
  obtain ⟨he, rfl, rfl⟩ := exhaustsFrom_of_keeps (rejectsThrough_keeps hv) hholds
  exact ⟨he, hcommand⟩

end

/-! The statements. -/

/-- Settles O42: equal bounds, the whole domain, and a first draw that is not rejected. -/
theorem unbiasedReturnsAnAcceptedDraw : Obligations.UnbiasedReturnsAnAcceptedDraw := by
  unfold Obligations.UnbiasedReturnsAnAcceptedDraw
  intro e lo hi s hready
  refine ⟨?_, fun a b w t hbounds hab hd => ⟨fun hrange => ?_, fun hrange hw => ?_⟩⟩
  · rintro rfl
    exact unbiasedCommand_of_eq hready
  · rw [exec_unbiased, unbiasedCommand_whole hready hab hbounds hrange, hd]
    rfl
  · exact unbiasedCommand_accepted hready hab hbounds hrange
      (firstAccepted_succ_accepted redrawBound hd hw)

/-- R260: on a ready engine NEXT is a raw draw and its response. -/
theorem exec_next_of_drawWord (e : Engine) (s : State) (hready : notReady e s = none) :
    (∀ (w : Word) (t : State), drawWord Config.cfg e s = .done w t →
      t.response = s.response ∧ exec (.next e) s = .next (complete t [w])) ∧
    (∀ (f : FaultCode) (t : State), drawWord Config.cfg e s = .raised f t →
      t.response = s.response ∧ exec (.next e) s = .next (raiseFault t f)) := by
  have hholds := drawWord_holds Config.cfg e s
  rw [exec_next_of_ready e s hready]
  constructor
  · intro w t hd
    rw [hd] at hholds ⊢
    obtain ⟨-, -, -, hresponse, -⟩ := hholds
    exact ⟨hresponse, rfl⟩
  · intro f t hd
    rw [hd] at hholds ⊢
    obtain ⟨-, -, rfl⟩ := hholds
    exact ⟨rfl, rfl⟩

/-- Settles O43: the command is the search for the first accepted draw, which the bound on redraws does not
cut short. -/
theorem samplerIsRejectionSampling : Obligations.SamplerIsRejectionSampling := by
  unfold Obligations.SamplerIsRejectionSampling
  refine ⟨exec_unbiased, exec_next_of_drawWord, fun c e a b lo hi s hready hab hbounds => ⟨?_, ?_⟩⟩
  · intro hrange p u
    rw [unbiasedCommand_completes_iff hready hab hbounds hrange]
    constructor
    · rintro ⟨k, v, w, t, hv, hd, hw, hp, hu⟩
      obtain ⟨ws, hws, hrej⟩ := (rejectsThrough_iff_words c e _ s v).mp ⟨k, hv⟩
      exact ⟨ws, w, t, (drawWords_append_singleton c e ws w s t).mpr ⟨v, hws, hd⟩, hrej, hw, hp, hu⟩
    · rintro ⟨ws, w, t, hdraws, hrej, hw, hp, hu⟩
      obtain ⟨v, hws, hd⟩ := (drawWords_append_singleton c e ws w s t).mp hdraws
      exact ⟨ws.length, v, w, t, ⟨ws, hws, hrej⟩, hd, hw, hp, hu⟩
  · intro ws v t f hwhole hws hrej hd
    exact unbiasedCommand_exhausts hready hab hbounds (fun h => by rw [hwhole h, List.length_nil])
      ⟨ws, hws, hrej⟩ hd

/-- Settles O44: the bound on redraws is past the period of LPE's words and past CE's last one. -/
theorem samplerHangsExactlyWhenNothingIsAccepted :
    Obligations.SamplerHangsExactlyWhenNothingIsAccepted := by
  unfold Obligations.SamplerHangsExactlyWhenNothingIsAccepted
  intro c e a b lo hi s hready hab hbounds
  rw [unbiasedCommand_hangs_iff hready hab hbounds]
  exact and_congr_right fun _ => forall_congr' fun k => exists_comm

/-- Bounds in either order are the smaller and the larger one. -/
theorem min_max_of_bounds {a b lo hi : Word} (hab : a < b)
    (hbounds : lo = a ∧ hi = b ∨ lo = b ∧ hi = a) :
    min lo.toNat hi.toNat = a.toNat ∧ max lo.toNat hi.toNat = b.toNat := by
  have hlt : a.toNat < b.toNat := hab
  obtain ⟨rfl, rfl⟩ | ⟨rfl, rfl⟩ := hbounds <;> omega

/-- The bounds of the whole domain. -/
theorem bounds_of_whole {a b : Word} (h : rangeSize a b = 2 ^ 64) :
    a.toNat = 0 ∧ b.toNat = 2 ^ 64 - 1 := by
  have hb := b.isLt
  rw [rangeSize] at h
  omega

/-- Settles O45: the bound itself, any word of the whole domain, or the lower bound plus a candidate. -/
theorem unbiasedResultIsInRange : Obligations.UnbiasedResultIsInRange := by
  unfold Obligations.UnbiasedResultIsInRange
  intro e lo hi s u p hexec hresponse
  cases hready : notReady e s with
  | some f =>
    rw [exec_of_notReady e (.unbiased e lo hi) s f (beq_self_eq_true e) hready] at hexec
    cases hexec
    cases hresponse
    exact absurd hready (notReady_ne_ok e s)
  | none =>
    rw [exec_unbiased] at hexec
    rcases bounds_cases lo hi with rfl | ⟨a, b, hab, hbounds⟩
    · rw [unbiasedCommand_of_eq hready] at hexec
      cases hexec
      cases hresponse
      exact ⟨lo, rfl, by omega, by omega⟩
    · obtain ⟨hmin, hmax⟩ := min_max_of_bounds hab hbounds
      rw [hmin, hmax]
      rcases Nat.lt_or_eq_of_le (rangeSize_le a b) with hrange | hrange
      · obtain ⟨k, v, w, t, -, -, -, hp, -⟩ :=
          (unbiasedCommand_completes_iff hready hab hbounds hrange p u).mp ⟨hexec, hresponse⟩
        exact ⟨_, hp, offset_within hab w⟩
      · obtain ⟨ha, hb⟩ := bounds_of_whole hrange
        rw [unbiasedCommand_whole hready hab hbounds hrange] at hexec
        have hholds := drawWord_holds Config.cfg e s
        cases hd : drawWord Config.cfg e s with
        | done w t =>
          rw [hd] at hexec
          cases hexec
          cases hresponse
          have hw := w.isLt
          exact ⟨w, rfl, by omega, by omega⟩
        | raised f t =>
          rw [hd] at hexec hholds
          obtain ⟨-, rfl, -⟩ := hholds
          cases hexec
          cases hresponse

/-- Settles O46: CE is exhausted before the bound on redraws is reached. -/
theorem unbiasedCeAlwaysAnswers : Obligations.UnbiasedCeAlwaysAnswers := by
  unfold Obligations.UnbiasedCeAlwaysAnswers
  intro lo hi s
  refine (unbiasedCommand_answers_or_hangs Config.cfg .ce lo hi s).resolve_right fun hhang => ?_
  cases hready : notReady .ce s with
  | some f =>
    rw [← exec_unbiased, exec_of_notReady .ce (.unbiased .ce lo hi) s f rfl hready] at hhang
    cases hhang
  | none =>
    rcases bounds_cases lo hi with rfl | ⟨a, b, hab, hbounds⟩
    · rw [unbiasedCommand_of_eq hready] at hhang; cases hhang
    · obtain ⟨-, hall⟩ := (unbiasedCommand_hangs_iff hready hab hbounds).mp hhang
      obtain ⟨t, ht⟩ := hall (redrawBound + 1)
      exact not_rejectsThrough_ce _ _ s t ht

/-- Every command answers a next state, or it is UNBIASED on LPE in its hang. -/
theorem exec_answers_or_hangs (i : Instr) (s : State) :
    (∃ t, exec i s = .next t) ∨
      ∃ lo hi, i = .unbiased .lpe lo hi ∧ exec i s = .fault .unbiasedNeverAccepts := by
  cases i
  case unbiased e lo hi =>
    cases e with
    | ce => exact .inl (unbiasedCeAlwaysAnswers lo hi s)
    | lpe =>
      exact (unbiasedCommand_answers_or_hangs Config.cfg .lpe lo hi s).imp_right fun h =>
        ⟨lo, hi, rfl, h⟩
  case lpeSeedEnt =>
    obtain h | ⟨_, h⟩ | ⟨_, _, h⟩ := exec_lpeSeedEnt_cases s <;> exact .inl ⟨_, h⟩
  case ceSeedEnt =>
    obtain h | ⟨_, h⟩ | ⟨_, _, h⟩ := exec_ceSeedEnt_cases s <;> exact .inl ⟨_, h⟩
  all_goals exact .inl ⟨_, rfl⟩

/-- Settles O50: a step goes on unless its command does not answer. -/
theorem blockGoesOnButForTheSamplersHang : Obligations.BlockGoesOnButForTheSamplersHang := by
  unfold Obligations.BlockGoesOnButForTheSamplersHang
  intro s
  cases hdecode : decode s.input with
  | illegal r len => exact .inl ⟨_, step_of_illegal hdecode⟩
  | incomplete => exact .inl ⟨_, step_of_incomplete hdecode⟩
  | command i len =>
    rcases exec_answers_or_hangs i s with ⟨t, ht⟩ | ⟨lo, hi, rfl, hhang⟩
    · exact .inl ⟨_, step_of_exec_next hdecode ht⟩
    · exact .inr ⟨lo, hi, len, rfl, step_of_exec_fault hdecode hhang⟩

end Sys2Proof.BlockProofs
end

