-- ==== Sys2Proof/Proofs/TwoRuns.lean ====
section
/-! PROOFS. Two runs side by side. Every claim about an engine's commands that compares two runs, or that
says what one run keeps, follows from one pass over the engine pattern: a relation between states that the
hooks keep is kept by every command of the engine. -/

-- Elaborated one after another, as in the tests: each proof elaborated at once takes a thread and its stack.
set_option Elab.async false

namespace Sys2Proof.BlockProofs

open Sys2Proof.Machine Sys2Proof.EngineProofs Sys2Proof.FaultProofs

variable {α β : Type}

/-- Two runs end in the same way: with one value in states that `D` relates, or with one fault in states
that `Q` relates. -/
inductive RunsAlike (D : α → State → State → Prop) (Q : FaultCode → State → State → Prop) :
    Run α → Run α → Prop where
  | done {a : α} {t u : State} (h : D a t u) : RunsAlike D Q (.done a t) (.done a u)
  | raised {f : FaultCode} {t u : State} (h : Q f t u) : RunsAlike D Q (.raised f t) (.raised f u)

/-- Two steps end in the same way: with next states that `P` relates, or for one reason. -/
inductive OutcomesAlike (P : State → State → Prop) :
    Host.Outcome State Fault Refusal → Host.Outcome State Fault Refusal → Prop where
  | next {t u : State} (h : P t u) : OutcomesAlike P (.next t) (.next u)
  | fault (f : Fault) : OutcomesAlike P (.fault f) (.fault f)
  | refused (f : Refusal) : OutcomesAlike P (.refused f) (.refused f)

/-- The rule for sequences. -/
theorem RunsAlike.andThen {D : α → State → State → Prop} {E : β → State → State → Prop}
    {Q : FaultCode → State → State → Prop} {r r' : Run α} {k k' : α → State → Run β}
    (h : RunsAlike D Q r r') (hk : ∀ a t u, D a t u → RunsAlike E Q (k a t) (k' a u)) :
    RunsAlike E Q (r.andThen k) (r'.andThen k') := by
  cases h with
  | done h => exact hk _ _ _ h
  | raised h => exact .raised h

/-! What a command of an engine does, in one form for the six of them. -/

/-- The body of an engine command (R170), which runs when the engine is ready; `none` is the hang. Other
commands have no body. -/
def engineBody (c : Cfg) (e : Engine) (i : Instr) (s : State) : Option (Run (List Word)) :=
  match i with
  | .next _ => some ((drawWord c e s).andThen fun w t => .done [w] t)
  | .bulk _ n =>
    some ((bulkFill c e n.toNat s).andThen fun out t => .done (packBytes out) (setCur e t 8))
  | .discard _ n => some ((discardWords c e n.toNat s).andThen fun _ t => .done [] t)
  | .jump _ => some ((jumpEngine c e false s).andThen fun _ t => .done [] t)
  | .ljump _ => some ((jumpEngine c e true s).andThen fun _ t => .done [] t)
  | .unbiased _ lo hi =>
    (if lo > hi then sampleOrdered c e hi lo s else sampleOrdered c e lo hi s).map fun r =>
      r.andThen fun w t => .done [w] t
  | _ => none

/-- The outcome of a body: its settled run, or the hang. -/
def bodyOutcome (r : Option (Run (List Word))) : Host.Outcome State Fault Refusal :=
  match r with
  | some r => .next r.settle
  | none => .fault .unbiasedNeverAccepts

/-- A ready engine's command is its body. -/
theorem exec_engineCommand_ready {e : Engine} {i : Instr} {s : State}
    (hi : isEngineCommand e i = true) (hr : notReady e s = none) :
    exec i s = bodyOutcome (engineBody Config.cfg e i s) := by
  cases i <;> simp only [isEngineCommand, beq_iff_eq, Bool.false_eq_true] at hi <;> subst hi
  case next => rw [exec_next, nextCommand, whenReady_of_ready _ _ _ hr]; rfl
  case bulk => rw [exec_bulk, bulkCommand, whenReady_of_ready _ _ _ hr]; rfl
  case discard => rw [exec_discard, discardCommand, whenReady_of_ready _ _ _ hr]; rfl
  case jump => rw [exec_jump, jumpCommand, whenReady_of_ready _ _ _ hr]; rfl
  case ljump => rw [exec_ljump, jumpCommand, whenReady_of_ready _ _ _ hr]; rfl
  case unbiased e lo up =>
    simp only [exec_unbiased, unbiasedCommand, sample, hr, engineBody]
    generalize (if lo > up then sampleOrdered Config.cfg e up lo s
      else sampleOrdered Config.cfg e lo up s) = r
    cases r <;> rfl

/-! Relations that the hooks keep. -/

/-- The hooks of an engine keep a relation: `R` between commands, `W` while the buffer and the cursor are
not yet brought up to date, `Q` where a fault ends the command. -/
structure KeptByHooks (c : Cfg) (e : Engine) (R W : State → State → Prop)
    (Q : FaultCode → State → State → Prop) : Prop where
  weaken : ∀ {s u}, R s u → W s u
  cur : ∀ {s u}, R s u → curOf e s = curOf e u
  word : ∀ {s u}, R s u → ∀ (h : (curOf e s).val < 8) (h' : (curOf e u).val < 8),
    (bufOf e s)[(curOf e s).val] = (bufOf e u)[(curOf e u).val]
  advance : ∀ {s u} (v : Fin 9), R s u → curOf e s ≤ v → R (setCur e s v) (setCur e u v)
  empty : ∀ {s u}, W s u → R (setCur e s 8) (setCur e u 8)
  gen : ∀ {s u}, W s u →
    RunsAlike
      (fun blk t t' => W t t' ∧
        ∀ v, R (setCur e (setBuf e t blk) v) (setCur e (setBuf e t' blk) v))
      Q (genBlock c e s) (genBlock c e u)
  skip : ∀ {s u} (m : Nat), R s u → curOf e s = 8 →
    RunsAlike (fun _ => R) Q (skipBlocks c e m s) (skipBlocks c e m u)
  jump : ∀ {s u} (stp : Limbs), e = .lpe → R s u →
    W { s with ctr := bigJump c stp s.ctr } { u with ctr := bigJump c stp u.ctr }

namespace KeptByHooks

variable {c : Cfg} {e : Engine} {R W : State → State → Prop} {Q : FaultCode → State → State → Prop}
  {s u : State}

theorem drawWord_alike (H : KeptByHooks c e R W Q) (h : R s u) :
    RunsAlike (fun _ => R) Q (drawWord c e s) (drawWord c e u) := by
  have hc := H.cur h
  by_cases h8 : curOf e s = 8
  · rw [drawWord_empty c e s h8, drawWord_empty c e u (hc ▸ h8)]
    exact (H.gen (H.weaken h)).andThen fun _ _ _ h' => .done (h'.2 1)
  · have hlt : (curOf e s).val < 8 := cursor_lt_eight h8
    have hle : curOf e s ≤ curOf e s + 1 := by
      rw [Fin.le_def, Fin.val_add_one_of_lt' (by omega)]
      omega
    rw [drawWord_buffered c e s hlt, drawWord_buffered c e u (hc ▸ hlt), ← H.word h hlt (hc ▸ hlt),
      ← hc]
    exact .done (H.advance _ h hle)

theorem bulkBlocks_alike (H : KeptByHooks c e R W Q) (m : Nat) :
    ∀ (off : Nat) (out : List Byte) (s u : State), W s u →
      RunsAlike (fun _ => W) Q (bulkBlocks c e m off out s) (bulkBlocks c e m off out u) := by
  induction m with
  | zero => exact fun _ _ _ _ h => .done h
  | succ m ih => exact fun _ _ _ _ h => (H.gen h).andThen fun _ _ _ h' => ih _ _ _ _ h'.1

theorem bulkFill_alike (H : KeptByHooks c e R W Q) (n : Nat) (h : W s u) :
    RunsAlike (fun _ => W) Q (bulkFill c e n s) (bulkFill c e n u) := by
  refine (H.bulkBlocks_alike _ _ _ _ _ h).andThen fun _ _ _ h' => ?_
  split
  · exact (H.gen h').andThen fun _ _ _ h'' => .done h''.1
  · exact .done h'

theorem discardWords_alike (H : KeptByHooks c e R W Q) (n : Nat) (h : R s u) :
    RunsAlike (fun _ => R) Q (discardWords c e n s) (discardWords c e n u) := by
  simp only [discardWords, ← H.cur h]
  by_cases hn : n ≤ 8 - (curOf e s).val
  · simp only [if_pos hn]
    refine .done (H.advance _ h ?_)
    rw [Fin.le_def, Fin.val_ofNat, Nat.mod_eq_of_lt (by omega)]
    omega
  · simp only [if_neg hn]
    have h8 := H.empty (H.weaken h)
    refine RunsAlike.andThen (D := fun _ => R) ?_ fun _ t v h' => ?_
    · split
      · exact H.skip _ h8 (curOf_setCur e s 8)
      · exact .done h8
    · split
      · refine RunsAlike.andThen (D := fun _ t' v' => R t' v' ∧ curOf e t' = 0) ?_ fun _ t' v' h'' =>
          .done (H.advance _ h''.1 (h''.2 ▸ Fin.zero_le _))
        exact (H.gen (H.weaken h')).andThen fun _ _ _ hg => .done ⟨hg.2 0, curOf_setCur e _ 0⟩
      · exact .done h'

theorem jumpEngine_alike (H : KeptByHooks c e R W Q) (long : Bool) (h : R s u) :
    RunsAlike (fun _ => R) Q (jumpEngine c e long s) (jumpEngine c e long u) := by
  cases e with
  | lpe => exact .done (H.empty (H.jump _ rfl h))
  | ce => exact H.discardWords_alike _ h

theorem drawProduct_alike (H : KeptByHooks c e R W Q) (range : Word) (h : R s u) :
    RunsAlike (fun _ => R) Q (drawProduct c e range s) (drawProduct c e range u) :=
  (H.drawWord_alike h).andThen fun _ _ _ h' => .done h'

theorem redraw_alike (H : KeptByHooks c e R W Q) (range threshold : Word) (fuel : Nat) :
    ∀ (m : BitVec 128) (s u : State), R s u →
      Option.Rel (RunsAlike (fun _ => R) Q) (redraw c e range threshold fuel m s)
        (redraw c e range threshold fuel m u) := by
  induction fuel with
  | zero =>
    intro m s u h
    simp only [redraw]
    split
    · exact .none
    · exact .some (.done h)
  | succ fuel ih =>
    intro m s u h
    simp only [redraw]
    split
    · have hd := H.drawProduct_alike range h
      generalize drawProduct c e range s = r, drawProduct c e range u = r' at hd ⊢
      cases hd with
      | done h' => exact ih _ _ _ h'
      | raised h' => exact .some (.raised h')
    · exact .some (.done h)

theorem acceptedProduct_alike (H : KeptByHooks c e R W Q) (range : Word) (h : R s u) :
    Option.Rel (RunsAlike (fun _ => R) Q) (acceptedProduct c e range s)
      (acceptedProduct c e range u) := by
  have hd := H.drawProduct_alike range h
  simp only [acceptedProduct]
  generalize drawProduct c e range s = r, drawProduct c e range u = r' at hd ⊢
  cases hd with
  | raised h' => exact .some (.raised h')
  | done h' =>
    dsimp only
    split
    · exact H.redraw_alike range _ _ _ _ _ h'
    · exact .some (.done h')

end KeptByHooks

/-- Mapping two optional runs that end alike. -/
theorem optionRel_map_andThen {D : α → State → State → Prop} {E : β → State → State → Prop}
    {Q : FaultCode → State → State → Prop} {r r' : Option (Run α)} {k : α → State → Run β}
    (h : Option.Rel (RunsAlike D Q) r r')
    (hk : ∀ a t u, D a t u → RunsAlike E Q (k a t) (k a u)) :
    Option.Rel (RunsAlike E Q) (r.map fun x => x.andThen k) (r'.map fun x => x.andThen k) := by
  cases h with
  | none => exact .none
  | some h => exact .some (h.andThen hk)

namespace KeptByHooks

variable {c : Cfg} {e : Engine} {R W : State → State → Prop} {Q : FaultCode → State → State → Prop}
  {s u : State}

theorem sampleOrdered_alike (H : KeptByHooks c e R W Q) (lo hi : Word) (h : R s u) :
    Option.Rel (RunsAlike (fun _ => R) Q) (sampleOrdered c e lo hi s)
      (sampleOrdered c e lo hi u) := by
  simp only [sampleOrdered]
  split
  · exact .some (.done h)
  · split
    · exact .some (H.drawWord_alike h)
    · exact optionRel_map_andThen (H.acceptedProduct_alike _ h) fun _ _ _ h' => .done h'

/-- A relation that the hooks keep is kept by the body of every command of the engine. -/
theorem engineBody_alike (H : KeptByHooks c e R W Q) (i : Instr) (h : R s u) :
    Option.Rel (RunsAlike (fun _ => R) Q) (engineBody c e i s) (engineBody c e i u) := by
  cases i
  case next => exact .some ((H.drawWord_alike h).andThen fun _ _ _ h' => .done h')
  case bulk n =>
    exact .some ((H.bulkFill_alike _ (H.weaken h)).andThen fun _ _ _ h' => .done (H.empty h'))
  case discard n => exact .some ((H.discardWords_alike _ h).andThen fun _ _ _ h' => .done h')
  case jump | ljump => exact .some ((H.jumpEngine_alike _ h).andThen fun _ _ _ h' => .done h')
  case unbiased lo hi =>
    refine optionRel_map_andThen ?_ fun _ _ _ h' => .done h'
    split
    · exact H.sampleOrdered_alike hi lo h
    · exact H.sampleOrdered_alike lo hi h
  all_goals exact .none

end KeptByHooks

/-- A relation that the hooks keep and that does not see the response is kept by every command of the
engine, and the responses are equal. -/
theorem exec_engineCommand_alike {e : Engine} {i : Instr} {s u : State} {R : State → State → Prop}
    (H : KeptByHooks Config.cfg e R R fun _ => R) (hi : isEngineCommand e i = true)
    (hready : notReady e s = notReady e u)
    (hresp : ∀ {t v : State} (x : Option Response), R t v →
      R { t with response := x } { v with response := x })
    (h : R s u) :
    OutcomesAlike (fun t v => t.response = v.response ∧ R t v) (exec i s) (exec i u) := by
  cases hf : notReady e s with
  | some f =>
    rw [exec_of_notReady e i s f hi hf, exec_of_notReady e i u f hi (hready ▸ hf)]
    exact .next ⟨rfl, hresp _ h⟩
  | none =>
    rw [exec_engineCommand_ready hi hf, exec_engineCommand_ready hi (hready ▸ hf)]
    have hb := H.engineBody_alike i h
    generalize engineBody Config.cfg e i s = r, engineBody Config.cfg e i u = r' at hb ⊢
    cases hb with
    | none => exact .fault _
    | some hb =>
      cases hb with
      | done h' => exact .next ⟨rfl, hresp _ h'⟩
      | raised h' => exact .next ⟨rfl, hresp _ h'⟩

end Sys2Proof.BlockProofs
end

