-- ==== Sys2Proof/Proofs/Noninterference.lean ====
section
/-! PROOFS. Two-run claims: what an engine's side answers does not depend on the other side (R20, R28,
R302), nor on buffer words already consumed (R38). -/

-- Elaborated one after another, as in the tests: each proof elaborated at once takes a thread and its stack.
set_option Elab.async false

namespace Sys2Proof.BlockProofs

open Sys2Proof.Machine Sys2Proof.EngineProofs Sys2Proof.FaultProofs

/-- Two states hold the same on the side of an engine: its groups of R20 and its draw answers. -/
def agreesOn (e : Engine) (s u : State) : Prop :=
  match e with
  | .lpe => s.ctr = u.ctr ∧ s.lpe = u.lpe ∧ s.entropy128 = u.entropy128
  | .ce => s.ce = u.ce ∧ s.entropy64 = u.entropy64

/-- The response is on neither side. -/
theorem agreesOn_response {e : Engine} {s u : State} (x : Option Response) (h : agreesOn e s u) :
    agreesOn e { s with response := x } { u with response := x } := by cases e <;> exact h

theorem notReady_of_agreesOn {e : Engine} {s u : State} (h : agreesOn e s u) :
    notReady e s = notReady e u := by
  cases e with
  | lpe => simp only [notReady, h.2.1]
  | ce => simp only [notReady, h.1]

/-- Every hook of an engine reads and writes its own side only. -/
theorem agreesOn_keptByHooks (c : Cfg) (e : Engine) :
    KeptByHooks c e (agreesOn e) (agreesOn e) fun _ => agreesOn e := by
  cases e with
  | lpe =>
    exact
      { weaken := id
        cur := fun ⟨_, hl, _⟩ => by simp only [curOf, hl]
        word := fun ⟨_, hl, _⟩ _ _ => by simp only [curOf, bufOf, hl]
        advance := fun _ ⟨hc, hl, he⟩ _ => by simp [agreesOn, hc, hl, he]
        empty := fun ⟨hc, hl, he⟩ => by simp [agreesOn, hc, hl, he]
        gen := fun ⟨hc, hl, he⟩ => by
          simp only [genBlock_lpe, hc]
          exact .done (by simp [agreesOn, hl, he])
        skip := fun _ ⟨hc, hl, he⟩ _ => .done (by simp [agreesOn, hc, hl, he])
        jump := fun _ _ ⟨hc, hl, he⟩ => by simp [agreesOn, hc, hl, he] }
  | ce =>
    exact
      { weaken := id
        cur := fun ⟨hg, _⟩ => by simp only [curOf, hg]
        word := fun ⟨hg, _⟩ _ _ => by simp only [curOf, bufOf, hg]
        advance := fun _ ⟨hg, he⟩ _ => by simp [agreesOn, hg, he]
        empty := fun ⟨hg, he⟩ => by simp [agreesOn, hg, he]
        gen := fun ⟨hg, he⟩ => by
          simp only [genBlock_ce, hg]
          split
          · exact .raised ⟨rfl, he⟩
          · exact .done (by simp [agreesOn, he])
        skip := fun _ ⟨hg, he⟩ _ => by
          simp only [skipBlocks, skipBlocksCe, hg]
          split
          · exact .raised (by simp [agreesOn, hg, he])
          · exact .done (by simp [agreesOn, he])
        jump := fun _ h => nomatch h }

/-- Writing the counter as a function of the counter keeps agreement on the LPE side. -/
theorem agreesOn_lpe_counted {s u : State} (f : Limbs → Limbs) (h : agreesOn .lpe s u) :
    agreesOn .lpe { s with ctr := f s.ctr } { u with ctr := f u.ctr } := by
  obtain ⟨hc, hl, he⟩ := h
  exact ⟨congrArg f hc, hl, he⟩

/-- So does seeding the LPE with a given counter. -/
theorem agreesOn_lpe_seedLpe {s u : State} (S : Limbs) (h : agreesOn .lpe s u) :
    agreesOn .lpe (seedLpe s S) (seedLpe u S) := by
  obtain ⟨-, hl, he⟩ := h
  exact ⟨rfl, by simp only [seedLpe_lpe, hl], he⟩

/-- Completing with one payload answers alike. -/
theorem completes_alike {e : Engine} {s u : State} (p : List Word) (h : agreesOn e s u) :
    OutcomesAlike (fun t v => t.response = v.response ∧ agreesOn e t v) (.next (complete s p))
      (.next (complete u p)) := .next ⟨rfl, agreesOn_response _ h⟩

theorem exec_lpeSeedEnt_alike {s u : State} (h : agreesOn .lpe s u) :
    OutcomesAlike (fun t v => t.response = v.response ∧ agreesOn .lpe t v) (exec .lpeSeedEnt s)
      (exec .lpeSeedEnt u) := by
  obtain ⟨hc, hl, he⟩ := h
  match hdraw : u.entropy128 with
  | [] =>
    rw [exec_lpeSeedEnt_unanswered s (he.trans hdraw), exec_lpeSeedEnt_unanswered u hdraw]
    exact .next ⟨rfl, hc, hl, he⟩
  | none :: rest =>
    rw [exec_lpeSeedEnt_failed s rest (he.trans hdraw), exec_lpeSeedEnt_failed u rest hdraw]
    exact .next ⟨rfl, hc, hl, rfl⟩
  | some b :: rest =>
    rw [exec_lpeSeedEnt_drawn s b rest (he.trans hdraw), exec_lpeSeedEnt_drawn u b rest hdraw]
    exact completes_alike [] (agreesOn_lpe_seedLpe _ ⟨hc, hl, rfl⟩)

theorem exec_ceSeedEnt_alike {s u : State} (h : agreesOn .ce s u) :
    OutcomesAlike (fun t v => t.response = v.response ∧ agreesOn .ce t v) (exec .ceSeedEnt s)
      (exec .ceSeedEnt u) := by
  obtain ⟨hg, he⟩ := h
  match hdraw : u.entropy64 with
  | [] =>
    rw [exec_ceSeedEnt_unanswered s (he.trans hdraw), exec_ceSeedEnt_unanswered u hdraw]
    exact .next ⟨rfl, hg, he⟩
  | none :: rest =>
    rw [exec_ceSeedEnt_failed s rest (he.trans hdraw), exec_ceSeedEnt_failed u rest hdraw]
    exact .next ⟨rfl, hg, rfl⟩
  | some b :: rest =>
    rw [exec_ceSeedEnt_drawn s b rest (he.trans hdraw), exec_ceSeedEnt_drawn u b rest hdraw]
    exact completes_alike [] ⟨rfl, rfl⟩

/-- A command that is not of the CE side is STATUS, is of neither side, or is of the LPE side: what it
does on that side does not depend on CE. -/
theorem exec_agreesOn_lpe {i : Instr} {s u : State} (hs : i ≠ .status) (hi : isCeSide i = false)
    (h : agreesOn .lpe s u) :
    OutcomesAlike (fun t v => t.response = v.response ∧ agreesOn .lpe t v) (exec i s) (exec i u) := by
  have engine (j : Instr) (hj : isEngineCommand .lpe j = true) :=
    exec_engineCommand_alike (agreesOn_keptByHooks _ _) hj (notReady_of_agreesOn h) agreesOn_response h
  have ⟨hc, hl, he⟩ := h
  cases i
  case status => exact absurd rfl hs
  case next e | bulk e _ | discard e _ | jump e | ljump e | unbiased e _ _ =>
    cases e with
    | lpe => exact engine _ rfl
    | ce => cases hi
  case lpeSeedEnt => exact exec_lpeSeedEnt_alike h
  case mix | chacha => exact completes_alike _ h
  case ctrEq | ctrRead =>
    simp only [exec, execCtrEq, execCtrRead, hc]
    exact completes_alike _ h
  case ctrAdv1 => exact completes_alike _ (agreesOn_lpe_counted (advanceByOne Config.cfg) h)
  case ctrAdvn n => exact completes_alike _ (agreesOn_lpe_counted (advanceByScalar Config.cfg n) h)
  case ctrJump stp => exact completes_alike _ (agreesOn_lpe_counted (bigJump Config.cfg stp) h)
  case ctrLoad | lpeSeedU64 | lpeSeedSeq => exact completes_alike _ (agreesOn_lpe_seedLpe _ h)
  all_goals cases hi

/-- A restore checks and loads its operand only (R244). -/
theorem restoreCommand_agreesOn {s u : State} (c : Cfg) (len : Word) (record : Vector Word 9)
    (h : agreesOn .ce s u) :
    (restoreCommand c len (recordBytes record) s).response =
        (restoreCommand c len (recordBytes record) u).response ∧
      agreesOn .ce (restoreCommand c len (recordBytes record) s)
        (restoreCommand c len (recordBytes record) u) := by
  have hlen : 57 < (recordBytes record).length := by rw [length_recordBytes]; omega
  simp only [restoreCommand, restoreRecord_eq hlen]
  cases c.serEn with
  | false => exact ⟨rfl, agreesOn_response _ h⟩
  | true =>
    cases recordFault c len (recordBytes record) with
    | some f => exact ⟨rfl, agreesOn_response _ h⟩
    | none => exact ⟨rfl, rfl, h.2⟩

/-- A command that is not of the LPE side does on the CE side what does not depend on the counter and the
LPE. -/
theorem exec_agreesOn_ce {i : Instr} {s u : State} (hs : i ≠ .status) (hi : isLpeSide i = false)
    (h : agreesOn .ce s u) :
    OutcomesAlike (fun t v => t.response = v.response ∧ agreesOn .ce t v) (exec i s) (exec i u) := by
  have engine (j : Instr) (hj : isEngineCommand .ce j = true) :=
    exec_engineCommand_alike (agreesOn_keptByHooks _ _) hj (notReady_of_agreesOn h) agreesOn_response h
  have ⟨hg, he⟩ := h
  cases i
  case status => exact absurd rfl hs
  case next e | bulk e _ | discard e _ | jump e | ljump e | unbiased e _ _ =>
    cases e with
    | ce => exact engine _ rfl
    | lpe => cases hi
  case ceSeedEnt => exact exec_ceSeedEnt_alike h
  case ceSave =>
    rw [exec_ceSave, exec_ceSave, saveCommand_eq, saveCommand_eq]
    exact .next ⟨by simp only [hg], hg, he⟩
  case ceRestore len record =>
    rw [exec_ceRestore, exec_ceRestore]
    exact .next (restoreCommand_agreesOn _ _ _ h)
  case mix | chacha => exact completes_alike _ h
  case ceKey | ceSeed64 | ceSeed32 | ceZeroize => exact completes_alike _ ⟨rfl, he⟩
  all_goals cases hi

/-! Output equivalence (R38). -/

/-- What is pending at a cursor is pending at every later one. -/
theorem pendingWordsEq_mono {cur v : Fin 9} {a b : Block} (h : pendingWordsEq cur a b) (hv : cur ≤ v) :
    pendingWordsEq v a b := fun k hk => h k (le_trans hv hk)

/-- Nothing is pending in an empty buffer. -/
theorem pendingWordsEq_empty (a b : Block) : pendingWordsEq 8 a b :=
  fun k hk => absurd hk (Nat.not_le.mpr k.isLt)

/-- The response is no part of an engine. -/
theorem outputEquivalent_response {e : Engine} {s u : State} (x : Option Response)
    (h : outputEquivalent e s u) :
    outputEquivalent e { s with response := x } { u with response := x } := by cases e <;> exact h

theorem notReady_of_outputEquivalent {e : Engine} {s u : State} (h : outputEquivalent e s u) :
    notReady e s = notReady e u := by
  cases e with
  | lpe => simp only [notReady, h.2]
  | ce => simp only [notReady, h.2.1, h.2.2]

/-- A draw reads the words at and above the cursor only, and a block step reads no word of the buffer. -/
theorem outputEquivalent_keptByHooks (c : Cfg) (e : Engine) :
    KeptByHooks c e (outputEquivalent e) (outputEquivalent e) fun _ => outputEquivalent e := by
  cases e with
  | lpe =>
    exact
      { weaken := id
        cur := fun ⟨⟨_, hcur, _⟩, _⟩ => hcur
        word := fun {s u} ⟨⟨_, hcur, hp⟩, _⟩ hlt _ => by
          simp only [curOf, bufOf, ← hcur]
          exact hp ⟨_, hlt⟩ le_rfl
        advance := fun _ ⟨⟨hc, _, hp⟩, hs⟩ hv => ⟨⟨hc, rfl, pendingWordsEq_mono hp hv⟩, hs⟩
        empty := fun ⟨⟨hc, _, _⟩, hs⟩ => ⟨⟨hc, rfl, pendingWordsEq_empty _ _⟩, hs⟩
        gen := fun ⟨⟨hc, hcur, hp⟩, hs⟩ => by
          simp only [genBlock_lpe, (ctrEq_iff _ _).mp hc]
          exact .done ⟨⟨⟨(ctrEq_iff _ _).mpr rfl, hcur, hp⟩, hs⟩, fun _ =>
            ⟨⟨(ctrEq_iff _ _).mpr rfl, rfl, fun _ _ => rfl⟩, hs⟩⟩
        skip := fun m ⟨⟨hc, hcur, hp⟩, hs⟩ _ => by
          simp only [skipBlocks, (ctrEq_iff _ _).mp hc]
          exact .done ⟨⟨(ctrEq_iff _ _).mpr rfl, hcur, hp⟩, hs⟩
        jump := fun stp _ ⟨⟨hc, hcur, hp⟩, hs⟩ => by
          rw [(ctrEq_iff _ _).mp hc]
          exact ⟨⟨(ctrEq_iff _ _).mpr rfl, hcur, hp⟩, hs⟩ }
  | ce =>
    exact
      { weaken := id
        cur := fun ⟨⟨_, _, _, hcur, _⟩, _⟩ => hcur
        word := fun {s u} ⟨⟨_, _, _, hcur, hp⟩, _⟩ hlt _ => by
          simp only [curOf, bufOf, ← hcur]
          exact hp ⟨_, hlt⟩ le_rfl
        advance := fun _ ⟨⟨hk, hn, hc, _, hp⟩, hs⟩ hv =>
          ⟨⟨hk, hn, hc, rfl, pendingWordsEq_mono hp hv⟩, hs⟩
        empty := fun ⟨⟨hk, hn, hc, _, _⟩, hs⟩ =>
          ⟨⟨hk, hn, hc, rfl, pendingWordsEq_empty _ _⟩, hs⟩
        gen := fun ⟨⟨hk, hn, hc, hcur, hp⟩, hs⟩ => by
          simp only [genBlock_ce, hk, hn, hc]
          split
          · exact .raised ⟨⟨hk, hn, rfl, rfl, fun _ _ => rfl⟩, hs.1, rfl⟩
          · exact .done ⟨⟨⟨rfl, rfl, rfl, hcur, hp⟩, hs⟩, fun _ =>
              ⟨⟨rfl, rfl, rfl, rfl, fun _ _ => rfl⟩, hs⟩⟩
        skip := fun m ⟨⟨hk, hn, hc, hcur, hp⟩, hs⟩ _ => by
          simp only [skipBlocks, skipBlocksCe, hc]
          split
          · exact .raised ⟨⟨hk, hn, rfl, rfl, fun _ _ => rfl⟩, hs.1, rfl⟩
          · exact .done ⟨⟨hk, hn, rfl, hcur, hp⟩, hs⟩
        jump := fun _ h => nomatch h }

/-- Settles O52: each side's hooks read and write that side only, and so does every other command. -/
theorem enginesDoNotInterfere : Obligations.EnginesDoNotInterfere := by
  unfold Obligations.EnginesDoNotInterfere
  intro i s u hs
  refine ⟨fun hi hc hl he => ?_, fun hi hg he => ?_⟩
  · have h := exec_agreesOn_lpe hs hi ⟨hc, hl, he⟩
    generalize exec i s = o, exec i u = o' at h ⊢
    cases h with
    | next h =>
      obtain ⟨hr, hc', hl', he'⟩ := h
      exact ⟨hc', hl', he', hr⟩
    | fault f => rfl
    | refused f => rfl
  · have h := exec_agreesOn_ce hs hi ⟨hg, he⟩
    generalize exec i s = o, exec i u = o' at h ⊢
    cases h with
    | next h =>
      obtain ⟨hr, hg', he'⟩ := h
      exact ⟨hg', he', hr⟩
    | fault f => rfl
    | refused f => rfl

/-- Settles O53: output equivalence is kept by the hooks, so by every command of the engine. -/
theorem equivalentEnginesAnswerAlike : Obligations.EquivalentEnginesAnswerAlike := by
  unfold Obligations.EquivalentEnginesAnswerAlike
  intro e i s u hi h
  have ha := exec_engineCommand_alike (outputEquivalent_keptByHooks _ e) hi
    (notReady_of_outputEquivalent h) outputEquivalent_response h
  generalize exec i s = o, exec i u = o' at ha ⊢
  cases ha with
  | next h' => exact h'
  | fault f => rfl
  | refused f => rfl

end Sys2Proof.BlockProofs
end

