-- ==== Sys2Proof/Proofs/CommandEffects.lean ====
section
/-! PROOFS. What a command leaves of each engine group, said once for every command; the claims about
SEEDED, EXH, the block counter and the invariant are read off it (R30, R31, R29, R223 to R225). -/

-- Elaborated one after another, as in the tests: each proof elaborated at once takes a thread and its stack.
set_option Elab.async false

namespace Sys2Proof.BlockProofs

open Sys2Proof.Machine Sys2Proof.EngineProofs Sys2Proof.FaultProofs

/-! The law of CE's buffer (R224). -/

/-- The law asks nothing of an empty buffer. -/
theorem ceBufferLaw_empty (g : CeGroup) (h : g.cur = 8) : ceBufferLaw g :=
  fun _ hlt => absurd (h ▸ hlt) (lt_irrefl _)

/-- The law asks less of a later cursor. -/
theorem ceBufferLaw_advance {g : CeGroup} {v : Fin 9} (h : ceBufferLaw g) (hv : g.cur ≤ v) :
    ceBufferLaw { g with cur := v } := fun hx hlt => h hx (lt_of_le_of_lt hv hlt)

/-- The block a CE step renders is the one before the counter it leaves, which is at least 1 (R224). -/
theorem ceBufferLaw_filled (g : CeGroup) (v : Fin 9) (h : g.ctr + 1 ≠ 0) :
    ceBufferLaw { g with ctr := g.ctr + 1, buf := keystreamBlock g.key g.nonce g.ctr, cur := v } :=
  fun _ _ => ⟨h, by simp⟩

/-- A counter that does not wrap grows. -/
theorem toNat_add_one_of_ne_zero {w : Word} (h : w + 1 ≠ 0) : (w + 1).toNat = w.toNat + 1 := by
  bv_omega

/-! One run of an engine command. -/

/-- What block steps keep and how they move the counter of CE. -/
def counterMovesOn (e : Engine) (s t : State) : Prop :=
  keepsOutside e s t ∧ s.ce.ctr.toNat ≤ t.ce.ctr.toNat

/-- What a completed engine command does: the counter of CE moves on, and its buffer is again of the block
before the counter (R224). -/
def movesOn (e : Engine) (s t : State) : Prop :=
  counterMovesOn e s t ∧ (ceBufferLaw s.ce → ceBufferLaw t.ce)

theorem counterMovesOn_refl (e : Engine) (s : State) : counterMovesOn e s s :=
  ⟨keepsOutside_refl e s, le_rfl⟩

theorem counterMovesOn_trans {e : Engine} {s t u : State} (h : counterMovesOn e s t)
    (h' : counterMovesOn e t u) : counterMovesOn e s u :=
  ⟨keepsOutside_trans h.1 h'.1, h.2.trans h'.2⟩

theorem movesOn_refl (e : Engine) (s : State) : movesOn e s s := ⟨counterMovesOn_refl e s, id⟩

/-- Writing the selected engine's buffer and cursor moves no counter. -/
theorem counterMovesOn_setCur (e : Engine) (s : State) (v : Fin 9) :
    counterMovesOn e s (setCur e s v) :=
  ⟨keepsOutside_setCur e s v, by cases e <;> exact le_rfl⟩

theorem counterMovesOn_fill {e : Engine} {s t : State} (h : counterMovesOn e s t) (b : Block)
    (v : Fin 9) : counterMovesOn e s (setCur e (setBuf e t b) v) := by
  have hb : counterMovesOn e t (setBuf e t b) :=
    ⟨keepsOutside_setBuf e t b, by cases e <;> exact le_rfl⟩
  exact counterMovesOn_trans h (counterMovesOn_trans hb (counterMovesOn_setCur e _ v))

/-- The counter is the LPE's own. -/
theorem counterMovesOn_ctr {s t : State} (h : counterMovesOn .lpe s t) (S : Limbs) :
    counterMovesOn .lpe s { t with ctr := S } := h

/-- An LPE command leaves CE, so its law. -/
theorem movesOn_lpe {s t : State} (h : counterMovesOn .lpe s t) : movesOn .lpe s t := by
  obtain ⟨⟨hi, h1, h2, hr, hl, hce⟩, hc⟩ := h
  exact ⟨⟨⟨hi, h1, h2, hr, hl, hce⟩, hc⟩, fun hlaw => hce ▸ hlaw⟩

/-- From a fixed state on, an engine's hooks move the counter on, keep the rest, and fault by exhaustion
only. -/
theorem movesOn_keptByHooks (c : Cfg) (e : Engine) (s₀ : State) :
    KeptByHooks c e (fun t u => t = u ∧ movesOn e s₀ t) (fun t u => t = u ∧ counterMovesOn e s₀ t)
      fun f t u => t = u ∧ exhaustsFrom e s₀ f t where
  weaken h := ⟨h.1, h.2.1⟩
  cur h := by rw [h.1]
  word h _ _ := by simp only [h.1]
  advance {t _} v := by
    rintro ⟨rfl, hc, hlaw⟩ hv
    refine ⟨rfl, counterMovesOn_trans hc (counterMovesOn_setCur e t v), fun h => ?_⟩
    cases e with
    | lpe => exact hlaw h
    | ce => exact ceBufferLaw_advance (hlaw h) hv
  empty {t _} := by
    rintro ⟨rfl, hc⟩
    have hm := counterMovesOn_trans hc (counterMovesOn_setCur e t 8)
    cases e with
    | lpe => exact ⟨rfl, movesOn_lpe hm⟩
    | ce => exact ⟨rfl, hm, fun _ => ceBufferLaw_empty _ rfl⟩
  gen {t _} := by
    rintro ⟨rfl, hc⟩
    cases e with
    | lpe =>
      rw [genBlock_lpe]
      have hm := counterMovesOn_ctr hc (advanceByOne c t.ctr)
      exact .done ⟨⟨rfl, hm⟩, fun v => ⟨rfl, movesOn_lpe (counterMovesOn_fill hm _ v)⟩⟩
    | ce =>
      rw [genBlock_ce]
      split
      · exact .raised ⟨rfl, exhaustsFrom_of_keeps hc.1 ⟨rfl, rfl, rfl⟩⟩
      · next hne =>
        have hle : t.ce.ctr.toNat ≤ (t.ce.ctr + 1).toNat := by
          rw [toNat_add_one_of_ne_zero hne]
          exact Nat.le_succ _
        have hm : counterMovesOn .ce s₀ { t with ce := { t.ce with ctr := t.ce.ctr + 1 } } :=
          ⟨hc.1, hc.2.trans hle⟩
        refine .done ⟨⟨rfl, hm⟩, fun v => ⟨rfl, counterMovesOn_fill hm _ v, fun _ => ?_⟩⟩
        simp only [setCur_ce_ce, setBuf_ce_ce]
        exact ceBufferLaw_filled t.ce v hne
  skip {t _} m := by
    rintro ⟨rfl, hc, hlaw⟩ h8
    cases e with
    | lpe =>
      exact .done ⟨rfl, movesOn_lpe (counterMovesOn_ctr hc _)⟩
    | ce =>
      simp only [skipBlocks, skipBlocksCe]
      split
      · exact .raised ⟨rfl, exhaustsFrom_of_keeps hc.1 ⟨rfl, rfl, rfl⟩⟩
      · next hlt =>
        have hle : t.ce.ctr.toNat ≤ (t.ce.ctr + BitVec.ofNat 64 m).toNat := by
          rw [BitVec.toNat_add, BitVec.toNat_ofNat, Nat.add_mod_mod, Nat.mod_eq_of_lt (by omega)]
          exact Nat.le_add_right _ _
        exact .done ⟨rfl, ⟨hc.1, hc.2.trans hle⟩, fun _ => ceBufferLaw_empty _ h8⟩
  jump {t _} stp := by
    rintro rfl ⟨rfl, hc, -⟩
    exact ⟨rfl, counterMovesOn_ctr hc _⟩

/-- What an engine command that answers has done: it faulted unready, completed after moving on, or
exhausted CE. -/
theorem exec_engineCommand_cases {e : Engine} {i : Instr} {s t : State}
    (hi : isEngineCommand e i = true) (h : exec i s = .next t) :
    (∃ f, notReady e s = some f ∧ t = raiseFault s f) ∨
    notReady e s = none ∧ (∃ p u, movesOn e s u ∧ t = complete u p) ∨
    notReady e s = none ∧ e = .ce ∧
      t = raiseFault { s with ce := exhaustCe s.ce } .keystreamExhausted := by
  cases hf : notReady e s with
  | some f =>
    rw [exec_of_notReady e i s f hi hf] at h
    cases h
    exact .inl ⟨f, rfl, rfl⟩
  | none =>
    rw [exec_engineCommand_ready hi hf] at h
    have hb := (movesOn_keptByHooks Config.cfg e s).engineBody_alike i ⟨rfl, movesOn_refl e s⟩
    cases hr : engineBody Config.cfg e i s with
    | none => rw [hr] at h; cases h
    | some r =>
      rw [hr] at h hb
      cases h
      cases hb with
      | some hb =>
        cases hb with
        | done h' => exact .inr (.inl ⟨rfl, _, _, h'.2, rfl⟩)
        | raised h' =>
          obtain ⟨-, rfl, rfl, rfl⟩ := h'
          exact .inr (.inr ⟨rfl, rfl, rfl⟩)

/-! What a command can do. -/

/-- A CE group as seeding leaves it: seeded, not exhausted, the buffer as R224 has it. -/
def ceFresh (g : CeGroup) : Prop := g.seeded = true ∧ g.exh = false ∧ ceBufferLaw g

/-- The load of R227 leaves a fresh CE. -/
theorem ceFresh_ceLoad (key : Vector Word32 8) (nonce : Vector Word32 2) (c : Word) (s : State) :
    ceFresh (ceLoad key nonce c s).ce := ⟨rfl, rfl, ceBufferLaw_empty _ rfl⟩

/-- No failed check is called success. -/
theorem recordFault_ne_ok {c : Cfg} {len : Word} {record : List Byte} :
    recordFault c len record ≠ some .ok := by
  simp only [recordFault]
  split_ifs <;> simp

/-- A record that passes the checks has a cursor of at most 8, and words pending only after a block. -/
theorem record_sound_of_recordFault {c : Cfg} {len : Word} {bs : List Byte} (hlen : 57 < bs.length)
    (h : recordFault c len bs = none) :
    (byteOf bs 57).toNat ≤ 8 ∧ ((byteOf bs 57).toNat < 8 → recRead bs 49 8 ≠ 0) := by
  rw [recordFault_eq c len hlen] at h
  split_ifs at h with _ _ _ hcur hrewind
  exact ⟨Nat.le_of_not_lt hcur, fun hlt h0 => hrewind ⟨hlt, h0⟩⟩

/-- A sound record stands for a fresh CE: its pending words are regenerated from the counter before its
own (R244). -/
theorem ceFresh_recordGroup {c : Cfg} {len : Word} {bs : List Byte} (hlen : 57 < bs.length)
    (h : recordFault c len bs = none) : ceFresh (recordGroup bs) := by
  obtain ⟨hcur, hctr⟩ := record_sound_of_recordFault hlen h
  refine ⟨rfl, rfl, fun _ hlt => ?_⟩
  have hval : (recordGroup bs).cur.val = (byteOf bs 57).toNat :=
    Nat.mod_eq_of_lt (Nat.lt_succ_of_le hcur)
  have hpending : (byteOf bs 57).toNat < 8 := by rwa [← hval]
  exact ⟨hctr hpending, if_pos hpending⟩

/-- The commands of R170 and R204 seed no CE, and those of R170 seed no LPE either. -/
theorem isSeeding_of_isEngineCommand {e : Engine} {i : Instr} (h : isEngineCommand e i = true) :
    isCeSeeding i = false ∧ isLpeSeeding i = false := by
  cases i
  case next | bulk | discard | jump | ljump | unbiased => exact ⟨rfl, rfl⟩
  all_goals cases h

/-- The next states a command can answer with: an answer alone, a failed draw, a counter written, an
engine seeded or zeroized, or an engine command done or ended by exhaustion. -/
inductive Effect (i : Instr) (s : State) : State → Prop where
  | answered (x : Option Response)
      (hfail : isCeSeeding i = true ∨ isLpeSeeding i = true → ∀ p, x ≠ some ⟨.ok, p⟩) :
      Effect i s { s with response := x }
  | drawFailed128 (hi : i = .lpeSeedEnt) (a : List (Option (Vector Byte 128))) :
      Effect i s (raiseFault { s with entropy128 := a } .entropyFailure)
  | drawFailed64 (hi : i = .ceSeedEnt) (a : List (Option (Vector Byte 64))) :
      Effect i s (raiseFault { s with entropy64 := a } .entropyFailure)
  | counted (hside : isLpeSide i = true ∧ isCeSide i = false)
      (hseed : isCeSeeding i = false ∧ isLpeSeeding i = false) (S : Limbs) :
      Effect i s (complete { s with ctr := S } [])
  | lpeSeeded (hi : isLpeSeeding i = true) (S : Limbs) (a : List (Option (Vector Byte 128))) :
      Effect i s (complete (seedLpe { s with entropy128 := a } S) [])
  | ceSeeded (hi : isCeSeeding i = true) (g : CeGroup) (hg : ceFresh g)
      (a : List (Option (Vector Byte 64))) :
      Effect i s (complete { s with ce := g, entropy64 := a } [])
  | zeroized (hi : i = .ceZeroize) : Effect i s (complete (ceClear s) [])
  | moved {e : Engine} (hi : isEngineCommand e i = true) (hr : notReady e s = none) (p : List Word)
      (u : State) (hm : movesOn e s u) : Effect i s (complete u p)
  | exhausted (hi : isEngineCommand .ce i = true) (hr : notReady .ce s = none) :
      Effect i s (raiseFault { s with ce := exhaustCe s.ce } .keystreamExhausted)

theorem effect_of_engineCommand {e : Engine} {i : Instr} {s t : State}
    (hi : isEngineCommand e i = true) (h : exec i s = .next t) : Effect i s t := by
  obtain ⟨hc, hl⟩ := isSeeding_of_isEngineCommand hi
  obtain ⟨f, -, rfl⟩ | ⟨hr, p, u, hm, rfl⟩ | ⟨hr, rfl, rfl⟩ := exec_engineCommand_cases hi h
  · exact .answered _ fun hs => by simp [hc, hl] at hs
  · exact .moved hi hr p u hm
  · exact .exhausted hi hr

theorem effect_of_restoreCommand (c : Cfg) (len : Word) (record : Vector Word 9) (s : State) :
    Effect (.ceRestore len record) s (restoreCommand c len (recordBytes record) s) := by
  have hlen : 57 < (recordBytes record).length := by rw [length_recordBytes]; omega
  rw [restoreCommand]
  split
  · cases hf : recordFault c len (recordBytes record) with
    | some f =>
      refine .answered _ fun _ p hr => recordFault_ne_ok (hf.trans ?_)
      exact congrArg (Option.map Response.status) hr
    | none =>
      rw [restoreRecord_eq hlen]
      exact .ceSeeded rfl _ (ceFresh_recordGroup hlen hf) s.entropy64
  · exact .answered _ fun _ p hr => by simp at hr

theorem effect_of_lpeSeedEnt {s t : State} (h : exec .lpeSeedEnt s = .next t) :
    Effect .lpeSeedEnt s t := by
  obtain hdraw | ⟨rest, hdraw⟩ | ⟨b, rest, hdraw⟩ := exec_lpeSeedEnt_cases s <;> rw [hdraw] at h <;>
    cases h
  · exact .answered _ fun _ _ hr => nomatch hr
  · exact .drawFailed128 rfl _
  · exact .lpeSeeded rfl _ _

theorem effect_of_ceSeedEnt {s t : State} (h : exec .ceSeedEnt s = .next t) :
    Effect .ceSeedEnt s t := by
  obtain hdraw | ⟨rest, hdraw⟩ | ⟨b, rest, hdraw⟩ := exec_ceSeedEnt_cases s <;> rw [hdraw] at h <;>
    cases h
  · exact .answered _ fun _ _ hr => nomatch hr
  · exact .drawFailed64 rfl _
  · exact .ceSeeded rfl _ (ceFresh_ceLoad _ _ _ s) _

/-- Every command's next state is one of these. -/
theorem exec_effect {i : Instr} {s t : State} (h : exec i s = .next t) : Effect i s t := by
  cases i
  case next e | bulk e _ | discard e _ | jump e | ljump e | unbiased e _ _ =>
    exact effect_of_engineCommand (e := e) (by simp [isEngineCommand]) h
  case lpeSeedEnt => exact effect_of_lpeSeedEnt h
  case ceSeedEnt => exact effect_of_ceSeedEnt h
  case ceSave =>
    rw [exec_ceSave, saveCommand_eq] at h
    cases h
    exact .answered _ fun hs => by simp [isCeSeeding, isLpeSeeding] at hs
  all_goals obtain rfl := Host.Outcome.next.inj h
  case ctrAdv1 | ctrAdvn | ctrJump => exact .counted ⟨rfl, rfl⟩ ⟨rfl, rfl⟩ _
  case ctrLoad | lpeSeedU64 | lpeSeedSeq => exact .lpeSeeded rfl _ s.entropy128
  case ceKey | ceSeed64 | ceSeed32 => exact .ceSeeded rfl _ (ceFresh_ceLoad _ _ _ s) s.entropy64
  case ceRestore len record => exact effect_of_restoreCommand Config.cfg len record s
  case ceZeroize => exact .zeroized rfl
  case status | mix | ctrEq | ctrRead | chacha =>
    exact .answered _ fun hs => by simp [isCeSeeding, isLpeSeeding] at hs

/-! What a command leaves of each side. -/

/-- A CE group moved on by a completed engine command. -/
def ceMovedOn (g h : CeGroup) : Prop :=
  h.key = g.key ∧ h.nonce = g.nonce ∧ h.seeded = g.seeded ∧ h.exh = g.exh ∧
    g.ctr.toNat ≤ h.ctr.toNat ∧ (ceBufferLaw g → ceBufferLaw h)

/-- What a command can do to the CE group. -/
inductive CeChange (i : Instr) (s t : State) : Prop where
  | kept (hce : t.ce = s.ce) (hfail : isCeSeeding i = true → ∀ p, t.response ≠ some ⟨.ok, p⟩)
  | seeded (hi : isCeSeeding i = true) (hce : ceFresh t.ce)
  | zeroized (hi : i = .ceZeroize) (hce : t.ce = CeGroup.cleared)
  | moved (hi : isEngineCommand .ce i = true) (hs : s.ce.seeded = true) (hx : s.ce.exh = false)
      (hce : ceMovedOn s.ce t.ce)
  | exhausted (hi : isEngineCommand .ce i = true) (hs : s.ce.seeded = true)
      (hce : t.ce = exhaustCe s.ce) (hr : t.response = some ⟨.keystreamExhausted, []⟩)

/-- What a command can do to the LPE group. -/
inductive LpeChange (i : Instr) (s t : State) : Prop where
  | kept (hl : t.lpe = s.lpe) (hfail : isLpeSeeding i = true → ∀ p, t.response ≠ some ⟨.ok, p⟩)
  | seeded (hi : isLpeSeeding i = true) (hl : t.lpe.seeded = true)
  | moved (hs : s.lpe.seeded = true) (hl : t.lpe.seeded = true)

theorem not_isCeSeeding_of_isLpeSeeding {i : Instr} (h : isLpeSeeding i = true) :
    isCeSeeding i = false := by
  cases i
  case ctrLoad | lpeSeedEnt | lpeSeedU64 | lpeSeedSeq => rfl
  all_goals cases h

theorem exec_ceChange {i : Instr} {s t : State} (h : exec i s = .next t) : CeChange i s t := by
  have quiet {t : State} (hce : t.ce = s.ce) (hi : isCeSeeding i = false) : CeChange i s t :=
    .kept hce fun hs => by simp [hi] at hs
  cases exec_effect h with
  | answered x hfail => exact .kept rfl fun hs => hfail (.inl hs)
  | drawFailed128 hi a => exact quiet rfl (by rw [hi]; rfl)
  | drawFailed64 hi a => exact .kept rfl fun _ _ hr => by simp at hr
  | counted _ hseed S => exact quiet rfl hseed.1
  | lpeSeeded hi S a => exact quiet rfl (not_isCeSeeding_of_isLpeSeeding hi)
  | ceSeeded hi g hg a => exact .seeded hi hg
  | zeroized hi => exact .zeroized hi rfl
  | @moved e hi hr p u hm =>
    obtain ⟨⟨⟨-, -, -, -, -, hown⟩, hc⟩, hlaw⟩ := hm
    cases e with
    | lpe => exact quiet hown (isSeeding_of_isEngineCommand hi).1
    | ce =>
      obtain ⟨-, -, hkey, hnonce, hs, hx⟩ := hown
      obtain ⟨hs', hx'⟩ := (notReady_ce_eq_none s).mp hr
      exact .moved hi hs' hx' ⟨hkey, hnonce, hs, hx, hc, hlaw⟩
  | exhausted hi hr => exact .exhausted hi ((notReady_ce_eq_none s).mp hr).1 rfl rfl

theorem exec_lpeChange {i : Instr} {s t : State} (h : exec i s = .next t) : LpeChange i s t := by
  have quiet {t : State} (hl : t.lpe = s.lpe) (hi : isLpeSeeding i = false) : LpeChange i s t :=
    .kept hl fun hs => by simp [hi] at hs
  have quietCe {t : State} (hl : t.lpe = s.lpe) (hi : isCeSeeding i = true) : LpeChange i s t :=
    quiet hl <| Bool.eq_false_iff.mpr fun hs => by simp [not_isCeSeeding_of_isLpeSeeding hs] at hi
  cases exec_effect h with
  | answered x hfail => exact .kept rfl fun hs => hfail (.inr hs)
  | drawFailed128 hi a => exact .kept rfl fun _ _ hr => by simp at hr
  | drawFailed64 hi a => exact quiet rfl (by rw [hi]; rfl)
  | counted _ hseed S => exact quiet rfl hseed.2
  | lpeSeeded hi S a => exact .seeded hi rfl
  | ceSeeded hi g hg a => exact quietCe rfl hi
  | zeroized hi => exact quiet rfl (by rw [hi]; rfl)
  | @moved e hi hr p u hm =>
    obtain ⟨⟨⟨-, -, -, -, hs, hown⟩, -⟩, -⟩ := hm
    cases e with
    | lpe =>
      have hs' : s.lpe.seeded = true := by simpa [notReady_lpe] using hr
      exact .moved hs' (hs.trans hs')
    | ce => exact quiet hown.2.1 (isSeeding_of_isEngineCommand hi).2
  | exhausted hi hr => exact quiet rfl (isSeeding_of_isEngineCommand hi).2

/-- The seeding commands and engine commands of an engine are of its side only. -/
theorem side_of_isLpeSeeding {i : Instr} (h : isLpeSeeding i = true) :
    isLpeSide i = true ∧ isCeSide i = false := by
  cases i
  case ctrLoad | lpeSeedEnt | lpeSeedU64 | lpeSeedSeq => exact ⟨rfl, rfl⟩
  all_goals cases h

theorem side_of_isCeSeeding {i : Instr} (h : isCeSeeding i = true) :
    isLpeSide i = false ∧ isCeSide i = true := by
  cases i
  case ceKey | ceSeed64 | ceSeed32 | ceSeedEnt | ceRestore => exact ⟨rfl, rfl⟩
  all_goals cases h

theorem side_of_isEngineCommand {e : Engine} {i : Instr} (h : isEngineCommand e i = true) :
    isLpeSide i = (e == .lpe) ∧ isCeSide i = (e == .ce) := by
  cases i
  case next f | bulk f _ | discard f _ | jump f | ljump f | unbiased f _ _ =>
    obtain rfl : f = e := by simpa [isEngineCommand] using h
    exact ⟨rfl, rfl⟩
  all_goals cases h

/-- A command writes no command stream, and nothing on a side it is not of. -/
def writesOwnSide (i : Instr) (s t : State) : Prop :=
  t.input = s.input ∧ (isLpeSide i = false → agreesOn .lpe t s) ∧
    (isCeSide i = false → agreesOn .ce t s)

theorem writesOwnSide_of_lpeSide {i : Instr} {s t : State}
    (hi : isLpeSide i = true ∧ isCeSide i = false) (hin : t.input = s.input)
    (hc : agreesOn .ce t s) : writesOwnSide i s t :=
  ⟨hin, fun h0 => by simp [hi.1] at h0, fun _ => hc⟩

theorem writesOwnSide_of_ceSide {i : Instr} {s t : State}
    (hi : isLpeSide i = false ∧ isCeSide i = true) (hin : t.input = s.input)
    (hl : agreesOn .lpe t s) : writesOwnSide i s t :=
  ⟨hin, fun _ => hl, fun h0 => by simp [hi.2] at h0⟩

theorem exec_writesOwnSide {i : Instr} {s t : State} (h : exec i s = .next t) :
    writesOwnSide i s t := by
  cases exec_effect h with
  | answered x hfail => exact ⟨rfl, fun _ => ⟨rfl, rfl, rfl⟩, fun _ => ⟨rfl, rfl⟩⟩
  | drawFailed128 hi a => exact writesOwnSide_of_lpeSide (by rw [hi]; exact ⟨rfl, rfl⟩) rfl ⟨rfl, rfl⟩
  | drawFailed64 hi a => exact writesOwnSide_of_ceSide (by rw [hi]; exact ⟨rfl, rfl⟩) rfl ⟨rfl, rfl, rfl⟩
  | counted hside _ S => exact writesOwnSide_of_lpeSide hside rfl ⟨rfl, rfl⟩
  | lpeSeeded hi S a => exact writesOwnSide_of_lpeSide (side_of_isLpeSeeding hi) rfl ⟨rfl, rfl⟩
  | ceSeeded hi g hg a => exact writesOwnSide_of_ceSide (side_of_isCeSeeding hi) rfl ⟨rfl, rfl, rfl⟩
  | zeroized hi => exact writesOwnSide_of_ceSide (by rw [hi]; exact ⟨rfl, rfl⟩) rfl ⟨rfl, rfl, rfl⟩
  | @moved e hi hr p u hm =>
    obtain ⟨⟨⟨hin, h128, h64, -, -, hown⟩, -⟩, -⟩ := hm
    cases e with
    | lpe => exact writesOwnSide_of_lpeSide (side_of_isEngineCommand hi) hin ⟨hown, h64⟩
    | ce => exact writesOwnSide_of_ceSide (side_of_isEngineCommand hi) hin ⟨hown.1, hown.2.1, h128⟩
  | exhausted hi hr => exact writesOwnSide_of_ceSide (side_of_isEngineCommand hi) rfl ⟨rfl, rfl, rfl⟩

end Sys2Proof.BlockProofs
end

