-- ==== Sys2Proof/Proofs/EveryCommand.lean ====
section
/-! PROOFS. The claims about every command: which groups it writes, what becomes of the SEEDED bits, EXH
and the block counter, and that every step keeps the invariant. -/

-- Elaborated one after another, as in the tests: each proof elaborated at once takes a thread and its stack.
set_option Elab.async false

namespace Sys2Proof.BlockProofs

open Sys2Proof.Machine Sys2Proof.EngineProofs Sys2Proof.FaultProofs

/-- A cleared CE meets the laws (R225). -/
theorem cleared_laws : ceUnseededLaw CeGroup.cleared ∧ ceExhaustedLaw CeGroup.cleared ∧
    ceBufferLaw CeGroup.cleared :=
  ⟨fun _ => rfl, fun h => absurd h (by decide), ceBufferLaw_empty _ rfl⟩

/-- Taking a packet off the stream leaves both groups. -/
theorem stateInv_retire {s : State} (len : Nat) (h : StateInv s) : StateInv (retire len s) := by
  simp only [retire]
  split
  · exact h
  · exact stateInv_congr rfl rfl h

/-- Every command keeps the invariant: each change it can make to a group meets the group's laws. -/
theorem exec_stateInv {i : Instr} {s t : State} (hinv : StateInv s) (h : exec i s = .next t) :
    StateInv t := by
  obtain ⟨hl, hu, hx, hb⟩ := hinv
  refine ⟨?_, ?_⟩
  · cases exec_lpeChange h with
    | kept hk => exact hk ▸ hl
    | seeded _ hs | moved _ hs => exact fun h' => absurd (hs.symm.trans h') (by decide)
  · cases exec_ceChange h with
    | kept hk => exact hk ▸ ⟨hu, hx, hb⟩
    | seeded _ hf =>
      obtain ⟨hs, hx', hb'⟩ := hf
      exact ⟨fun h' => absurd (hs.symm.trans h') (by decide),
        fun h' => absurd (hx'.symm.trans h') (by decide), hb'⟩
    | zeroized _ hz =>
      rw [hz]
      exact cleared_laws
    | moved _ hs hnx hm =>
      obtain ⟨-, -, hs', hx', -, hb'⟩ := hm
      exact ⟨fun h' => absurd (hs'.trans hs) (by simp [h']),
        fun h' => absurd (hx'.trans hnx) (by simp [h']), hb' hb⟩
    | exhausted _ hs he =>
      rw [he]
      exact ⟨fun h' => absurd (hs.symm.trans h') (by decide), fun _ => ⟨hs, rfl, rfl, rfl⟩,
        ceBufferLaw_empty _ rfl⟩

/-- Settles O58: a step executes one command, and each command's change of the two groups meets their
laws again. -/
theorem stepKeepsTheInvariant : Obligations.StepKeepsTheInvariant := by
  unfold Obligations.StepKeepsTheInvariant
  intro s t hinv h
  cases hdec : decode s.input with
  | illegal r len =>
    rw [step_of_illegal hdec] at h
    cases h
    exact stateInv_retire len (stateInv_congr rfl rfl hinv)
  | incomplete =>
    rw [step_of_incomplete hdec] at h
    cases h
    exact hinv
  | command i len =>
    cases hexec : exec i s with
    | next u =>
      rw [step_of_exec_next hdec hexec] at h
      cases h
      exact stateInv_retire len (exec_stateInv hinv hexec)
    | fault f =>
      rw [step_of_exec_fault hdec hexec] at h
      cases h
    | refused r =>
      rw [step_of_exec_refused hdec hexec] at h
      cases h

/-- Settles O51: the sides of the table under R20, command by command. -/
theorem commandsWriteOnlyTheirOwnEngine : Obligations.CommandsWriteOnlyTheirOwnEngine := by
  unfold Obligations.CommandsWriteOnlyTheirOwnEngine
  intro i s t h
  exact exec_writesOwnSide h

/-- Settles O54: of the changes a command can make to CE, seeding and zeroization clear EXH, and
exhaustion sets it. -/
theorem exhaustionIsSticky : Obligations.ExhaustionIsSticky := by
  unfold Obligations.ExhaustionIsSticky
  intro i s t h
  cases exec_ceChange h with
  | kept hk =>
    rw [hk]
    exact ⟨fun h1 h0 => absurd h1 (by simp [h0]), fun h0 h1 => absurd h1 (by simp [h0])⟩
  | seeded hi hf => exact ⟨fun _ _ => .inl hi, fun _ h1 => absurd h1 (by simp [hf.2.1])⟩
  | zeroized hi hz => exact ⟨fun _ _ => .inr hi, fun _ h1 => absurd h1 (by simp [hz, CeGroup.cleared])⟩
  | moved _ _ hx hm =>
    obtain ⟨-, -, -, hx', -⟩ := hm
    exact ⟨fun h1 => absurd h1 (by simp [hx]), fun _ h1 => absurd h1 (by simp [hx', hx])⟩
  | exhausted hi _ he hr => exact ⟨fun _ h0 => absurd h0 (by simp [he, exhaustCe]), fun _ _ => ⟨hi, hr⟩⟩

/-- Settles O55: seeding that succeeds sets SEEDED, zeroization clears CE's, and every other change keeps
both. -/
theorem seededBitsFollowSeeding : Obligations.SeededBitsFollowSeeding := by
  unfold Obligations.SeededBitsFollowSeeding
  intro i s t p h
  have hl := exec_lpeChange h
  have hc := exec_ceChange h
  refine ⟨fun hr hi => ?_, fun hr hi => ?_, fun hne => ?_, fun hne => ?_⟩
  · cases hl with
    | kept _ hfail => exact absurd hr (hfail hi p)
    | seeded _ hs | moved _ hs => exact hs
  · cases hc with
    | kept _ hfail => exact absurd hr (hfail hi p)
    | seeded _ hf => exact hf.1
    | zeroized hz => subst hz; cases hi
    | moved hi' | exhausted hi' => simp [(isSeeding_of_isEngineCommand hi').1] at hi
  · cases hl with
    | kept hk => exact absurd (by rw [hk]) hne
    | seeded hi hs => exact ⟨hi, hs⟩
    | moved hs hs' => exact absurd (hs'.trans hs.symm) hne
  · cases hc with
    | kept hk => exact absurd (by rw [hk]) hne
    | seeded hi hf => exact .inl ⟨hi, hf.1⟩
    | zeroized hi hz => exact .inr ⟨hi, by rw [hz]; rfl⟩
    | moved _ _ _ hm =>
      obtain ⟨-, -, hs, -⟩ := hm
      exact absurd hs hne
    | exhausted _ _ he => exact absurd (by rw [he]; rfl) hne

/-- Settles O56: outside seeding and zeroization CE is kept, moved on, or exhausted. -/
theorem blockCounterGoesBackOnlyByExhaustion : Obligations.BlockCounterGoesBackOnlyByExhaustion := by
  unfold Obligations.BlockCounterGoesBackOnlyByExhaustion
  intro i s t h hseed hzero
  cases exec_ceChange h with
  | kept hk => exact hk ▸ ⟨rfl, rfl, fun _ => le_rfl⟩
  | seeded hi => simp [hseed] at hi
  | zeroized hi => exact absurd hi hzero
  | moved _ _ _ hm =>
    obtain ⟨hkey, hnonce, -, -, hctr, -⟩ := hm
    exact ⟨hkey, hnonce, fun _ => hctr⟩
  | exhausted _ _ he =>
    rw [he]
    exact ⟨rfl, rfl, fun h0 => nomatch h0⟩

/-- Settles O8: every element as R39's table has it. -/
theorem resetHoldsTheStatedValues : Obligations.ResetHoldsTheStatedValues := by
  unfold Obligations.ResetHoldsTheStatedValues
  exact ⟨rfl, rfl, rfl, rfl, rfl, rfl, rfl, rfl, rfl, rfl, rfl⟩

/-- Settles O57: reset leaves both groups cleared. -/
theorem resetMeetsTheInvariant : Obligations.ResetMeetsTheInvariant := by
  unfold Obligations.ResetMeetsTheInvariant
  exact stateInv_of_cleared rfl rfl

end Sys2Proof.BlockProofs
end

