-- ==== Sys2Proof/Proofs/StatusWord.lean ====
section
/-! PROOFS. STATUS (R33, R182): the status word bit by bit. -/

-- Elaborated one after another, as in the tests: each proof elaborated at once takes a thread and its stack.
set_option Elab.async false

namespace Sys2Proof.BlockProofs

open Sys2Proof.Machine Sys2Proof.EngineProofs Sys2Proof.FaultProofs

/-- A bit as a word has it in place 0. -/
theorem getLsbD_bitWord (b : Bool) (n : Nat) : (bitWord b).getLsbD n = (decide (n = 0) && b) := by
  cases b <;> simp [bitWord, BitVec.getLsbD_one]

/-- A cursor has four bits (R25). -/
theorem testBit_cursor {n : Nat} (v : Fin 9) (h : 4 ≤ n) : v.val.testBit n = false :=
  Nat.testBit_lt_two_pow (lt_of_lt_of_le (by omega : v.val < 2 ^ 4) (Nat.pow_le_pow_right (by decide) h))

/-- R33's table: what each bit of the status word is. -/
theorem getLsbD_statusView (c : Cfg) (s : State) {n : Nat} (h : n < 64) :
    (statusView c s).getLsbD n =
      (decide (n = 0) && s.lpe.seeded || decide (n = 1) && s.ce.seeded || decide (n = 2) && s.ce.exh ||
        decide (n = 3) && c.serEn || decide (4 ≤ n) && s.lpe.cur.val.testBit (n - 4) ||
        decide (8 ≤ n) && s.ce.cur.val.testBit (n - 8)) := by
  have shifted (b : Bool) (k : Nat) :
      (bitWord b <<< k).getLsbD n = (decide (n = k) && b) := by
    rw [BitVec.getLsbD_shiftLeft, getLsbD_bitWord]
    by_cases hk : n < k
    · simp [hk, hk.ne]
    · have : n - k = 0 ↔ n = k := by omega
      simp [hk, h, this]
  have cursor (v : Fin 9) (k : Nat) :
      (BitVec.ofNat 64 v.val <<< k).getLsbD n = (decide (k ≤ n) && v.val.testBit (n - k)) := by
    rw [BitVec.getLsbD_shiftLeft, BitVec.getLsbD_ofNat]
    by_cases hk : n < k
    · simp [hk]
    · have : n - k < 64 := by omega
      simp [h, Nat.not_lt.mp hk, this]
  simp only [statusView, BitVec.getLsbD_or, shifted, cursor, getLsbD_bitWord]

/-- From bit 4 on the word holds the cursors. -/
theorem getLsbD_statusView_cursors (c : Cfg) (s : State) {n : Nat} (h4 : 4 ≤ n) (h : n < 64) :
    (statusView c s).getLsbD n =
      (s.lpe.cur.val.testBit (n - 4) || decide (8 ≤ n) && s.ce.cur.val.testBit (n - 8)) := by
  have h0 : n ≠ 0 ∧ n ≠ 1 ∧ n ≠ 2 ∧ n ≠ 3 := by omega
  simp only [getLsbD_statusView c s h, h0, h4, decide_false, decide_true, Bool.false_and,
    Bool.true_and, Bool.false_or]

/-- The field of the status word from bit 4 holds LPE's cursor. -/
theorem extract_statusView_lpeCur (c : Cfg) (s : State) :
    (statusView c s).extractLsb' 4 4 = BitVec.ofNat 4 s.lpe.cur.val := by
  refine BitVec.eq_of_getLsbD_eq fun n hn => ?_
  have h8 : ¬ 8 ≤ 4 + n := by omega
  rw [BitVec.getLsbD_extractLsb', getLsbD_statusView_cursors c s (by omega) (by omega),
    BitVec.getLsbD_ofNat]
  simp [h8]

/-- The field of the status word from bit 8 holds CE's cursor. -/
theorem extract_statusView_ceCur (c : Cfg) (s : State) :
    (statusView c s).extractLsb' 8 4 = BitVec.ofNat 4 s.ce.cur.val := by
  refine BitVec.eq_of_getLsbD_eq fun n hn => ?_
  rw [BitVec.getLsbD_extractLsb', getLsbD_statusView_cursors c s (by omega) (by omega),
    BitVec.getLsbD_ofNat, testBit_cursor s.lpe.cur (by omega)]
  simp

/-- The bits of the status word from 12 on are zero. -/
theorem extract_statusView_reserved (c : Cfg) (s : State) :
    (statusView c s).extractLsb' 12 52 = 0 := by
  refine BitVec.eq_of_getLsbD_eq fun n hn => ?_
  rw [BitVec.getLsbD_extractLsb', getLsbD_statusView_cursors c s (by omega) (by omega),
    testBit_cursor s.lpe.cur (by omega), testBit_cursor s.ce.cur (by omega)]
  simp

/-- A cursor read back from four bits. -/
theorem toNat_ofNat_cursor (v : Fin 9) : (BitVec.ofNat 4 v.val).toNat = v.val := by
  rw [BitVec.toNat_ofNat, Nat.mod_eq_of_lt (by omega)]

/-- Settles O10: each field of the word is read off its bits, and after reset both cursors are 8. -/
theorem statusReturnsTheStatusWord : Obligations.StatusReturnsTheStatusWord := by
  unfold Obligations.StatusReturnsTheStatusWord
  refine ⟨fun s => ⟨statusView Config.cfg s, rfl, ?_, ?_, ?_, ?_, ?_, ?_, ?_⟩, fun c => ?_⟩
  · simp [getLsbD_statusView, -BitVec.getLsbD_eq_getElem]
  · simp [getLsbD_statusView, -BitVec.getLsbD_eq_getElem]
  · simp [getLsbD_statusView, -BitVec.getLsbD_eq_getElem]
  · simp [getLsbD_statusView, -BitVec.getLsbD_eq_getElem]
  · rw [extract_statusView_lpeCur, toNat_ofNat_cursor]
  · rw [extract_statusView_ceCur, toNat_ofNat_cursor]
  · exact extract_statusView_reserved _ s
  · simp only [statusView]
    cases c.serEn <;> decide

end Sys2Proof.BlockProofs
end

