-- ==== Sys2Proof/Proofs/Responses.lean ====
section
/-! PROOFS. Responses (30_encoding.md R85, R86; 60_exceptions.md R271, R273): the runs whose payload has a
given size and whose fault is no completion, and the response of every command. -/

-- Elaborated one after another, as in the tests: each proof elaborated at once takes a thread and its stack.
set_option Elab.async false

namespace Sys2Proof.BlockProofs

open Sys2Proof.Machine Sys2Proof.EngineProofs Sys2Proof.FaultProofs

/-! The faults of a command's run. No part of a command raises the code `ok`, so a completion and a fault are
told apart by the status. -/

theorem ne_ok_of_exhaustsFrom {e : Engine} {s t : State} {f : FaultCode}
    (h : exhaustsFrom e s f t) : f ≠ .ok := by
  obtain ⟨-, rfl, -⟩ := h
  decide

/-- A run whose fault, if it ends with one, is no completion. -/
def raisesNoOk {α : Type} (r : Run α) : Prop := r.Holds (fun _ _ => True) fun f _ => f ≠ .ok

theorem raisesNoOk_of_holds {α : Type} {e : Engine} {s : State} {r : Run α} {D : α → State → Prop}
    (h : r.Holds D (exhaustsFrom e s)) : raisesNoOk r :=
  holds_mono h (fun _ _ _ => trivial) fun _ _ => ne_ok_of_exhaustsFrom

/-- Whatever the sampler answers, a fault of it is the readiness check's or a draw's. -/
theorem sample_raisesNoOk {c : Cfg} {e : Engine} {lo hi : Word} {s : State} {r : Run Word}
    (h : sample c e lo hi s = some r) : raisesNoOk r := by
  rw [sample] at h
  cases hready : notReady e s with
  | some f =>
    rw [hready] at h
    cases h
    rintro rfl
    exact notReady_ne_ok e s hready
  | none =>
    rw [hready] at h
    dsimp only at h
    split at h <;> exact raisesNoOk_of_holds (sampleOrdered_holds _ _ _ _ _ _ h)

/-! The payloads of a command's run. -/

/-- A run whose payload has the given number of words, and whose fault is no completion. -/
def yieldsWords (n : Nat) (r : Run (List Word)) : Prop :=
  r.Holds (fun p _ => p.length = n) fun f _ => f ≠ .ok

theorem yieldsWords_andThen {α : Type} {r : Run α} {k : α → State → Run (List Word)} {n : Nat}
    (h : raisesNoOk r) (hk : ∀ a t, yieldsWords n (k a t)) : yieldsWords n (r.andThen k) :=
  andThen_holds h fun a t _ => hk a t

theorem yieldsWords_whenReady {e : Engine} {s : State} {k : State → Run (List Word)} {n : Nat}
    (h : yieldsWords n (k s)) : yieldsWords n (whenReady e s k) := by
  cases hr : notReady e s with
  | none => rwa [whenReady_of_ready e s k hr]
  | some f =>
    rw [whenReady_of_fault e s k f hr]
    rintro rfl
    exact notReady_ne_ok e s hr

/-- A bulk fill that completes has filled every byte (R175). -/
theorem length_of_bulkFill {c : Cfg} {e : Engine} {n : Nat} {s t : State} {out : List Byte}
    (h : bulkFill c e n s = .done out t) : out.length = n := by
  rw [bulkFill_eq, andThen_eq_done] at h
  obtain ⟨blks, u, hblocks, heq⟩ := h
  cases heq
  rw [List.length_take, length_flatMap_of_length blockBytes 64 length_blockBytes,
    (genBlocks_done hblocks).1]
  omega

theorem bulkFill_yields (c : Cfg) (e : Engine) (n : Nat) (s : State) :
    (bulkFill c e n s).Holds (fun out _ => out.length = n) fun f _ => f ≠ .ok := by
  have hholds := bulkFill_holds c e n s
  cases hfill : bulkFill c e n s with
  | done out t => exact length_of_bulkFill hfill
  | raised f t =>
    rw [hfill] at hholds
    exact ne_ok_of_exhaustsFrom hholds

/-! Responses. -/

theorem statusWord_toNat_lt (f : FaultCode) : (statusWord f).toNat < 256 := by
  cases f <;> decide

/-- The state stands with a response: a fault without payload, or a completion with so many words. -/
def respondsWith (n : Nat) (t : State) : Prop :=
  ∃ r : Response, t.response = some r ∧ (statusWord r.status).toNat < 256 ∧
    (r.status ≠ .ok → r.payload = []) ∧ (r.status = .ok → r.payload.length = n)

theorem respondsWith_complete {n : Nat} (s : State) {p : List Word} (h : p.length = n) :
    respondsWith n (complete s p) :=
  ⟨⟨.ok, p⟩, rfl, statusWord_toNat_lt _, fun hne => absurd rfl hne, fun _ => h⟩

/-- A meaning that always completes responds with its payload. -/
theorem respondsWith_of_next_complete {n : Nat} {s t : State} {p : List Word} (hp : p.length = n)
    (h : (.next (complete s p) : Host.Outcome State Fault Refusal) = .next t) : respondsWith n t := by
  cases h
  exact respondsWith_complete s hp

theorem respondsWith_raiseFault (n : Nat) (s : State) {f : FaultCode} (h : f ≠ .ok) :
    respondsWith n (raiseFault s f) :=
  ⟨⟨f, []⟩, rfl, statusWord_toNat_lt _, fun _ => rfl, fun hok => absurd hok h⟩

theorem respondsWith_settle {n : Nat} {r : Run (List Word)} (h : yieldsWords n r) :
    respondsWith n r.settle := by
  cases r with
  | done p s => exact respondsWith_complete s h
  | raised f s => exact respondsWith_raiseFault n s h

/-! The response of each command that can fault. -/

theorem nextCommand_responds (c : Cfg) (e : Engine) (s : State) :
    respondsWith 1 (nextCommand c e s) :=
  respondsWith_settle (yieldsWords_whenReady
    (yieldsWords_andThen (raisesNoOk_of_holds (drawWord_holds c e s)) fun _ _ => rfl))

theorem bulkCommand_responds (c : Cfg) (e : Engine) (nBytes : Word) (s : State) :
    respondsWith ((nBytes.toNat + 7) / 8) (bulkCommand c e nBytes s) :=
  respondsWith_settle (yieldsWords_whenReady
    (andThen_holds (bulkFill_yields c e nBytes.toNat s) fun out _ hout => by
      change (packBytes out).length = _
      rw [length_packBytes, hout]))

theorem discardCommand_responds (c : Cfg) (e : Engine) (n : Word) (s : State) :
    respondsWith 0 (discardCommand c e n s) :=
  respondsWith_settle (yieldsWords_whenReady
    (yieldsWords_andThen (raisesNoOk_of_holds (discardWords_holds c e n.toNat s)) fun _ _ => rfl))

theorem jumpCommand_responds (c : Cfg) (e : Engine) (long : Bool) (s : State) :
    respondsWith 0 (jumpCommand c e long s) :=
  respondsWith_settle (yieldsWords_whenReady
    (yieldsWords_andThen (raisesNoOk_of_holds (jumpEngine_holds c e long s)) fun _ _ => rfl))

theorem unbiasedCommand_responds {c : Cfg} {e : Engine} {lo hi : Word} {s t : State}
    (h : unbiasedCommand c e lo hi s = .next t) : respondsWith 1 t := by
  cases hsample : sample c e lo hi s with
  | none =>
    rw [unbiasedCommand_of_none hsample] at h
    cases h
  | some r =>
    rw [unbiasedCommand_of_some hsample] at h
    cases h
    exact respondsWith_settle (yieldsWords_andThen (sample_raisesNoOk hsample) fun _ _ => rfl)

theorem saveCommand_responds (c : Cfg) (s : State) : respondsWith 9 (saveCommand c s) := by
  rw [saveCommand]
  split
  · refine respondsWith_settle (yieldsWords_whenReady ?_)
    change (packBytes (saveRecord c s.ce)).length = 9
    rw [length_packBytes, length_saveRecord]
  · exact respondsWith_raiseFault 9 s (by decide)

theorem restoreCommand_responds (c : Cfg) (len : Word) (record : List Byte) (s : State) :
    respondsWith 0 (restoreCommand c len record s) := by
  rw [restoreCommand]
  split
  · cases hf : recordFault c len record with
    | some f => exact respondsWith_raiseFault 0 s (by rintro rfl; exact recordFault_ne_ok hf)
    | none => exact respondsWith_complete _ rfl
  · exact respondsWith_raiseFault 0 s (by decide)

/-! The two commands that can wait for a draw (R316). -/

theorem exec_lpeSeedEnt_responds {s t : State} (h : exec .lpeSeedEnt s = .next t) :
    t.response = none ∨ respondsWith 0 t := by
  obtain hdraw | ⟨_, hdraw⟩ | ⟨_, _, hdraw⟩ := exec_lpeSeedEnt_cases s <;> rw [hdraw] at h <;> cases h
  · exact .inl rfl
  · exact .inr (respondsWith_raiseFault 0 _ (by decide))
  · exact .inr (respondsWith_complete _ rfl)

theorem exec_ceSeedEnt_responds {s t : State} (h : exec .ceSeedEnt s = .next t) :
    t.response = none ∨ respondsWith 0 t := by
  obtain hdraw | ⟨_, hdraw⟩ | ⟨_, _, hdraw⟩ := exec_ceSeedEnt_cases s <;> rw [hdraw] at h <;> cases h
  · exact .inl rfl
  · exact .inr (respondsWith_raiseFault 0 _ (by decide))
  · exact .inr (respondsWith_complete _ rfl)

/-- A command that ends in a next state responds with its row's payload, unless it is one of the two that can
wait for a draw. -/
theorem exec_responds {i : Instr} {s t : State} (h : exec i s = .next t) :
    (t.response = none ∧ (i = .lpeSeedEnt ∨ i = .ceSeedEnt)) ∨ respondsWith (resultWords i) t := by
  cases i with
  | lpeSeedEnt => exact (exec_lpeSeedEnt_responds h).imp_left fun hn => ⟨hn, .inl rfl⟩
  | ceSeedEnt => exact (exec_ceSeedEnt_responds h).imp_left fun hn => ⟨hn, .inr rfl⟩
  | unbiased e lo hi => exact .inr (unbiasedCommand_responds h)
  | next e => cases h; exact .inr (nextCommand_responds _ e s)
  | bulk e n => cases h; exact .inr (bulkCommand_responds _ e n s)
  | discard e n => cases h; exact .inr (discardCommand_responds _ e n s)
  | jump e => cases h; exact .inr (jumpCommand_responds _ e false s)
  | ljump e => cases h; exact .inr (jumpCommand_responds _ e true s)
  | ceSave => cases h; exact .inr (saveCommand_responds _ s)
  | ceRestore len record => cases h; exact .inr (restoreCommand_responds _ len _ s)
  | chacha key nonce c =>
    rw [exec_chacha] at h
    exact .inr (respondsWith_of_next_complete Vector.length_toList h)
  | ctrRead => exact .inr (respondsWith_of_next_complete Vector.length_toList h)
  | status | mix | ctrEq => exact .inr (respondsWith_of_next_complete rfl h)
  | ctrAdv1 | ctrAdvn | ctrJump | ctrLoad => exact .inr (respondsWith_of_next_complete rfl h)
  | lpeSeedU64 | lpeSeedSeq => exact .inr (respondsWith_of_next_complete rfl h)
  | ceKey | ceSeed64 | ceSeed32 | ceZeroize => exact .inr (respondsWith_of_next_complete rfl h)

/-- Settles O48: the codes are evaluated, and every command's response is its row's. -/
theorem responsesHaveTheirRowsPayload : Obligations.ResponsesHaveTheirRowsPayload := by
  unfold Obligations.ResponsesHaveTheirRowsPayload
  exact ⟨fun _ => rfl, by decide, fun _ _ _ => exec_responds⟩

end Sys2Proof.BlockProofs
end
